-- ==== Sys2Proof/Word.lean ====
section
/-! DEFINITION. The words of the block: bytes, and the 16-bit CRC register (spec R9, R10). -/

namespace Sys2Proof

/-- A byte: the width of the host data bus and of almost every register (R9 W_DATA, R10). -/
abbrev Byte := BitVec 8

/-- The width of the CRC register (R27). -/
abbrev Half := BitVec 16

end Sys2Proof
end

