-- ==== Sys2Proof/Config.lean ====
section
/-! DEFINITION. The parameters of R9 (93 P1 to P7) and the free values of 93 part 1. What R9 fixes is a number
here; the parameters with a default are `Params`, an argument of the model that State carries (log 6); an OPEN
parameter, and every free value, is opaque: nothing about it can be proved. -/

namespace Sys2Proof

/-- W_OFF: the register space has 1024 byte offsets (R9, R60). -/
def Config.offsets : Nat := 1024

/-- RAW_SIZE and FRAME_SIZE (R9). -/
def Config.bufferSize : Nat := 256

/-- COBS_MAX_IN: the largest COBS input and decoded output (R9, R141, R143). -/
def Config.cobsMaxIn : Nat := 253

/-- COBS_MAX_FRAME: the largest frame, delimiter included (R9). -/
def Config.cobsMaxFrame : Nat := 255

/-- CRC16_POLY (R9, R120). -/
def Config.crc16Poly : Half := 0x1021

/-- CRC16_INIT (R9, R121). -/
def Config.crc16Init : Half := 0x0000

/-- CRC8_POLY, reflected form (R9, R222). -/
def Config.crc8Poly : Byte := 0x8C

/-- CRC8_INIT (R9, R222). -/
def Config.crc8Init : Byte := 0x00

/-- ROM_BYTES (R9). -/
def Config.romBytes : Nat := 8

/-- ROM_BITS: the number of bits a search visits (R9, R224). -/
def Config.romBits : Nat := 64

/-- The parameters a model takes as arguments and R9 gives defaults for (R9, 93 P5 to P7, log 6). Times are in
microseconds. -/
structure Params where
  /-- T_RSTL: how long a reset drives the line low (R192). -/
  tRstl : Nat
  /-- T_PDS: from the release to the presence sample (R192). -/
  tPds : Nat
  /-- T_RST_END: the whole reset sequence, from the falling edge (R192). -/
  tRstEnd : Nat
  /-- T_W1L: the low time of a write-1 slot (R193). -/
  tW1l : Nat
  /-- T_W0L: the low time of a write-0 slot (R193). -/
  tW0l : Nat
  /-- T_RL: the low time of a read slot (R194). -/
  tRl : Nat
  /-- T_MSR: the sample of a read slot, from the falling edge (R194). -/
  tMsr : Nat
  /-- T_SLOT: every write or read slot, recovery included (R193, R194). -/
  tSlot : Nat
  /-- SEARCH_CMD: the byte written before the 64 search bits (R224, log 7). -/
  searchCmd : Byte
  deriving DecidableEq, Repr

/-- The defaults of R9. -/
def Params.default : Params where
  tRstl := 500
  tPds := 70
  tRstEnd := 800
  tW1l := 8
  tW0l := 80
  tRl := 2
  tMsr := 12
  tSlot := 90
  searchCmd := 0xF0

/-- The legal ranges of T_RST_END and T_MSR, and the constraints between parameters (R9). -/
def Params.legal (p : Params) : Bool :=
  decide (600 ≤ p.tRstEnd ∧ p.tRstEnd ≤ 800 ∧ 7 ≤ p.tMsr ∧ p.tMsr ≤ 15 ∧ p.tRstl + p.tPds < p.tRstEnd ∧
    p.tW0l < p.tSlot ∧ p.tRl < p.tMsr ∧ p.tMsr < p.tSlot)

/-- BASE is OPEN (R9, 93 P1). The model works with offsets from it, so no rule reads it. -/
opaque Config.base : Nat

/-- The host address of an offset (R60). -/
def Config.addressOf (off : Nat) : Nat := Config.base + off

/-- F_CLK / 1,000,000, a positive integer (R9, 93 P2); F_CLK is OPEN. -/
opaque Config.cpuUsLessOne : Nat

/-- CPU_US: clock cycles in a microsecond (R9, R191). -/
def Config.cpuUs : Nat := Config.cpuUsLessOne + 1

/-- The clock cycles that `Wait(t)` lasts (R191). -/
def Config.waitCycles (t : Nat) : Nat := t * Config.cpuUs

/-- F_SCL is OPEN and read by no rule (R9, 93 P3). -/
opaque Config.fScl : Nat

/-- T_CRC is OPEN, finite, and read by no rule (R9, R110, 93 P4). -/
opaque Config.tCrc : Nat

/-- T_COBS is OPEN, finite, and read by no rule (R9, R110, 93 P4). -/
opaque Config.tCobs : Nat

/-- How many progress points one step of the model gives the sequencer at most (log 8). It bounds a step,
not a command: a command that needs more goes on in the next step. -/
def Config.burst : Nat := 4096

/-- FREE VALUE (93 U10): the level the 1-Wire line has at the n-th draw, chosen by the environment (R190, log 2). -/
opaque Config.owiLevel : Nat → Bool

/-- FREE VALUE (93 U9): whether the I2C environment ends the phase at the n-th draw (R160, R172, log 3). -/
opaque Config.i2cReady : Nat → Bool

/-- FREE VALUE (93 U8): whether the start succeeds or the byte is acknowledged at the n-th draw (R160, log 3). -/
opaque Config.i2cOk : Nat → Bool

/-- FREE VALUE (93 U8): the byte received at the n-th draw (R160, log 3). -/
opaque Config.i2cByte : Nat → Byte

/-- FREE VALUE (93 U2): what a host read of an undefined byte returns while a command runs (R72, log 4). -/
opaque Config.busyByte : Nat → Byte

/-- FREE VALUE (93 U1): what the buffer byte at an offset holds after the n-th hardware reset, until it is
written (R34, R35, R281, log 5). -/
opaque Config.bufferByte : Nat → Nat → Byte

end Sys2Proof
end

