-- ==== Sys2Proof/Syntax.lean ====
section
/-! DEFINITION. The commands of the block: one constructor per row of the opcode table (R92). The illegal
command of R94 is no row; Decode.lean names it. -/

namespace Sys2Proof

/-- A legal command (R92). Register operands are implied by the command; only `i2c.read` has a field (R93). -/
inductive Instr where
  /-- `nop`, 0x00 (R112). -/
  | nop
  /-- `sreset`, 0x01 (R113). -/
  | sreset
  /-- `crc.clr`, 0x20 (R122). -/
  | crcClr
  /-- `crc.byte`, 0x21 (R123). -/
  | crcByte
  /-- `crc.buf`, 0x22 (R124). -/
  | crcBuf
  /-- `cobs.enc`, 0x40 (R141). -/
  | cobsEnc
  /-- `cobs.dec`, 0x41 (R144). -/
  | cobsDec
  /-- `i2c.startw`, 0x60 (R165). -/
  | i2cStartw
  /-- `i2c.startr`, 0x61 (R166). -/
  | i2cStartr
  /-- `i2c.write`, 0x62 (R167). -/
  | i2cWrite
  /-- `i2c.read A`, 0x64 | A (R168): `ack` is A, true to acknowledge the received byte (R93). -/
  | i2cRead (ack : Bool)
  /-- `i2c.stop`, 0x66 (R169). -/
  | i2cStop
  /-- `i2c.readn`, 0x67 (R170). -/
  | i2cReadn
  /-- `i2c.writen`, 0x68 (R171). -/
  | i2cWriten
  /-- `owi.reset`, 0x80 (R196). -/
  | owiReset
  /-- `owi.wbit`, 0x81 (R197). -/
  | owiWbit
  /-- `owi.rbit`, 0x82 (R198). -/
  | owiRbit
  /-- `owi.wbyte`, 0x83 (R199). -/
  | owiWbyte
  /-- `owi.rbyte`, 0x84 (R200). -/
  | owiRbyte
  /-- `owi.sfirst`, 0x85 (R228). -/
  | owiSfirst
  /-- `owi.snext`, 0x86 (R229). -/
  | owiSnext
  deriving DecidableEq, Repr

end Sys2Proof
end

