-- ==== Sys2Proof/WellFormed.lean ====
section
/-! DEFINITION. What may be written: a command, and a host access (R62, R93). A command's one field is a
Bool, so every command is well formed; a host access can be ill formed in its width or its offset. -/

namespace Sys2Proof

/-- The width check: every host access moves exactly one byte (R62). -/
def accessWidthOk (width : Nat) : Bool := width == 1

/-- The offset check: the register space has offsets 0x000..0x3FF (R60). -/
def accessOffsetOk (off : Nat) : Bool := decide (off < Config.offsets)

/-- A host access with a meaning (R60, R62). -/
def accessWellFormed (width off : Nat) : Bool := accessWidthOk width && accessOffsetOk off

/-- Every command is well formed: no field of a command has a value the type does not exclude (R93). -/
def Instr.wellFormed (i : Instr) : Bool :=
  match i with
  | .nop | .sreset | .crcClr | .crcByte | .crcBuf | .cobsEnc | .cobsDec | .i2cStartw | .i2cStartr
  | .i2cWrite | .i2cRead _ | .i2cStop | .i2cReadn | .i2cWriten | .owiReset | .owiWbit | .owiRbit
  | .owiWbyte | .owiRbyte | .owiSfirst | .owiSnext => true

end Sys2Proof
end

