-- ==== Sys2Proof/Decode.lean ====
section
/-! DEFINITION. The decoder and the encoder of command words (R90 to R95). -/

namespace Sys2Proof

/-- What a command word means (R95). -/
inductive Decoded where
  /-- A word of the opcode map (R92). -/
  | command (i : Instr)
  /-- A word outside the map: it runs as the illegal command (R94). -/
  | illegalCommand (w : Byte)
  deriving DecidableEq, Repr

/-- The field U: bits 7:5 of the word (R90). -/
def wordUnit (w : Byte) : Nat := (w >>> 5).toNat

/-- The field OP: bits 4:0 of the word (R90). -/
def wordOp (w : Byte) : Nat := (w &&& 0x1F).toNat

/-- The field A of `i2c.read`: bit 0 of the word (R93). -/
def wordA (w : Byte) : Bool := w.getLsbD 0

/-- The decoder, total on all 256 words: first the two words of `i2c.read`, then the map of R92 by unit and
operation, else the illegal command (R95). -/
def decode (w : Byte) : Decoded :=
  match wordUnit w, wordOp w with
  | 3, 0x04 => .command (.i2cRead (wordA w))
  | 3, 0x05 => .command (.i2cRead (wordA w))
  | 0, 0x00 => .command .nop
  | 0, 0x01 => .command .sreset
  | 1, 0x00 => .command .crcClr
  | 1, 0x01 => .command .crcByte
  | 1, 0x02 => .command .crcBuf
  | 2, 0x00 => .command .cobsEnc
  | 2, 0x01 => .command .cobsDec
  | 3, 0x00 => .command .i2cStartw
  | 3, 0x01 => .command .i2cStartr
  | 3, 0x02 => .command .i2cWrite
  | 3, 0x06 => .command .i2cStop
  | 3, 0x07 => .command .i2cReadn
  | 3, 0x08 => .command .i2cWriten
  | 4, 0x00 => .command .owiReset
  | 4, 0x01 => .command .owiWbit
  | 4, 0x02 => .command .owiRbit
  | 4, 0x03 => .command .owiWbyte
  | 4, 0x04 => .command .owiRbyte
  | 4, 0x05 => .command .owiSfirst
  | 4, 0x06 => .command .owiSnext
  | _, _ => .illegalCommand w

/-- The word CMD8 with unit `u` and operation `op`: U in bits 7:5, OP in bits 4:0 (R90). -/
def cmd8 (u : BitVec 3) (op : BitVec 5) : Byte := u ++ op

/-- The encoder: the word of each command, by its U and OP of R92, with A in bit 0 of `i2c.read` (R93). -/
def encode (i : Instr) : Byte :=
  match i with
  | .nop => cmd8 0 0x00
  | .sreset => cmd8 0 0x01
  | .crcClr => cmd8 1 0x00
  | .crcByte => cmd8 1 0x01
  | .crcBuf => cmd8 1 0x02
  | .cobsEnc => cmd8 2 0x00
  | .cobsDec => cmd8 2 0x01
  | .i2cStartw => cmd8 3 0x00
  | .i2cStartr => cmd8 3 0x01
  | .i2cWrite => cmd8 3 0x02
  | .i2cRead ack => cmd8 3 ((0x02 : BitVec 4) ++ BitVec.ofBool ack)
  | .i2cStop => cmd8 3 0x06
  | .i2cReadn => cmd8 3 0x07
  | .i2cWriten => cmd8 3 0x08
  | .owiReset => cmd8 4 0x00
  | .owiWbit => cmd8 4 0x01
  | .owiRbit => cmd8 4 0x02
  | .owiWbyte => cmd8 4 0x03
  | .owiRbyte => cmd8 4 0x04
  | .owiSfirst => cmd8 4 0x05
  | .owiSnext => cmd8 4 0x06

/-- The command's spelling in a program (R96). -/
def Instr.spelling (i : Instr) : String :=
  match i with
  | .nop => "nop"
  | .sreset => "sreset"
  | .crcClr => "crc.clr"
  | .crcByte => "crc.byte"
  | .crcBuf => "crc.buf"
  | .cobsEnc => "cobs.enc"
  | .cobsDec => "cobs.dec"
  | .i2cStartw => "i2c.startw"
  | .i2cStartr => "i2c.startr"
  | .i2cWrite => "i2c.write"
  | .i2cRead ack => if ack then "i2c.read ack" else "i2c.read nack"
  | .i2cStop => "i2c.stop"
  | .i2cReadn => "i2c.readn"
  | .i2cWriten => "i2c.writen"
  | .owiReset => "owi.reset"
  | .owiWbit => "owi.wbit"
  | .owiRbit => "owi.rbit"
  | .owiWbyte => "owi.wbyte"
  | .owiRbyte => "owi.rbyte"
  | .owiSfirst => "owi.sfirst"
  | .owiSnext => "owi.snext"

/-- The command that the low `nbits` bits of `w` decode to; none for an illegal word. -/
def decodeTableWord (nbits w : Nat) : Option Instr :=
  match decode (BitVec.ofNat 8 (w % 2 ^ nbits)) with
  | .command i => some i
  | .illegalCommand _ => none

end Sys2Proof
end

