-- ==== Sys2Proof/Machine/State.lean ====
section
/-! DEFINITION. The state of the block (10_state), as plain data, and the state after hardware reset (R41). -/

namespace Sys2Proof.Machine

/-- The result codes of R251, in the order of that table; `R_OWI_LAST` is a terminal result, not an error. -/
inductive Result where
  | ok
  | eIllegal
  | eLen
  | eCobsEmpty
  | eCobsTrunc
  | eCobsOvf
  | eI2cStart
  | eI2cNack
  | eI2cState
  | eOwiNoPres
  | eOwiNoDev
  | eOwiCrc
  | eOwiFamily
  | rOwiLast
  deriving DecidableEq, Repr

/-- The values of I2C_STAT.CODE (R29). Value 7 is never produced, so it has no constructor (93 U5). -/
inductive I2cCode where
  | idle
  | started
  | repStarted
  | addrAcked
  | dataAcked
  | noAck
  | startFailed
  deriving DecidableEq, Repr

/-- One action on the 1-Wire line, the primitives of R190 and R191. -/
inductive LineOp where
  /-- `OwiDriveLow()`. -/
  | low
  /-- `OwiRelease()`. -/
  | release
  /-- `Wait(t)`, t in microseconds. -/
  | wait (us : Nat)
  /-- `OwiSample()`. -/
  | sample
  deriving DecidableEq, Repr

/-- The variables of `cobs_encode` (R140). `out` is F[0..w-1], so the write index w is its length; the byte
at `codeIdx` is not final until the offset is written there. -/
structure EncVars where
  out : List Byte
  codeIdx : Nat
  code : Byte
  deriving DecidableEq, Repr

/-- The variables of `cobs_decode` (R143). -/
structure DecVars where
  i : Nat
  cnt : Byte
  out : List Byte
  deriving DecidableEq, Repr

/-- Where a 1-Wire command goes on when a slot or the reset pulse ends: the loop variables of R195 and
R224. -/
inductive OwiJob where
  /-- `owi.reset`: the reset pulse (R196). -/
  | pulse
  /-- `owi.wbit`: its write slot (R197). -/
  | wbit
  /-- `owi.rbit`: its read slot (R198). -/
  | rbit
  /-- `owi.wbyte`: the write slot of bit `i` (R199). -/
  | wbyte (i : Nat)
  /-- `owi.rbyte`: the read slot of bit `i`, with the bits read before it (R200). -/
  | rbyte (i : Nat) (v : Byte)
  /-- Search: the reset pulse (R224). -/
  | searchReset
  /-- Search: the write slot of bit `i` of SEARCH_CMD (R224). -/
  | searchCmd (i : Nat)
  /-- Search: the read slot of `id` at bit number `n` (R224). -/
  | searchId (n lastZero : Nat) (crc : Byte)
  /-- Search: the read slot of `cmp` at bit number `n` (R224). -/
  | searchCmp (n lastZero : Nat) (crc : Byte) (id : Bool)
  /-- Search: the write slot of the direction at bit number `n` (R224). -/
  | searchDir (n lastZero : Nat) (crc : Byte)
  deriving DecidableEq, Repr

/-- The progress point p of RUN(c, p): a step of the command's pseudocode with its loop variables (R36). -/
inductive Progress where
  /-- The first step of every command (R110). -/
  | first
  /-- `crc.buf`: the loop at index `i` with the running register (R124). -/
  | crcLoop (i : Nat) (c : Half)
  /-- `cobs.enc`: the loop at read index `r` (R140). -/
  | encLoop (r : Nat) (v : EncVars)
  /-- `cobs.dec`: the loop (R143). -/
  | decLoop (v : DecVars)
  /-- Waiting for the end of `I2cStart()` (R164). -/
  | i2cStart
  /-- Waiting for the end of `I2cSendByte(SLA)` (R164). -/
  | i2cAddr
  /-- Waiting for the end of `I2cSendByte` of data byte `k` (R167, R171). -/
  | i2cSend (k : Nat)
  /-- Waiting for the end of `I2cRecvByte` of data byte `k` (R168, R170). -/
  | i2cRecv (k : Nat)
  /-- Waiting for the end of the `I2cStop()` that ends the transaction (R113, R169 to R171). -/
  | i2cStop
  /-- Waiting for the end of the `I2cStop()` of a failure path, to raise `e` after it (R164, R167, R171). -/
  | i2cFail (e : Result)
  /-- In a 1-Wire slot or reset pulse: the line actions left, the sample taken, where to go on (R192 to R194). -/
  | slot (todo : List LineOp) (got : Bool) (job : OwiJob)
  /-- `sreset`: everything is cleared, `finish()` is left (R113). -/
  | last
  deriving DecidableEq, Repr

/-- The sequencer (R36): IDLE, or RUN(c, p) with c the accepted code. -/
inductive Seq where
  | idle
  | run (c : Byte) (p : Progress)
  deriving DecidableEq, Repr

/-- An event on the buses, for the trace of what the block did there and what it met. -/
inductive BusEvent where
  /-- The block began to drive the 1-Wire line low (R190). -/
  | owiLow
  /-- The block released the 1-Wire line (R190). -/
  | owiRelease
  /-- The sequencer held for `us` microseconds (R191). -/
  | owiWait (us : Nat)
  /-- The block sampled the 1-Wire line (R190). -/
  | owiSample (level : Bool)
  /-- A start (or a repeated start) condition, and whether it succeeded (R160). -/
  | i2cStart (repeated ok : Bool)
  /-- A byte sent, and whether it was acknowledged (R160). -/
  | i2cSend (b : Byte) (ack : Bool)
  /-- A byte received, and whether the block acknowledged it (R160). -/
  | i2cRecv (b : Byte) (ack : Bool)
  /-- A stop condition (R160). -/
  | i2cStop
  /-- A hardware reset released all lines, with no stop condition (R281). -/
  | hwReset
  deriving DecidableEq, Repr

/-- The I2C environment's answer to a phase (R160, R172): whether the phase ends now, and what it gives then
(`ok`: the start succeeded, or the byte was acknowledged; `byte`: the byte received). -/
structure I2cReply where
  ready : Bool
  ok : Bool
  byte : Byte
  deriving DecidableEq, Repr

/-- What the host can do to the block (R97, R280): a read or a write of some width, and the reset input. -/
inductive HostAction where
  /-- `MemRead(off, width)` (R11). -/
  | read (width off : Nat)
  /-- `MemWrite(off, width, v)` (R11). -/
  | write (width off : Nat) (v : Byte)
  /-- The platform asserts hardware reset (R280). -/
  | assertReset
  /-- The platform releases hardware reset (R281). -/
  | releaseReset
  deriving DecidableEq, Repr

/-- A host action to come. `after`: `some n` lands after `n` more progress points of a running command (R70:
the sequencer may take any number of steps between two accesses); `none` lands once BUSY = 0 (the host waits, R98).
On an idle block it lands at once. -/
structure HostEvent where
  after : Option Nat
  action : HostAction
  deriving DecidableEq, Repr

/-- The state of the block (R20), then the model's own fields for the world around it (log 1 to 5, 11, 12).
BUSY is `seq` not idle and ERR is `result` not OK, so neither is stored (R22, R252). -/
structure State where
  /-- RESULT (R23). -/
  result : Result
  /-- STATUS.CMD_OVR (R22). -/
  cmdOvr : Bool
  /-- STATUS.ACC_ERR (R22). -/
  accErr : Bool
  /-- DATA (R24). -/
  data : Byte
  /-- LEN (R25). -/
  len : Byte
  /-- FLEN (R26). -/
  flen : Byte
  /-- CRC (R27). -/
  crc : Half
  /-- I2C_ADDR.ADDR; bit 7 of the register is reserved and reads 0 (R28). -/
  i2cAddr : BitVec 7
  /-- I2C_STAT.CODE (R29). -/
  i2cCode : I2cCode
  /-- I2C_STAT.OPEN (R29). -/
  i2cOpen : Bool
  /-- I2C_STAT.DIR (R29). -/
  i2cDir : Bool
  /-- SRCH_LD (R31). -/
  srchLd : Byte
  /-- SRCH_LFD (R31). -/
  srchLfd : Byte
  /-- SRCH_FLAGS.LDF (R31). -/
  ldf : Bool
  /-- ROM0..ROM7 (R32). -/
  rom : Vector Byte 8
  /-- OWI_CRC8 (R33). -/
  owiCrc8 : Byte
  /-- RAW at 0x100..0x1FF and FRAME at 0x200..0x2FF (R34, R35); an offset not listed was not written since
  hardware reset. -/
  mem : List Host.Cell
  /-- The sequencer (R36). -/
  seq : Seq
  /-- OWI_DRIVE (R37). -/
  owiDrive : Bool
  /-- Whether the block holds the I2C lines; false when both are released (R37). -/
  i2cHeld : Bool
  /-- The parameters with defaults, an argument of the model; no step changes them (R9, 93 P5 to P7, log 6). -/
  params : Params
  /-- Model's own: the hardware reset input is asserted (R280). -/
  resetLine : Bool
  /-- Model's own: the host actions to come, in the order issued (R70). -/
  host : List HostEvent
  /-- Model's own: what host reads returned, as offset and value, newest first. -/
  reads : List (Nat × Byte)
  /-- Model's own: 1-Wire samples the environment has already chosen (R190). -/
  owiScript : List Bool
  /-- Model's own: I2C answers the environment has already chosen (R160). -/
  i2cScript : List I2cReply
  /-- Model's own: the number of free values drawn. -/
  draws : Nat
  /-- Model's own: the number of times hardware reset made the buffers' contents unknown (93 U1). -/
  epoch : Nat
  /-- Model's own: the bus events so far, newest first. -/
  trace : List BusEvent
  deriving DecidableEq, Repr

/-- Why the machine faults. No command of the block faults (R250). -/
inductive Fault where
  /-- Raised by a host access at an offset beyond 0x3FF, which the register space does not have (R60). Safe:
  the model stops, and such an access never reaches the block. -/
  | noSuchOffset
  deriving DecidableEq, Repr

/-- Why the machine refuses. No command of the block is refused. -/
inductive Refusal where
  /-- Raised by an arm of `exec` whose command has no meaning yet. Safe: the model stops. No arm raises it. -/
  | notModelled (mnemonic : String)
  /-- Raised by a host access of a width other than one byte, which has no meaning (R62, 93 U4). Safe. -/
  | accessWidth
  /-- Raised by a host access made while hardware reset is asserted, which has no meaning (R281, 93 U3). Safe. -/
  | accessInReset
  deriving DecidableEq, Repr

/-- The block right after hardware reset (R41, R281): every register at its reset value, the sequencer IDLE,
the lines released, RAW and FRAME unwritten, the parameters at their defaults (R9); nothing has happened yet
outside. -/
def State.reset : State where
  result := .ok
  cmdOvr := false
  accErr := false
  data := 0
  len := 0
  flen := 0
  crc := Config.crc16Init
  i2cAddr := 0
  i2cCode := .idle
  i2cOpen := false
  i2cDir := false
  srchLd := 0
  srchLfd := 0
  ldf := false
  rom := Vector.replicate 8 0
  owiCrc8 := 0
  mem := []
  seq := .idle
  owiDrive := false
  i2cHeld := false
  params := Params.default
  resetLine := false
  host := []
  reads := []
  owiScript := []
  i2cScript := []
  draws := 0
  epoch := 0
  trace := []

end Sys2Proof.Machine
end

