-- ==== Sys2Proof/Machine/Ops.lean ====
section
/-! DEFINITION. The named operations: the buffer memory, the command cycle of R110, and hardware reset
(R281). There are no traps: an error ends the command with its result code (R250, R255). -/

namespace Sys2Proof.Machine

/-! ### Memory: RAW and FRAME as cells of the register space -/

/-- The first offset of RAW (R61). -/
def rawBase : Nat := 0x100

/-- The first offset of FRAME (R61). -/
def frameBase : Nat := 0x200

/-- The offset is a byte of RAW (R34). -/
def inRaw (off : Nat) : Bool := decide (rawBase ≤ off ∧ off < rawBase + Config.bufferSize)

/-- The offset is a byte of FRAME (R35). -/
def inFrame (off : Nat) : Bool := decide (frameBase ≤ off ∧ off < frameBase + Config.bufferSize)

/-- The offset is a byte of a buffer. -/
def inBuffer (off : Nat) : Bool := inRaw off || inFrame off

/-- The byte written last at an offset; none if nothing was written there since hardware reset. -/
def Memory.read (m : List Host.Cell) (a : Nat) : Option Byte :=
  match m with
  | [] => none
  | c :: m => if a = c.1 then some c.2 else Memory.read m a

/-- Write a byte, keeping the cells in rising order of offset. -/
def Memory.write (m : List Host.Cell) (a : Nat) (v : Byte) : List Host.Cell :=
  match m with
  | [] => [(a, v)]
  | c :: m =>
    if a < c.1 then (a, v) :: c :: m
    else if a = c.1 then (a, v) :: m
    else c :: Memory.write m a v

/-- The canonical form: offsets strictly rising, each of them a byte of RAW or FRAME. An unlisted offset has
no value of its own, so no listed value is redundant. -/
def Memory.wf (m : List Host.Cell) : Bool :=
  match m with
  | [] => true
  | c :: m => inBuffer c.1 && m.all (fun d => decide (c.1 < d.1)) && Memory.wf m

/-- The byte at a buffer offset: what was written last, or the free value it holds since hardware reset
(93 U1, log 5). -/
def State.bufferByte (s : State) (off : Nat) : Byte :=
  (Memory.read s.mem off).getD (Config.bufferByte s.epoch off)

/-- Write the byte at a buffer offset; an offset outside the buffers is no memory and nothing is written. -/
def State.setBufferByte (s : State) (off : Nat) (v : Byte) : State :=
  if inBuffer off then { s with mem := Memory.write s.mem off v } else s

/-- RAW[i] (R34). -/
def State.rawAt (s : State) (i : Nat) : Byte := s.bufferByte (rawBase + i)

/-- FRAME[i] (R35). -/
def State.frameAt (s : State) (i : Nat) : Byte := s.bufferByte (frameBase + i)

/-- RAW[i] <- v, for i in 0..255 (R34). -/
def State.setRaw (s : State) (i : Nat) (v : Byte) : State :=
  if i < Config.bufferSize then s.setBufferByte (rawBase + i) v else s

/-- FRAME[i] <- v, for i in 0..255 (R35). -/
def State.setFrame (s : State) (i : Nat) (v : Byte) : State :=
  if i < Config.bufferSize then s.setBufferByte (frameBase + i) v else s

/-- RAW[i ..] <- bytes, in index order (R69). -/
def State.storeRaw (s : State) (i : Nat) (bytes : List Byte) : State :=
  match bytes with
  | [] => s
  | b :: bytes => (s.setRaw i b).storeRaw (i + 1) bytes

/-- FRAME[i ..] <- bytes, in index order (R69). -/
def State.storeFrame (s : State) (i : Nat) (bytes : List Byte) : State :=
  match bytes with
  | [] => s
  | b :: bytes => (s.setFrame i b).storeFrame (i + 1) bytes

/-! ### The outputs the model records -/

/-- Add a bus event to the trace. -/
def State.emit (s : State) (e : BusEvent) : State := { s with trace := e :: s.trace }

/-! ### The command cycle (R110) -/

/-- STATUS.BUSY: 1 from acceptance to completion (R22). -/
def State.busy (s : State) : Bool :=
  match s.seq with
  | .idle => false
  | .run _ _ => true

/-- Acceptance of the word `w` by an idle sequencer: BUSY <- 1, seq <- RUN(w, first) (R110). A running
sequencer keeps its command (R111, R73). -/
def State.begin (s : State) (w : Byte) : State :=
  match s.seq with
  | .idle => { s with seq := .run w .first }
  | .run _ _ => s

/-- Completion with a result code: RESULT <- r, seq <- IDLE, BUSY <- 0 (R110). `finish()` is `r = ok`;
`raise E` is `r = E`, with what the command wrote left as it is (R11, R255). -/
def State.complete (s : State) (r : Result) : State := { s with result := r, seq := .idle }

/-- How a step of a command's pseudocode ends: at another progress point, or by completion (R36, R110). -/
inductive Next where
  | goto (p : Progress)
  | complete (r : Result)
  deriving DecidableEq, Repr

/-- A command's pseudocode: at each of its progress points, what the step does to the state and where it
goes. None: the step waits for an I2C phase to end (R172), or there is no such point in this command. -/
abbrev Body := Progress → State → Option (State × Next)

/-- `finish()` (R11). -/
def finish (s : State) : State × Next := (s, .complete .ok)

/-- `raise E` (R11). -/
def raise (e : Result) (s : State) : State × Next := (s, .complete e)

/-- The next host action lands at this progress point of the running command (R70, log 1). -/
def State.hostDue (s : State) : Bool :=
  match s.host with
  | [] => false
  | e :: _ => e.after == some 0

/-- The sequencer passes one progress point: the next host action comes one point nearer (log 1). -/
def State.passPoint (s : State) : State :=
  match s.host with
  | [] => s
  | e :: rest =>
    match e.after with
    | some (n + 1) => { s with host := { e with after := some n } :: rest }
    | some 0 => s
    | none => s

/-- No host action lands while the command at hand runs: there is none to come, or the host waits for
BUSY = 0 before the next one (R98, R285). -/
def State.undisturbed (s : State) : Bool :=
  match s.host with
  | [] => true
  | e :: _ => e.after == none

/-- The I2C environment does not end the phase yet: its answer "not ready" is used up (R172, log 3). -/
def State.waitPoint (s : State) : State :=
  match s.i2cScript with
  | _ :: rest => { s with i2cScript := rest }
  | [] => { s with draws := s.draws + 1 }

/-- Run a command for at most `n` progress points: until it completes, waits, or a host action is due. -/
def runBody (body : Body) : Nat → State → State
  | 0, s => s
  | n + 1, s =>
    match s.seq with
    | .idle => s
    | .run c p =>
      if s.hostDue then s
      else
        match body p s.passPoint with
        | none => s.passPoint.waitPoint
        | some (s', .goto p') => runBody body n { s' with seq := .run c p' }
        | some (s', .complete r) => s'.complete r

/-- Run the command with word `w`: an idle sequencer accepts it first, a running one goes on (R110, log 8). -/
def runCommand (w : Byte) (body : Body) (s : State) : Host.Outcome State Fault Refusal :=
  .next (runBody body Config.burst (s.begin w))

/-! ### Hardware reset (R281) -/

/-- Hardware reset: every register at its reset value, the sequencer IDLE with the running command abandoned,
the lines released with no stop condition, RAW and FRAME holding any value. The parameters and the world outside are as they were. -/
def State.hardwareReset (s : State) : State :=
  { State.reset with
    params := s.params
    resetLine := s.resetLine
    host := s.host
    reads := s.reads
    owiScript := s.owiScript
    i2cScript := s.i2cScript
    draws := s.draws
    epoch := s.epoch + 1
    trace := .hwReset :: s.trace }

end Sys2Proof.Machine
end

