-- ==== Sys2Proof/Machine/Operands.lean ====
section
/-! DEFINITION. The operand forms of the commands: implied registers, spans of RAW, single bits (R93, R25,
R161, R221). -/

namespace Sys2Proof.Machine

/-- `v[i] <- b` on a byte (R10). -/
def setBit (v : Byte) (i : Nat) (b : Bool) : Byte :=
  if b then v ||| ((1 : Byte) <<< i) else v &&& ~~~((1 : Byte) <<< i)

/-- `zext_8(b)` of a bit (R10, R24). -/
def zextBit (b : Bool) : Byte := if b then 1 else 0

/-- LEN as a count, 0..255 (R25). -/
def State.lenNat (s : State) : Nat := s.len.toNat

/-- RAW[i .. i+n-1], in index order (R69). -/
def State.rawFrom (s : State) (i n : Nat) : List Byte :=
  match n with
  | 0 => []
  | n + 1 => s.rawAt i :: s.rawFrom (i + 1) n

/-- RAW[0..n-1] (R69). -/
def State.rawSpan (s : State) (n : Nat) : List Byte := s.rawFrom 0 n

/-- FRAME[i .. i+n-1], in index order (R69). -/
def State.frameFrom (s : State) (i n : Nat) : List Byte :=
  match n with
  | 0 => []
  | n + 1 => s.frameAt i :: s.frameFrom (i + 1) n

/-- FRAME[0..n-1] (R69). -/
def State.frameSpan (s : State) (n : Nat) : List Byte := s.frameFrom 0 n

/-- SLA(dir) = {ADDR[6:0], dir}: the address in bits 7:1, the direction in bit 0, 1 for read (R161). -/
def State.sla (s : State) (dir : Bool) : Byte := s.i2cAddr ++ BitVec.ofBool dir

/-- Byte k of a ROM address (R67). -/
def romByteOf (rom : Vector Byte 8) (k : Nat) : Byte := (rom[k]?).getD 0

/-- RomBit(n) of a ROM address, for bit numbers n in 1..64 (R221). -/
def romBitOf (rom : Vector Byte 8) (n : Nat) : Bool := (romByteOf rom ((n - 1) / 8)).getLsbD ((n - 1) % 8)

/-- A ROM address with bit number n set to d, the other bits unchanged (R221). -/
def setRomBitOf (rom : Vector Byte 8) (n : Nat) (d : Bool) : Vector Byte 8 :=
  rom.setIfInBounds ((n - 1) / 8) (setBit (romByteOf rom ((n - 1) / 8)) ((n - 1) % 8) d)

/-- ROMk (R32, R67). -/
def State.romByte (s : State) (k : Nat) : Byte := romByteOf s.rom k

/-- RomBit(n) (R221). -/
def State.romBit (s : State) (n : Nat) : Bool := romBitOf s.rom n

/-- SetRomBit(n, d) (R221). -/
def State.setRomBit (s : State) (n : Nat) (d : Bool) : State := { s with rom := setRomBitOf s.rom n d }

end Sys2Proof.Machine
end

