-- ==== Sys2Proof/Machine/Flags.lean ====
section
/-! DEFINITION. The status registers as the host sees them: RESULT and its ERR (R23, R251, R252), STATUS
(R22), I2C_STAT (R29), SRCH_FLAGS (R31), I2C_ADDR (R28). -/

namespace Sys2Proof.Machine

/-- The number of a result code (R251). -/
def Result.code (r : Result) : Byte :=
  match r with
  | .ok => 0x00
  | .eIllegal => 0x01
  | .eLen => 0x02
  | .eCobsEmpty => 0x10
  | .eCobsTrunc => 0x11
  | .eCobsOvf => 0x12
  | .eI2cStart => 0x20
  | .eI2cNack => 0x21
  | .eI2cState => 0x22
  | .eOwiNoPres => 0x30
  | .eOwiNoDev => 0x31
  | .eOwiCrc => 0x32
  | .eOwiFamily => 0x33
  | .rOwiLast => 0x34

/-- The number of a bus status (R29). -/
def I2cCode.code (c : I2cCode) : BitVec 3 :=
  match c with
  | .idle => 0
  | .started => 1
  | .repStarted => 2
  | .addrAcked => 3
  | .dataAcked => 4
  | .noAck => 5
  | .startFailed => 6

/-- RESULT (R23). -/
def State.resultByte (s : State) : Byte := s.result.code

/-- STATUS.ERR = bool(RESULT != 0x00) (R252). -/
def State.err (s : State) : Bool := s.resultByte != 0x00

/-- STATUS: BUSY bit 0, ERR bit 1, CMD_OVR bit 2, ACC_ERR bit 3, bits 7:4 read 0 (R22). -/
def State.statusByte (s : State) : Byte :=
  (0 : BitVec 4) ++ BitVec.ofBool s.accErr ++ BitVec.ofBool s.cmdOvr ++ BitVec.ofBool s.err ++ BitVec.ofBool s.busy

/-- A host write of `v` to STATUS: the W1C bits 2 and 3 written as 1 are cleared, the others stay (R22). -/
def State.clearStatus (s : State) (v : Byte) : State :=
  { s with cmdOvr := s.cmdOvr && !v.getLsbD 2, accErr := s.accErr && !v.getLsbD 3 }

/-- I2C_STAT: CODE bits 2:0, bit 3 reads 0, OPEN bit 4, DIR bit 5, bits 7:6 read 0 (R29). -/
def State.i2cStatByte (s : State) : Byte :=
  (0 : BitVec 2) ++ BitVec.ofBool s.i2cDir ++ BitVec.ofBool s.i2cOpen ++ (0 : BitVec 1) ++ s.i2cCode.code

/-- I2C_ADDR: ADDR bits 6:0, bit 7 reads 0 (R28). -/
def State.i2cAddrByte (s : State) : Byte := (0 : BitVec 1) ++ s.i2cAddr

/-- SRCH_FLAGS: LDF bit 0, bits 7:1 read 0 (R31). -/
def State.srchFlagsByte (s : State) : Byte := zextBit s.ldf

/-- CRC_LO = CRC[7:0] (R27, R66). -/
def State.crcLo (s : State) : Byte := s.crc.setWidth 8

/-- CRC_HI = CRC[15:8] (R27, R66). -/
def State.crcHi (s : State) : Byte := (s.crc >>> 8).setWidth 8

/-- A host write to CRC_LO: only that byte changes (R27). -/
def State.setCrcLo (s : State) (v : Byte) : State := { s with crc := s.crcHi ++ v }

/-- A host write to CRC_HI: only that byte changes (R27). -/
def State.setCrcHi (s : State) (v : Byte) : State := { s with crc := v ++ s.crcLo }

/-- A host write to I2C_ADDR: bit 7 is ignored (R28). -/
def State.setI2cAddr (s : State) (v : Byte) : State := { s with i2cAddr := v.setWidth 7 }

/-- ResetSearchState(): LD, LFD and LDF to their initial values; ROM and OWI_CRC8 stay (R223). -/
def State.resetSearch (s : State) : State := { s with srchLd := 0, srchLfd := 0, ldf := false }

end Sys2Proof.Machine
end

