-- ==== Sys2Proof/Machine/Bus.lean ====
section
/-! DEFINITION. The bus primitives and their environments: `OwiDriveLow`, `OwiRelease`, `OwiSample`, `Wait`
(R190, R191) with the slots built from them (R192 to R194), and the four I2C phases (R160). -/

namespace Sys2Proof.Machine

/-! ### The 1-Wire line -/

/-- `OwiSample()`: the level the environment chooses, from its script, or a free value (R190, 93 U10, log 2). -/
def State.sampleLine (s : State) : Bool × State :=
  match s.owiScript with
  | b :: rest => (b, { s with owiScript := rest })
  | [] => (Config.owiLevel s.draws, { s with draws := s.draws + 1 })

/-- `OwiDriveLow()` (R190). -/
def State.owiDriveLow (s : State) : State := { s.emit .owiLow with owiDrive := true }

/-- `OwiRelease()` (R190). -/
def State.owiRelease (s : State) : State := { s.emit .owiRelease with owiDrive := false }

/-- One line action; `got` is the last sample of the slot at hand. -/
def State.lineOp (s : State) (op : LineOp) (got : Bool) : Bool × State :=
  match op with
  | .low => (got, s.owiDriveLow)
  | .release => (got, s.owiRelease)
  | .wait us => (got, s.emit (.owiWait us))
  | .sample => (s.sampleLine.1, s.sampleLine.2.emit (.owiSample s.sampleLine.1))

/-- The reset pulse: low T_RSTL, released, sampled T_PDS later, held to T_RST_END (R192). -/
def resetPulse (p : Params) : List LineOp :=
  [.low, .wait p.tRstl, .release, .wait p.tPds, .sample, .wait (p.tRstEnd - p.tRstl - p.tPds)]

/-- The low time of a write slot: T_W1L for a 1, T_W0L for a 0 (R193). -/
def lowTime (p : Params) (b : Bool) : Nat := if b then p.tW1l else p.tW0l

/-- The write slot of bit `b` (R193). -/
def writeSlot (p : Params) (b : Bool) : List LineOp :=
  [.low, .wait (lowTime p b), .release, .wait (p.tSlot - lowTime p b)]

/-- The read slot (R194). -/
def readSlot (p : Params) : List LineOp :=
  [.low, .wait p.tRl, .release, .wait (p.tMsr - p.tRl), .sample, .wait (p.tSlot - p.tMsr)]

/-- Go on with a slot (or the reset pulse) whose end is handled by `job`. -/
def enterSlot (ops : List LineOp) (job : OwiJob) (s : State) : State × Next := (s, .goto (.slot ops false job))

/-- Go on with the reset pulse (R192). -/
def enterPulse (job : OwiJob) (s : State) : State × Next := enterSlot (resetPulse s.params) job s

/-- Go on with the write slot of bit `b` (R193). -/
def enterWrite (b : Bool) (job : OwiJob) (s : State) : State × Next := enterSlot (writeSlot s.params b) job s

/-- Go on with a read slot (R194). -/
def enterRead (job : OwiJob) (s : State) : State × Next := enterSlot (readSlot s.params) job s

/-- The body of a 1-Wire command: `start` at its first step, one line action at a time in a slot, and
`back` where a slot ends, with its sample. -/
def owiBody (start : State → State × Next) (back : OwiJob → Bool → State → Option (State × Next)) : Body
  | .first, s => some (start s)
  | .slot (op :: todo) got job, s => some ((s.lineOp op got).2, .goto (.slot todo (s.lineOp op got).1 job))
  | .slot [] got job, s => back job got s
  | _, _ => none

/-! ### The I2C bus -/

/-- The environment's answer to the phase at hand, from its script, or free values; none while it does not
end the phase (R160, R172, 93 U8, U9, log 3). -/
def State.nextReply (s : State) : Option (I2cReply × State) :=
  match s.i2cScript with
  | r :: rest => if r.ready then some (r, { s with i2cScript := rest }) else none
  | [] =>
    if Config.i2cReady s.draws then
      some (⟨true, Config.i2cOk s.draws, Config.i2cByte s.draws⟩, { s with draws := s.draws + 1 })
    else none

/-- The next `n` answers, when the environment ends `n` phases one after the other. -/
def State.replies (s : State) : Nat → Option (List I2cReply × State)
  | 0 => some ([], s)
  | n + 1 => do
    let (r, s1) ← s.nextReply
    let (rs, s2) ← s1.replies n
    pure (r :: rs, s2)

/-- `I2cStart()`: a start, or a repeated start if OPEN = 1; ok is the environment's choice (R160). -/
def State.i2cStartPhase (s : State) : Option (Bool × State) := do
  let (r, s1) ← s.nextReply
  pure (r.ok, { s1.emit (.i2cStart s.i2cOpen r.ok) with i2cHeld := true })

/-- `I2cSendByte(b)`: ack is the environment's choice (R160). -/
def State.i2cSendPhase (s : State) (b : Byte) : Option (Bool × State) := do
  let (r, s1) ← s.nextReply
  pure (r.ok, s1.emit (.i2cSend b r.ok))

/-- `I2cRecvByte(a)`: the byte is the environment's choice (R160). -/
def State.i2cRecvPhase (s : State) (a : Bool) : Option (Byte × State) := do
  let (r, s1) ← s.nextReply
  pure (r.byte, s1.emit (.i2cRecv r.byte a))

/-- `I2cStop()`: releases the bus and always succeeds (R160). -/
def State.i2cStopPhase (s : State) : Option State := do
  let (_, s1) ← s.nextReply
  pure { s1.emit .i2cStop with i2cHeld := false }

/-- The status after a received byte: DATA_ACKED with acknowledge, NOACK without (R162). -/
def recvCode (a : Bool) : I2cCode := if a then .dataAcked else .noAck

end Sys2Proof.Machine
end

