-- ==== Sys2Proof/Machine/Cobs.lean ====
section
/-! DEFINITION. The COBS framing unit (42_cobs). -/

namespace Sys2Proof.Machine

/-- The start of `cobs_encode`: code_idx = 0, w = 1, code = 1 (R140). -/
def encInit : EncVars := { out := [0x00], codeIdx := 0, code := 1 }

/-- One input byte of `cobs_encode` (R140). -/
def encStep (v : EncVars) (b : Byte) : EncVars :=
  if b = 0x00 then
    { out := v.out.set v.codeIdx v.code ++ [0x00], codeIdx := v.out.length, code := 1 }
  else { v with out := v.out ++ [b], code := v.code + 1 }

/-- The end of `cobs_encode`: the final offset marker and the terminating zero (R140). -/
def encFinish (v : EncVars) : List Byte := v.out.set v.codeIdx v.code ++ [0x00]

/-- `cobs_encode(R, n)`: the frame; m is its length (R140). -/
def cobsEncode (bytes : List Byte) : List Byte := encFinish (bytes.foldl encStep encInit)

/-- `cobs.enc` (R141). -/
def cobsEncBody : Body
  | .first, s => if s.lenNat > Config.cobsMaxIn then some (raise .eLen s) else some (s, .goto (.encLoop 0 encInit))
  | .encLoop r v, s =>
    if r < s.lenNat then some (s, .goto (.encLoop (r + 1) (encStep v (s.rawAt r))))
    else some (finish { s.storeFrame 0 (encFinish v) with flen := BitVec.ofNat 8 (encFinish v).length })
  | _, _ => none

/-- `cobs.enc` (R141). -/
def execCobsEnc (s : State) : Host.Outcome State Fault Refusal := runCommand (encode .cobsEnc) cobsEncBody s

/-- What `cobs_decode` returns: the result code, the output and the frame length (R143). -/
structure Decoding where
  code : Result
  out : List Byte
  flen : Nat
  deriving DecidableEq, Repr

/-- What one pass of the loop of `cobs_decode` comes to. -/
inductive DecNext where
  | again (v : DecVars)
  | done (d : Decoding)
  deriving DecidableEq, Repr

/-- One pass of the loop of `cobs_decode`, on the byte `b` = F[i] (R143). -/
def decStep (b : Byte) (v : DecVars) : DecNext :=
  if b = 0x00 then
    if v.cnt = 0 then .done ⟨.ok, v.out, v.i + 1⟩ else .done ⟨.eCobsTrunc, v.out, v.i + 1⟩
  else if v.out.length = Config.cobsMaxIn then .done ⟨.eCobsOvf, v.out, 0⟩
  else if v.cnt = 0 then .again { i := v.i + 1, cnt := b - 1, out := v.out ++ [0x00] }
  else .again { i := v.i + 1, cnt := v.cnt - 1, out := v.out ++ [b] }

/-- The start of the loop of `cobs_decode`, for a first byte that is not zero (R143). -/
def decInit (b : Byte) : DecVars := { i := 1, cnt := b - 1, out := [] }

/-- `cobs_decode` from its loop on, for at most `n` passes; check 2 ends it by index 254 (R143). -/
def decLoop (F : Nat → Byte) : Nat → DecVars → Decoding
  | 0, v => ⟨.eCobsOvf, v.out, 0⟩
  | n + 1, v =>
    match decStep (F v.i) v with
    | .again v' => decLoop F n v'
    | .done d => d

/-- `cobs_decode(F)` over the 256 bytes F[0..255] (R143). -/
def cobsDecode (F : Nat → Byte) : Decoding :=
  if F 0 = 0x00 then ⟨.eCobsEmpty, [], 0⟩ else decLoop F Config.bufferSize (decInit (F 0))

/-- What `cobs.dec` writes: RAW[0..|out|-1], LEN and FLEN; then it ends with the code (R144). -/
def storeDecoding (d : Decoding) (s : State) : State × Next :=
  ({ s.storeRaw 0 d.out with len := BitVec.ofNat 8 d.out.length, flen := BitVec.ofNat 8 d.flen }, .complete d.code)

/-- `cobs.dec` (R144). -/
def cobsDecBody : Body
  | .first, s =>
    if s.frameAt 0 = 0x00 then some (storeDecoding ⟨.eCobsEmpty, [], 0⟩ s)
    else some (s, .goto (.decLoop (decInit (s.frameAt 0))))
  | .decLoop v, s =>
    match decStep (s.frameAt v.i) v with
    | .again v' => some (s, .goto (.decLoop v'))
    | .done d => some (storeDecoding d s)
  | _, _ => none

/-- `cobs.dec` (R144). -/
def execCobsDec (s : State) : Host.Outcome State Fault Refusal := runCommand (encode .cobsDec) cobsDecBody s

end Sys2Proof.Machine
end

