-- ==== Sys2Proof/Machine/Control.lean ====
section
/-! DEFINITION. The control commands and the illegal command (40_control). -/

namespace Sys2Proof.Machine

/-- `nop`: `finish()` (R112). -/
def nopBody : Body
  | .first, s => some (finish s)
  | _, _ => none

/-- `nop` (R112). -/
def execNop (s : State) : Host.Outcome State Fault Refusal := runCommand (encode .nop) nopBody s

/-- What `sreset` clears, after the stop: every register and flag, not RAW and FRAME (R113). -/
def State.softClear (s : State) : State :=
  { s with
    owiDrive := false
    data := 0x00
    len := 0x00
    flen := 0x00
    crc := 0x0000
    i2cAddr := 0
    i2cCode := .idle
    i2cOpen := false
    i2cDir := false
    srchLd := 0
    srchLfd := 0
    ldf := false
    owiCrc8 := 0x00
    rom := Vector.replicate 8 0x00
    cmdOvr := false
    accErr := false }

/-- `sreset`: a stop if a transaction is open, then everything cleared, then `finish()` (R113). -/
def sresetBody : Body
  | .first, s => if s.i2cOpen then some (s, .goto .i2cStop) else some (s.softClear, .goto .last)
  | .i2cStop, s => do
    let s1 ← s.i2cStopPhase
    pure (s1.softClear, .goto .last)
  | .last, s => some (finish s)
  | _, _ => none

/-- `sreset` (R113). -/
def execSreset (s : State) : Host.Outcome State Fault Refusal := runCommand (encode .sreset) sresetBody s

/-- The illegal command: `raise E_ILLEGAL()` (R94, R114). -/
def illegalBody : Body
  | .first, s => some (raise .eIllegal s)
  | _, _ => none

/-- The illegal command with the word `w` (R94, R114). -/
def execIllegal (w : Byte) (s : State) : Host.Outcome State Fault Refusal := runCommand w illegalBody s

end Sys2Proof.Machine
end

