-- ==== Sys2Proof/Machine/Crc.lean ====
section
/-! DEFINITION. The CRC-16/XMODEM unit (41_crc16). -/

namespace Sys2Proof.Machine

/-- One of the eight shifts of `crc16_update` (R120). -/
def crc16Shift (c : Half) : Half :=
  if c.getLsbD 15 then (c <<< 1) ^^^ Config.crc16Poly else c <<< 1

/-- `crc16_update(c, b)`: the byte enters at the top, then eight shifts (R120). -/
def crc16Update (c : Half) (b : Byte) : Half :=
  Nat.repeat crc16Shift 8 (c ^^^ (b.setWidth 16 <<< 8))

/-- The fold of `crc16_update` over a byte sequence from a register value (R121, R124). -/
def crc16From (c : Half) (bytes : List Byte) : Half := bytes.foldl crc16Update c

/-- `crc16(s)`: the span checksum (R121). -/
def crc16 (bytes : List Byte) : Half := crc16From Config.crc16Init bytes

/-- `crc.clr` (R122). -/
def crcClrBody : Body
  | .first, s => some (finish { s with crc := 0x0000 })
  | _, _ => none

/-- `crc.clr` (R122). -/
def execCrcClr (s : State) : Host.Outcome State Fault Refusal := runCommand (encode .crcClr) crcClrBody s

/-- `crc.byte` (R123). -/
def crcByteBody : Body
  | .first, s => some (finish { s with crc := crc16Update s.crc s.data })
  | _, _ => none

/-- `crc.byte` (R123). -/
def execCrcByte (s : State) : Host.Outcome State Fault Refusal := runCommand (encode .crcByte) crcByteBody s

/-- `crc.buf` (R124). -/
def crcBufBody : Body
  | .first, s => some (s, .goto (.crcLoop 0 s.crc))
  | .crcLoop i c, s =>
    if i < s.lenNat then some (s, .goto (.crcLoop (i + 1) (crc16Update c (s.rawAt i))))
    else some (finish { s with crc := c })
  | _, _ => none

/-- `crc.buf` (R124). -/
def execCrcBuf (s : State) : Host.Outcome State Fault Refusal := runCommand (encode .crcBuf) crcBufBody s

end Sys2Proof.Machine
end

