-- ==== Sys2Proof/Machine/I2c.lean ====
section
/-! DEFINITION. The two-wire (I2C) bus master (43_i2c). -/

namespace Sys2Proof.Machine

/-- The end of a failure path: the stop, OPEN <- 0, `raise e` (R163, R164, R167, R171). -/
def i2cFailPoint (e : Result) (s : State) : Option (State × Next) := do
  let s1 ← s.i2cStopPhase
  pure (raise e { s1 with i2cOpen := false })

/-- The end of a transaction: the stop, OPEN <- 0, `finish()` (R169 to R171). -/
def i2cClosePoint (s : State) : Option (State × Next) := do
  let s1 ← s.i2cStopPhase
  pure (finish { s1 with i2cOpen := false })

/-- StartPhase(dir), from its start condition (R164). -/
def startPoint (dir : Bool) (s : State) : Option (State × Next) := do
  let (ok, s1) ← s.i2cStartPhase
  if ok then
    pure ({ s1 with i2cCode := if s.i2cOpen then .repStarted else .started, i2cOpen := true, i2cDir := dir },
      .goto .i2cAddr)
  else pure ({ s1 with i2cCode := .startFailed }, .goto (.i2cFail .eI2cStart))

/-- StartPhase(dir), at its address byte; a command goes on with `after` (R164). -/
def addrPoint (dir : Bool) (after : State → State × Next) (s : State) : Option (State × Next) := do
  let (ack, s1) ← s.i2cSendPhase (s.sla dir)
  if ack then pure (after { s1 with i2cCode := .addrAcked })
  else pure ({ s1 with i2cCode := .noAck }, .goto (.i2cFail .eI2cNack))

/-- A data byte sent; acknowledged, a command goes on with `after` (R167, R171). -/
def sendPoint (b : Byte) (after : State → State × Next) (s : State) : Option (State × Next) := do
  let (ack, s1) ← s.i2cSendPhase b
  if ack then pure (after { s1 with i2cCode := .dataAcked })
  else pure ({ s1 with i2cCode := .noAck }, .goto (.i2cFail .eI2cNack))

/-- `i2c.startw`: `StartPhase(0); finish()` (R165). -/
def i2cStartwBody : Body
  | .first, s => some (s, .goto .i2cStart)
  | .i2cStart, s => startPoint false s
  | .i2cAddr, s => addrPoint false finish s
  | .i2cFail e, s => i2cFailPoint e s
  | _, _ => none

/-- `i2c.startw` (R165). -/
def execI2cStartw (s : State) : Host.Outcome State Fault Refusal := runCommand (encode .i2cStartw) i2cStartwBody s

/-- `i2c.startr`: `StartPhase(1); finish()` (R166). -/
def i2cStartrBody : Body
  | .first, s => some (s, .goto .i2cStart)
  | .i2cStart, s => startPoint true s
  | .i2cAddr, s => addrPoint true finish s
  | .i2cFail e, s => i2cFailPoint e s
  | _, _ => none

/-- `i2c.startr` (R166). -/
def execI2cStartr (s : State) : Host.Outcome State Fault Refusal := runCommand (encode .i2cStartr) i2cStartrBody s

/-- `i2c.write` (R167). -/
def i2cWriteBody : Body
  | .first, s => if !s.i2cOpen || s.i2cDir then some (raise .eI2cState s) else some (s, .goto (.i2cSend 0))
  | .i2cSend _, s => sendPoint s.data finish s
  | .i2cFail e, s => i2cFailPoint e s
  | _, _ => none

/-- `i2c.write` (R167). -/
def execI2cWrite (s : State) : Host.Outcome State Fault Refusal := runCommand (encode .i2cWrite) i2cWriteBody s

/-- `i2c.read A`: `a` is A (R168). -/
def i2cReadBody (a : Bool) : Body
  | .first, s => if !s.i2cOpen || !s.i2cDir then some (raise .eI2cState s) else some (s, .goto (.i2cRecv 0))
  | .i2cRecv _, s => do
    let (b, s1) ← s.i2cRecvPhase a
    pure (finish { s1 with data := b, i2cCode := recvCode a })
  | _, _ => none

/-- `i2c.read A` (R168). -/
def execI2cRead (a : Bool) (s : State) : Host.Outcome State Fault Refusal :=
  runCommand (encode (.i2cRead a)) (i2cReadBody a) s

/-- `i2c.stop` (R169). -/
def i2cStopBody : Body
  | .first, s => if s.i2cOpen then some (s, .goto .i2cStop) else some (finish s)
  | .i2cStop, s => i2cClosePoint s
  | _, _ => none

/-- `i2c.stop` (R169). -/
def execI2cStop (s : State) : Host.Outcome State Fault Refusal := runCommand (encode .i2cStop) i2cStopBody s

/-- All but the last of LEN bytes are acknowledged (R170). -/
def State.readnAck (s : State) (k : Nat) : Bool := decide (k + 1 < s.lenNat)

/-- `i2c.readn` (R170). -/
def i2cReadnBody : Body
  | .first, s => if s.len = 0 then some (raise .eLen s) else some (s, .goto .i2cStart)
  | .i2cStart, s => startPoint true s
  | .i2cAddr, s => addrPoint true (fun s1 => (s1, .goto (.i2cRecv 0))) s
  | .i2cRecv k, s => do
    let (b, s1) ← s.i2cRecvPhase (s.readnAck k)
    pure ({ s1.setRaw k b with i2cCode := recvCode (s.readnAck k) },
      .goto (if k + 1 < s.lenNat then .i2cRecv (k + 1) else .i2cStop))
  | .i2cStop, s => i2cClosePoint s
  | .i2cFail e, s => i2cFailPoint e s
  | _, _ => none

/-- `i2c.readn` (R170). -/
def execI2cReadn (s : State) : Host.Outcome State Fault Refusal := runCommand (encode .i2cReadn) i2cReadnBody s

/-- The loop of `i2c.writen` from index `k`: the next byte, or the stop after the last (R171). -/
def writenNext (k : Nat) (s : State) : State × Next :=
  (s, .goto (if k < s.lenNat then .i2cSend k else .i2cStop))

/-- `i2c.writen` (R171). -/
def i2cWritenBody : Body
  | .first, s => some (s, .goto .i2cStart)
  | .i2cStart, s => startPoint false s
  | .i2cAddr, s => addrPoint false (writenNext 0) s
  | .i2cSend k, s => sendPoint (s.rawAt k) (writenNext (k + 1)) s
  | .i2cStop, s => i2cClosePoint s
  | .i2cFail e, s => i2cFailPoint e s
  | _, _ => none

/-- `i2c.writen` (R171). -/
def execI2cWriten (s : State) : Host.Outcome State Fault Refusal := runCommand (encode .i2cWriten) i2cWritenBody s

end Sys2Proof.Machine
end

