-- ==== Sys2Proof/Machine/Owi.lean ====
section
/-! DEFINITION. The single-wire bit timer and reset/presence detector (44_owi_bus). -/

namespace Sys2Proof.Machine

/-- `owi.reset`, at the end of the pulse: sample 0 is a device, 1 is E_OWI_NOPRES (R196). -/
def owiResetBack (job : OwiJob) (got : Bool) (s : State) : Option (State × Next) :=
  match job with
  | .pulse => some (s, .complete (if got then .eOwiNoPres else .ok))
  | _ => none

/-- `owi.reset` (R196). -/
def execOwiReset (s : State) : Host.Outcome State Fault Refusal :=
  runCommand (encode .owiReset) (owiBody (enterPulse .pulse) owiResetBack) s

/-- `owi.wbit`, at the end of its slot (R197). -/
def owiWbitBack (job : OwiJob) (_got : Bool) (s : State) : Option (State × Next) :=
  match job with
  | .wbit => some (finish s)
  | _ => none

/-- `owi.wbit`, at its start: the write slot of DATA[0] (R197). -/
def owiWbitStart (s : State) : State × Next := enterWrite (s.data.getLsbD 0) .wbit s

/-- `owi.wbit` (R197). -/
def execOwiWbit (s : State) : Host.Outcome State Fault Refusal :=
  runCommand (encode .owiWbit) (owiBody owiWbitStart owiWbitBack) s

/-- `owi.rbit`, at the end of its slot: DATA <- zext_8(bit) (R198). -/
def owiRbitBack (job : OwiJob) (got : Bool) (s : State) : Option (State × Next) :=
  match job with
  | .rbit => some (finish { s with data := zextBit got })
  | _ => none

/-- `owi.rbit` (R198). -/
def execOwiRbit (s : State) : Host.Outcome State Fault Refusal :=
  runCommand (encode .owiRbit) (owiBody (enterRead .rbit) owiRbitBack) s

/-- `owi.wbyte`, at the end of the slot of bit `i`: the next bit, least significant first (R195, R199). -/
def owiWbyteBack (job : OwiJob) (_got : Bool) (s : State) : Option (State × Next) :=
  match job with
  | .wbyte i =>
    some (if i < 7 then enterWrite (s.data.getLsbD (i + 1)) (.wbyte (i + 1)) s else finish s)
  | _ => none

/-- `owi.wbyte`, at its start (R195, R199). -/
def owiWbyteStart (s : State) : State × Next := enterWrite (s.data.getLsbD 0) (.wbyte 0) s

/-- `owi.wbyte` (R199). -/
def execOwiWbyte (s : State) : Host.Outcome State Fault Refusal :=
  runCommand (encode .owiWbyte) (owiBody owiWbyteStart owiWbyteBack) s

/-- `owi.rbyte`, at the end of the slot of bit `i`: v[i] <- sample; after bit 7, DATA <- v (R195, R200). -/
def owiRbyteBack (job : OwiJob) (got : Bool) (s : State) : Option (State × Next) :=
  match job with
  | .rbyte i v =>
    some (if i < 7 then enterRead (.rbyte (i + 1) (setBit v i got)) s
      else finish { s with data := setBit v i got })
  | _ => none

/-- `owi.rbyte` (R200). -/
def execOwiRbyte (s : State) : Host.Outcome State Fault Refusal :=
  runCommand (encode .owiRbyte) (owiBody (enterRead (.rbyte 0 0x00)) owiRbyteBack) s

end Sys2Proof.Machine
end

