-- ==== Sys2Proof/Machine/Search.lean ====
section
/-! DEFINITION. The single-wire discovery engine with CRC-8 validation (45_owi_search). -/

namespace Sys2Proof.Machine

/-- One of the eight shifts of `crc8_update` (R222). -/
def crc8Shift (c : Byte) : Byte :=
  if c.getLsbD 0 then (c >>> 1) ^^^ Config.crc8Poly else c >>> 1

/-- `crc8_update(c, b)` (R222). -/
def crc8Update (c b : Byte) : Byte := Nat.repeat crc8Shift 8 (c ^^^ b)

/-- `crc8` of a byte sequence (R222). -/
def crc8 (bytes : List Byte) : Byte := bytes.foldl crc8Update Config.crc8Init

/-- A valid ROM address: crc8(ROM0..ROM6) = ROM7 and ROM0 is not 0x00 (R220). -/
def romValid (rom : Vector Byte 8) : Bool :=
  crc8 (rom.toList.take 7) == romByteOf rom 7 && romByteOf rom 0 != 0x00

/-- The direction at bit number `n`: forced by unequal bits; at a discrepancy replayed below SRCH_LD, 1 at
it, 0 beyond it (R224, R225). `ld` is SRCH_LD, `rom` what ROM holds. -/
def searchDirection (rom : Vector Byte 8) (ld n : Nat) (id cmp : Bool) : Bool :=
  if id != cmp then id
  else if n < ld then romBitOf rom n
  else decide (n = ld)

/-- Direction 0 is taken at a discrepancy: the position becomes `last_zero` (R224, R225, 90 C1). -/
def zeroTaken (id cmp dir : Bool) : Bool := id == cmp && !dir

/-- SRCH_LFD <- n, when the position is a new `last_zero` within the first 8 bits (R224). -/
def State.noteFamily (s : State) (n : Nat) (taken : Bool) : State :=
  if taken && decide (n ≤ 8) then { s with srchLfd := BitVec.ofNat 8 n } else s

/-- A failed search: the search state is reset, then the result raised (R227). -/
def searchFail (e : Result) (s : State) : State × Next := raise e s.resetSearch

/-- The start of Search(): R_OWI_LAST after the last device, else the reset pulse (R224). -/
def searchStart (s : State) : State × Next :=
  if s.ldf then searchFail .rOwiLast s else enterPulse .searchReset s

/-- Search(), after the reset pulse: no presence fails, else SEARCH_CMD is written (R224). -/
def searchPresence (got : Bool) (s : State) : State × Next :=
  if got then searchFail .eOwiNoPres s
  else enterWrite (s.params.searchCmd.getLsbD 0) (.searchCmd 0) s

/-- Search(), after bit `i` of SEARCH_CMD: its next bit, or the bit loop with OWI_CRC8 <- 0x00 (R224). -/
def searchCommand (i : Nat) (s : State) : State × Next :=
  if i < 7 then enterWrite (s.params.searchCmd.getLsbD (i + 1)) (.searchCmd (i + 1)) s
  else enterRead (.searchId 1 0 Config.crc8Init) { s with owiCrc8 := Config.crc8Init }

/-- Search(), after both bits of number `n` are read: both ones fail; else the direction is stored in the
ROM and written back (R224). -/
def searchChoose (n lastZero : Nat) (crc : Byte) (id cmp : Bool) (s : State) : State × Next :=
  if id && cmp then searchFail .eOwiNoDev s
  else
    let dir := searchDirection s.rom s.srchLd.toNat n id cmp
    let taken := zeroTaken id cmp dir
    enterWrite dir (.searchDir n (if taken then n else lastZero) crc)
      ((s.noteFamily n taken).setRomBit n dir)

/-- Search(), after the bit loop: a CRC that is not zero fails, then a zero family code fails; else the
found address is reported and LD and LDF are set (R224). -/
def searchEnd (lastZero : Nat) (crc : Byte) (s : State) : State × Next :=
  if crc ≠ 0x00 then searchFail .eOwiCrc s
  else if s.romByte 0 = 0x00 then searchFail .eOwiFamily s
  else finish { s with srchLd := BitVec.ofNat 8 lastZero, ldf := decide (lastZero = 0) }

/-- Search(), on to the bit number after `n`, or to the end after 64 (R224). -/
def searchAdvance (n lastZero : Nat) (crc : Byte) (s : State) : State × Next :=
  if n < Config.romBits then enterRead (.searchId (n + 1) lastZero crc) s else searchEnd lastZero crc s

/-- Search(), after the direction of bit number `n` is written: after each whole byte the CRC-8 is updated and
shown in OWI_CRC8 (R224). -/
def searchWritten (n lastZero : Nat) (crc : Byte) (s : State) : State × Next :=
  if n % 8 = 0 then
    let crc' := crc8Update crc (s.romByte (n / 8 - 1))
    searchAdvance n lastZero crc' { s with owiCrc8 := crc' }
  else searchAdvance n lastZero crc s

/-- Search(), at the end of each of its slots (R224). -/
def searchBack (job : OwiJob) (got : Bool) (s : State) : Option (State × Next) :=
  match job with
  | .searchReset => some (searchPresence got s)
  | .searchCmd i => some (searchCommand i s)
  | .searchId n lastZero crc => some (enterRead (.searchCmp n lastZero crc got) s)
  | .searchCmp n lastZero crc id => some (searchChoose n lastZero crc id got s)
  | .searchDir n lastZero crc => some (searchWritten n lastZero crc s)
  | _ => none

/-- `owi.sfirst`, at its start: `ResetSearchState(); Search()` (R228). -/
def owiSfirstStart (s : State) : State × Next := searchStart s.resetSearch

/-- `owi.sfirst` (R228). -/
def execOwiSfirst (s : State) : Host.Outcome State Fault Refusal :=
  runCommand (encode .owiSfirst) (owiBody owiSfirstStart searchBack) s

/-- `owi.snext`: `Search()` (R229). -/
def execOwiSnext (s : State) : Host.Outcome State Fault Refusal :=
  runCommand (encode .owiSnext) (owiBody searchStart searchBack) s

end Sys2Proof.Machine
end

