-- ==== Sys2Proof/Machine/Dispatch.lean ====
section
/-! DEFINITION. The meaning of each command. -/

namespace Sys2Proof.Machine

def exec (i : Instr) (s : State) : Host.Outcome State Fault Refusal :=
  match i with
  | .nop => Sys2Proof.Machine.execNop s
  | .sreset => Sys2Proof.Machine.execSreset s
  | .crcClr => Sys2Proof.Machine.execCrcClr s
  | .crcByte => Sys2Proof.Machine.execCrcByte s
  | .crcBuf => Sys2Proof.Machine.execCrcBuf s
  | .cobsEnc => Sys2Proof.Machine.execCobsEnc s
  | .cobsDec => Sys2Proof.Machine.execCobsDec s
  | .i2cStartw => Sys2Proof.Machine.execI2cStartw s
  | .i2cStartr => Sys2Proof.Machine.execI2cStartr s
  | .i2cWrite => Sys2Proof.Machine.execI2cWrite s
  | .i2cRead ack => Sys2Proof.Machine.execI2cRead ack s
  | .i2cStop => Sys2Proof.Machine.execI2cStop s
  | .i2cReadn => Sys2Proof.Machine.execI2cReadn s
  | .i2cWriten => Sys2Proof.Machine.execI2cWriten s
  | .owiReset => Sys2Proof.Machine.execOwiReset s
  | .owiWbit => Sys2Proof.Machine.execOwiWbit s
  | .owiRbit => Sys2Proof.Machine.execOwiRbit s
  | .owiWbyte => Sys2Proof.Machine.execOwiWbyte s
  | .owiRbyte => Sys2Proof.Machine.execOwiRbyte s
  | .owiSfirst => Sys2Proof.Machine.execOwiSfirst s
  | .owiSnext => Sys2Proof.Machine.execOwiSnext s

end Sys2Proof.Machine
end

