-- ==== Sys2Proof/Machine/HostPort.lean ====
section
/-! DEFINITION. The host's side: the register space of R61, accesses to it while idle and while a command runs
(R64, R65, R72), commands reaching the sequencer (R110, R111), and the reset input (R281). -/

namespace Sys2Proof.Machine

/-- The offset of CMD (R61). -/
def offCmd : Nat := 0x000

/-- The offset of STATUS (R61). -/
def offStatus : Nat := 0x001

/-- The offset of RESULT (R61). -/
def offResult : Nat := 0x002

/-- The reserved offsets: 0x00E..0x00F, 0x018..0x0FF, 0x300..0x3FF (R64). -/
def reserved (off : Nat) : Bool :=
  decide ((0x00E ≤ off ∧ off ≤ 0x00F) ∨ (0x018 ≤ off ∧ off ≤ 0x0FF) ∨ 0x300 ≤ off)

/-- The byte an idle block holds at an offset: the map of R61. CMD and the reserved offsets read 0x00. -/
def State.peek (s : State) (off : Nat) : Byte :=
  match off with
  | 0x000 => 0x00
  | 0x001 => s.statusByte
  | 0x002 => s.resultByte
  | 0x003 => s.data
  | 0x004 => s.len
  | 0x005 => s.flen
  | 0x006 => s.crcLo
  | 0x007 => s.crcHi
  | 0x008 => s.i2cAddrByte
  | 0x009 => s.i2cStatByte
  | 0x00A => s.srchLd
  | 0x00B => s.srchLfd
  | 0x00C => s.srchFlagsByte
  | 0x00D => s.owiCrc8
  | 0x010 => s.romByte 0
  | 0x011 => s.romByte 1
  | 0x012 => s.romByte 2
  | 0x013 => s.romByte 3
  | 0x014 => s.romByte 4
  | 0x015 => s.romByte 5
  | 0x016 => s.romByte 6
  | 0x017 => s.romByte 7
  | off => if inBuffer off then s.bufferByte off else 0x00

/-- The offsets whose read is exact while a command runs: STATUS, RESULT and the reserved ones (R72, R64). -/
def exactWhileBusy (off : Nat) : Bool := off == offStatus || off == offResult || reserved off

/-- What a host read returns: the byte held, or, while a command runs, a free value where the spec gives
none (R72, 93 U2, log 4). -/
def State.readValue (s : State) (off : Nat) : Byte :=
  if s.busy && !exactWhileBusy off then Config.busyByte s.draws else s.peek off

/-- A host read of one byte: it changes no state of the block (R65); the value is noted in `reads`. -/
def State.hostRead (s : State) (off : Nat) : State :=
  { s with
    reads := (off, s.readValue off) :: s.reads
    draws := if s.busy && !exactWhileBusy off then s.draws + 1 else s.draws }

/-- A host write to an idle block, CMD and STATUS apart: the writable registers and the buffers take the
value, read-only registers and reserved offsets ignore it (R61, R64). -/
def State.poke (s : State) (off : Nat) (v : Byte) : State :=
  match off with
  | 0x003 => { s with data := v }
  | 0x004 => { s with len := v }
  | 0x006 => s.setCrcLo v
  | 0x007 => s.setCrcHi v
  | 0x008 => s.setI2cAddr v
  | off => s.setBufferByte off v

/-- A host write of one byte, CMD apart: STATUS at any time (R22); while a command runs any other write is
ignored and sets ACC_ERR, but a write to a reserved offset sets nothing (R72). -/
def State.hostWrite (s : State) (off : Nat) (v : Byte) : State :=
  if off = offStatus then s.clearStatus v
  else if reserved off then s
  else if s.busy then { s with accErr := true }
  else s.poke off v

/-- The sequencer runs the command with word `w` (R95, R110): accepted if it is idle, else gone on with. -/
def runWord (w : Byte) (s : State) : Host.Outcome State Fault Refusal :=
  match decode w with
  | .command i => exec i s
  | .illegalCommand w => execIllegal w s

/-- A host write to CMD: accepted and run by an idle sequencer (R110), else discarded with CMD_OVR <- 1
(R111). -/
def commandWrite (v : Byte) (s : State) : Host.Outcome State Fault Refusal :=
  if s.busy then .next { s with cmdOvr := true } else runWord v s

/-- A host access that the spec gives a meaning, or why it has none (R60, R62, 93 U3, U4). -/
def hostAccess (s : State) (width off : Nat) (access : State → Host.Outcome State Fault Refusal) :
    Host.Outcome State Fault Refusal :=
  if s.resetLine then .refused .accessInReset
  else if !accessWidthOk width then .refused .accessWidth
  else if !accessOffsetOk off then .fault .noSuchOffset
  else access s

/-- One host action (R97, R280). -/
def hostAction (a : HostAction) (s : State) : Host.Outcome State Fault Refusal :=
  match a with
  | .read width off => hostAccess s width off (fun s => .next (s.hostRead off))
  | .write width off v =>
    hostAccess s width off (fun s => if off = offCmd then commandWrite v s else .next (s.hostWrite off v))
  | .assertReset => .next { s.hardwareReset with resetLine := true }
  | .releaseReset => .next (if s.resetLine then { s.hardwareReset with resetLine := false } else s)

/-- The first host action to come is taken; an idle block with none to come waits (R283). -/
def hostTurn (s : State) : Host.Outcome State Fault Refusal :=
  match s.host with
  | [] => .next s
  | e :: rest => hostAction e.action { s with host := rest }

/-- The sequencer's turn or the host's: a running command goes on unless a host action is due or hardware
reset is asserted (R281); an idle block takes the next host action (R70). -/
def takeTurn (s : State) : Host.Outcome State Fault Refusal :=
  match s.seq with
  | .idle => hostTurn s
  | .run c _ => if s.hostDue || s.resetLine then hostTurn s else runWord c s

/-- A host write of `w` to CMD stands next, on a block that is idle and out of reset. -/
def State.offerCommand (s : State) (w : Byte) : State :=
  { s with seq := .idle, resetLine := false, host := ⟨none, .write 1 offCmd w⟩ :: s.host }

end Sys2Proof.Machine
end

