-- ==== Sys2Proof/Machine/Step.lean ====
section
/-! DEFINITION. One step of the machine, and placing a command where the next step takes it (log 1). -/

namespace Sys2Proof.Machine

/-- One step: the host's next action, or the running command's progress (R70, R110). -/
def step (s : State) : Host.Outcome State Fault Refusal := takeTurn s

/-- `s` with a host write of the word `w` to CMD as the next thing the block meets: the block fetches no
instructions (R39, R73), a command reaches it by such a write. -/
def State.withFetchWord (s : State) (nbits w : Nat) : State := s.offerCommand (BitVec.ofNat 8 (w % 2 ^ nbits))

end Sys2Proof.Machine
end

