-- ==== Sys2Proof/Machine/Devices.lean ====
section
/-! DEFINITION. The 1-Wire devices of R230: an environment for claims about a discovery session (R231) and for the
search vectors. The block itself does not depend on it: its samples are free (R190). -/

namespace Sys2Proof.Machine

/-- What a read slot samples when each active device sends 1 if its bit number `n` is `v`: the line is
wired-AND and pulled up, so it reads 1 when no active device sends 0 (R230). -/
def wiredAnd (active : List (Vector Byte 8)) (n : Nat) (v : Bool) : Bool :=
  active.all (fun rom => romBitOf rom n == v)

/-- The devices still active after direction `dir` is written at bit number `n` (R230). -/
def stillActive (active : List (Vector Byte 8)) (n : Nat) (dir : Bool) : List (Vector Byte 8) :=
  active.filter (fun rom => romBitOf rom n == dir)

/-- The samples of `k` bit numbers from `n` on: the bit, then its complement; the block answers with its
direction, by which devices drop out (R224, R230). -/
def searchSamples (rom : Vector Byte 8) (ld : Nat) : Nat → Nat → List (Vector Byte 8) → List Bool
  | 0, _, _ => []
  | k + 1, n, active =>
    wiredAnd active n true :: wiredAnd active n false ::
      searchSamples rom ld k (n + 1)
        (stillActive active n (searchDirection rom ld n (wiredAnd active n true) (wiredAnd active n false)))

/-- All samples of one search with the devices `devs` connected, for a block whose ROM holds `rom` and whose
SRCH_LD is `ld` when the bit loop starts: the presence sample is 0 iff there is a device (R230). -/
def searchScript (devs : List (Vector Byte 8)) (rom : Vector Byte 8) (ld : Nat) : List Bool :=
  devs.isEmpty :: searchSamples rom ld Config.romBits 1 devs

/-- One search call with the devices `devs` connected: `owi.sfirst` starts from SRCH_LD = 0 (R228). -/
def searchCall (devs : List (Vector Byte 8)) (first : Bool) (s : State) : Host.Outcome State Fault Refusal :=
  if first then execOwiSfirst { s with owiScript := searchScript devs s.rom 0 }
  else execOwiSnext { s with owiScript := searchScript devs s.rom s.srchLd.toNat }

/-- A session (R231): `n` search calls one after the other, the first of them `owi.sfirst` if `first`, with
RESULT and ROM after each call. It ends early if a call does not answer a next state. -/
def sessionFrom (devs : List (Vector Byte 8)) (first : Bool) : Nat → State → List (Result × Vector Byte 8)
  | 0, _ => []
  | n + 1, s =>
    match searchCall devs first s with
    | .next t => (t.result, t.rom) :: sessionFrom devs false n t
    | .fault _ => []
    | .refused _ => []

/-- `a` comes before `b` in lexicographic order of bit strings, 0 before 1, bit number 1 first: they agree
before some bit number at which `a` has 0 and `b` has 1 (R231). -/
def romBefore (a b : Vector Byte 8) : Prop :=
  ∃ n, 1 ≤ n ∧ n ≤ Config.romBits ∧ (∀ m, 1 ≤ m → m < n → romBitOf a m = romBitOf b m) ∧
    romBitOf a n = false ∧ romBitOf b n = true

end Sys2Proof.Machine
end

