-- ==== Sys2Proof/Machine/HostPrograms.lean ====
section
/-! DEFINITION. The host's program syntax and pseudo-instructions (R97, R98), as host actions to come. Each
action waits for BUSY = 0 first, which is the pseudo-instruction `wait` before it. -/

namespace Sys2Proof.Machine

/-- `w OFF, V` (R97), made once BUSY = 0. -/
def hostW (off : Nat) (v : Byte) : HostEvent := { after := none, action := .write 1 off v }

/-- `r OFF` (R97), made once BUSY = 0. -/
def hostR (off : Nat) : HostEvent := { after := none, action := .read 1 off }

/-- `do MNEMONIC` (R98): the CMD write; the wait after it is the next action's. -/
def hostDo (i : Instr) : HostEvent := hostW offCmd (encode i)

/-- `wbuf` at an offset of RAW or FRAME (R98). -/
def hostWbuf (off : Nat) (bytes : List Byte) : List HostEvent :=
  match bytes with
  | [] => []
  | b :: bytes => hostW off b :: hostWbuf (off + 1) bytes

/-- `crc.span` (R98). -/
def hostCrcSpan : List HostEvent := [hostDo .crcClr, hostDo .crcBuf]

/-- `i2c.probe` (R98). -/
def hostI2cProbe : List HostEvent := [hostW 0x004 0, hostDo .i2cWriten]

/-- The loop of `owi.discover` (R98), after a search: while RESULT = OK, read ROM0..ROM7 and search on. -/
def hostDiscoverNext (s : State) : List HostEvent :=
  if s.result = .ok then (List.range 8).map (fun k => hostR (0x010 + k)) ++ [hostDo .owiSnext] else []

/-- `owi.discover` (R98), to its first search; `hostDiscoverNext` gives the rest. -/
def hostDiscover : List HostEvent := [hostDo .owiSfirst]

end Sys2Proof.Machine
end

