-- ==== Sys2Proof/Safety.lean ====
section
/-! DEFINITION. What the claims are stated in: readiness for a command, what two states share, and the
invariants of the block. -/

namespace Sys2Proof.Machine

/-- The block can take a command and run it to its end with no host action landing meanwhile: it is idle
(R110), and the host waits for BUSY = 0 before its next action (R285). -/
def State.ready (s : State) : Prop := s.seq = .idle ∧ s.undisturbed = true

/-! ### What two states share (for frames) -/

/-- DATA, LEN, FLEN, CRC and I2C_ADDR are the same. -/
def sameOperands (s t : State) : Prop :=
  t.data = s.data ∧ t.len = s.len ∧ t.flen = s.flen ∧ t.crc = s.crc ∧ t.i2cAddr = s.i2cAddr

/-- I2C_STAT and the I2C lines are the same. -/
def sameI2c (s t : State) : Prop :=
  t.i2cCode = s.i2cCode ∧ t.i2cOpen = s.i2cOpen ∧ t.i2cDir = s.i2cDir ∧ t.i2cHeld = s.i2cHeld

/-- SRCH_LD, SRCH_LFD, SRCH_FLAGS, ROM0..ROM7 and OWI_CRC8 are the same. -/
def sameDiscovery (s t : State) : Prop :=
  t.srchLd = s.srchLd ∧ t.srchLfd = s.srchLfd ∧ t.ldf = s.ldf ∧ t.rom = s.rom ∧ t.owiCrc8 = s.owiCrc8

/-- The misuse flags CMD_OVR and ACC_ERR are the same. -/
def sameMisuse (s t : State) : Prop := t.cmdOvr = s.cmdOvr ∧ t.accErr = s.accErr

/-- The parameters, what the host has read, the reset input and the count of resets are the same. -/
def sameOutside (s t : State) : Prop :=
  t.params = s.params ∧ t.reads = s.reads ∧ t.resetLine = s.resetLine ∧ t.epoch = s.epoch

/-- Every byte of RAW and FRAME at an offset where `p` holds is the same. -/
def sameBytes (p : Nat → Prop) (s t : State) : Prop := ∀ off, p off → t.bufferByte off = s.bufferByte off

/-- Every byte of RAW and FRAME is the same. -/
def sameBuffers (s t : State) : Prop := sameBytes (fun _ => True) s t

/-- The next `n` samples of the 1-Wire line (R190). -/
def State.nextSamples (s : State) : Nat → List Bool × State
  | 0 => ([], s)
  | n + 1 => (s.sampleLine.1 :: (s.sampleLine.2.nextSamples n).1, (s.sampleLine.2.nextSamples n).2)

/-! ### A search, by the samples it will take -/

/-- Sample number `k` of the 1-Wire line from now on (R190). In a search sample 0 is the presence sample, and
2n - 1 and 2n are the two samples of bit number `n` (R192, R224). -/
def State.sampleAt (s : State) (k : Nat) : Bool :=
  match k with
  | 0 => s.sampleLine.1
  | k + 1 => s.sampleLine.2.sampleAt k

/-- Both samples of bit number `n` are 1: no device answers (R224). -/
def State.nobodyAnswers (s : State) (n : Nat) : Prop :=
  s.sampleAt (2 * n - 1) = true ∧ s.sampleAt (2 * n) = true

/-- Both samples of bit number `n` are 0: the devices disagree, a discrepancy (R224). -/
def State.devicesDisagree (s : State) (n : Nat) : Prop :=
  s.sampleAt (2 * n - 1) = false ∧ s.sampleAt (2 * n) = false

/-- A search that starts now and gets a presence aborts at bit number `n`: the first at which no device answers
(R224). -/
def State.abortsAt (s : State) (n : Nat) : Prop :=
  1 ≤ n ∧ n ≤ 64 ∧ s.nobodyAnswers n ∧ ∀ m, 1 ≤ m → m < n → ¬s.nobodyAnswers m

/-- Bits 1..k of `rom` are the directions a search that starts now with SRCH_LD = `ld` chooses: unequal samples
force the direction; at a discrepancy the old ROM bit is replayed below `ld`, 1 is taken at it and 0 beyond it
(R224). -/
def State.chose (s : State) (ld k : Nat) (rom : Vector Byte 8) : Prop :=
  ∀ n, 1 ≤ n → n ≤ k →
    (s.sampleAt (2 * n - 1) ≠ s.sampleAt (2 * n) → romBitOf rom n = s.sampleAt (2 * n - 1)) ∧
    (s.devicesDisagree n → n < ld → romBitOf rom n = romBitOf s.rom n) ∧
    (s.devicesDisagree n → n = ld → romBitOf rom n = true) ∧
    (s.devicesDisagree n → ld < n → romBitOf rom n = false)

/-- `z` is the highest bit number in 1..k at which `rom` has direction 0 at a discrepancy, or 0 if there is none
(R224, R226). -/
def State.lastZero (s : State) (rom : Vector Byte 8) (k z : Nat) : Prop :=
  (z = 0 ∨ (1 ≤ z ∧ z ≤ k ∧ s.devicesDisagree z ∧ romBitOf rom z = false)) ∧
  ∀ n, z < n → n ≤ k → ¬(s.devicesDisagree n ∧ romBitOf rom n = false)

/-- The points at which a command waits for an I2C phase to end (R172). -/
def awaitsPhase (i : Instr) (p : Progress) : Bool :=
  match i, p with
  | .sreset, .i2cStop => true
  | .i2cStartw, .i2cStart | .i2cStartw, .i2cAddr | .i2cStartw, .i2cFail _ => true
  | .i2cStartr, .i2cStart | .i2cStartr, .i2cAddr | .i2cStartr, .i2cFail _ => true
  | .i2cWrite, .i2cSend _ | .i2cWrite, .i2cFail _ => true
  | .i2cRead _, .i2cRecv _ => true
  | .i2cStop, .i2cStop => true
  | .i2cReadn, .i2cStart | .i2cReadn, .i2cAddr | .i2cReadn, .i2cRecv _ | .i2cReadn, .i2cStop
  | .i2cReadn, .i2cFail _ => true
  | .i2cWriten, .i2cStart | .i2cWriten, .i2cAddr | .i2cWriten, .i2cSend _ | .i2cWriten, .i2cStop
  | .i2cWriten, .i2cFail _ => true
  | _, _ => false

/-! ### The invariants -/

/-- The buffer memory has its canonical form. -/
def State.memoryOk (s : State) : Prop := Memory.wf s.mem = true

/-- The bit numbers a 1-Wire command holds are legal: 1..64 at hand, 0..64 for `last_zero` (R221, R224). -/
def OwiJob.legal (j : OwiJob) : Prop :=
  match j with
  | .pulse | .wbit | .rbit | .wbyte _ | .rbyte _ _ | .searchReset | .searchCmd _ => True
  | .searchId n lastZero _ | .searchCmp n lastZero _ _ | .searchDir n lastZero _ =>
    1 ≤ n ∧ n ≤ Config.romBits ∧ lastZero ≤ Config.romBits

/-- The sequencer's bit numbers are legal. -/
def Seq.legal (q : Seq) : Prop :=
  match q with
  | .run _ (.slot _ _ job) => job.legal
  | _ => True

/-- The discovery registers hold legal values: SRCH_LD 0..64, SRCH_LFD 0..8 (R31), and LDF = 1 only with
SRCH_LD = 0 (R226). -/
def State.discoveryOk (s : State) : Prop :=
  s.srchLd.toNat ≤ Config.romBits ∧ s.srchLfd.toNat ≤ 8 ∧ (s.ldf = true → s.srchLd = 0) ∧ s.seq.legal

/-- OWI_DRIVE after line actions (R190). -/
def driveAfter (drive : Bool) (ops : List LineOp) : Bool :=
  match ops with
  | [] => drive
  | .low :: ops => driveAfter true ops
  | .release :: ops => driveAfter false ops
  | .wait _ :: ops => driveAfter drive ops
  | .sample :: ops => driveAfter drive ops

/-- The 1-Wire line is released, except inside a slot or reset pulse, which ends with it released (R201). -/
def State.lineOk (s : State) : Prop :=
  match s.seq with
  | .run _ (.slot todo _ _) => driveAfter s.owiDrive todo = false
  | _ => s.owiDrive = false

/-- The I2C bus as its events leave it: free, in a transaction, or after a failed start with its stop to come
(R163). -/
inductive BusView where
  | free
  | opened
  | failed
  deriving DecidableEq, Repr

/-- One event on the I2C bus; none where R163 forbids the event: a start is a repeated start exactly inside a
transaction, bytes pass only inside one, and a stop ends a transaction or follows a failed start. -/
def busNext (v : BusView) (e : BusEvent) : Option BusView :=
  match v, e with
  | v, .owiLow | v, .owiRelease | v, .owiWait _ | v, .owiSample _ => some v
  | _, .hwReset => some .free
  | .free, .i2cStart false ok => some (if ok then .opened else .failed)
  | .opened, .i2cStart true ok => some (if ok then .opened else .failed)
  | .opened, .i2cSend _ _ | .opened, .i2cRecv _ _ => some .opened
  | .opened, .i2cStop | .failed, .i2cStop => some .free
  | _, _ => none

/-- The I2C bus after a trace, newest event first; none if an event was forbidden. -/
def busView (trace : List BusEvent) : Option BusView :=
  match trace with
  | [] => some .free
  | e :: older => (busView older).bind (fun v => busNext v e)

/-- The trace keeps the release invariant of R163, and OPEN and the lines agree with it: outside a failure
path the bus is in a transaction exactly while OPEN = 1; a byte or closing stop is pending only while
OPEN = 1; in a failure path exactly one stop is still to come. -/
def State.busOk (s : State) : Prop :=
  match s.seq with
  | .run _ (.i2cFail _) =>
    s.i2cHeld = true ∧ (busView s.trace = some .failed ∨ (busView s.trace = some .opened ∧ s.i2cOpen = true))
  | .run _ .i2cAddr | .run _ (.i2cSend _) | .run _ (.i2cRecv _) | .run _ .i2cStop =>
    s.i2cHeld = true ∧ s.i2cOpen = true ∧ busView s.trace = some .opened
  | _ => s.i2cHeld = s.i2cOpen ∧ busView s.trace = some (if s.i2cOpen then .opened else .free)

/-- The microseconds of 1-Wire waits in a trace (R191, R295). -/
def waited (trace : List BusEvent) : Nat :=
  match trace with
  | [] => 0
  | .owiWait us :: older => us + waited older
  | _ :: older => waited older

/-- The trace of a write slot of bit `b`, newest event first (R193). -/
def writeSlotTrace (p : Params) (b : Bool) : List BusEvent :=
  [.owiWait (p.tSlot - lowTime p b), .owiRelease, .owiWait (lowTime p b), .owiLow]

/-- The trace of a read slot that samples `b`, newest event first (R194). -/
def readSlotTrace (p : Params) (b : Bool) : List BusEvent :=
  [.owiWait (p.tSlot - p.tMsr), .owiSample b, .owiWait (p.tMsr - p.tRl), .owiRelease, .owiWait p.tRl, .owiLow]

/-- The trace of a reset pulse that samples `b`, newest event first (R192). -/
def resetPulseTrace (p : Params) (b : Bool) : List BusEvent :=
  [.owiWait (p.tRstEnd - p.tRstl - p.tPds), .owiSample b, .owiWait p.tPds, .owiRelease, .owiWait p.tRstl, .owiLow]

/-- The trace of the eight write slots of a byte, least significant bit first, newest event first (R195). -/
def writeByteTrace (p : Params) (v : Byte) : List BusEvent :=
  ((List.range 8).reverse.map (fun i => writeSlotTrace p (v.getLsbD i))).flatten

/-- The trace of bit numbers 1..n of a search, newest event first: the two read slots, then the write slot of
the direction, which `rom` holds (R224). -/
def State.searchBitsTrace (s : State) (rom : Vector Byte 8) : Nat → List BusEvent
  | 0 => []
  | n + 1 =>
    writeSlotTrace s.params (romBitOf rom (n + 1)) ++ (readSlotTrace s.params (s.sampleAt (2 * n + 2)) ++
      (readSlotTrace s.params (s.sampleAt (2 * n + 1)) ++ s.searchBitsTrace rom n))

/-- The trace of a search that gets a presence, up to its bit loop, newest event first: the reset pulse, then
SEARCH_CMD (R224). -/
def State.searchStartTrace (s : State) : List BusEvent :=
  writeByteTrace s.params s.params.searchCmd ++ (resetPulseTrace s.params (s.sampleAt 0) ++ s.trace)

/-- The trace of `i2c.readn`'s data bytes, newest event first: all but the last acknowledged (R170). -/
def recvTrace (replies : List I2cReply) : List BusEvent :=
  match replies with
  | [] => []
  | [r] => [.i2cRecv r.byte false]
  | r :: q :: replies => recvTrace (q :: replies) ++ [.i2cRecv r.byte true]

/-- The trace of acknowledged data bytes, newest event first (R171). -/
def sendTrace (bytes : List Byte) : List BusEvent :=
  match bytes with
  | [] => []
  | b :: bytes => sendTrace bytes ++ [.i2cSend b true]

end Sys2Proof.Machine
end

