-- ==== Sys2Proof/Certificates/Slice0/Obligations.lean ====
section
/-! DEFINITION. The statements for the provers. A statement that answers `exec … = .next …` under `State.ready` is
about a command that an idle block accepts and runs with no host action landing meanwhile; the frames are
about every state, a command's interrupted and resumed runs included. -/

open Sys2Proof Sys2Proof.Machine

/-! ### Encoding, stepping, reset -/

/-- R92, R93, R94, R95: the words of the opcode map, and every other word the illegal command. -/
def Obligations.DecodeFollowsTheOpcodeMap : Prop :=
  decode 0x00 = .command .nop ∧ decode 0x01 = .command .sreset ∧
  decode 0x20 = .command .crcClr ∧ decode 0x21 = .command .crcByte ∧ decode 0x22 = .command .crcBuf ∧
  decode 0x40 = .command .cobsEnc ∧ decode 0x41 = .command .cobsDec ∧
  decode 0x60 = .command .i2cStartw ∧ decode 0x61 = .command .i2cStartr ∧ decode 0x62 = .command .i2cWrite ∧
  decode 0x64 = .command (.i2cRead false) ∧ decode 0x65 = .command (.i2cRead true) ∧
  decode 0x66 = .command .i2cStop ∧ decode 0x67 = .command .i2cReadn ∧ decode 0x68 = .command .i2cWriten ∧
  decode 0x80 = .command .owiReset ∧ decode 0x81 = .command .owiWbit ∧ decode 0x82 = .command .owiRbit ∧
  decode 0x83 = .command .owiWbyte ∧ decode 0x84 = .command .owiRbyte ∧
  decode 0x85 = .command .owiSfirst ∧ decode 0x86 = .command .owiSnext ∧
  ∀ w : Byte, w ∉ ([0x00, 0x01, 0x20, 0x21, 0x22, 0x40, 0x41, 0x60, 0x61, 0x62, 0x64, 0x65, 0x66, 0x67, 0x68,
    0x80, 0x81, 0x82, 0x83, 0x84, 0x85, 0x86] : List Byte) → decode w = .illegalCommand w

/-- R92, R93: decoding the encoding of a command gives the command, and encoding what a legal word decodes to
gives the word. -/
def Obligations.DecodeAndEncodeAgree : Prop :=
  (∀ i : Instr, decode (encode i) = .command i) ∧ ∀ (w : Byte) (i : Instr), decode w = .command i → encode i = w

/-- R110, R36, R39: a host write to CMD on an idle block runs the command the word decodes to, in the state with
that access taken; a running command goes on as long as no host action is due; an idle block with no host
action to come waits (R283). Every other access and the reset input likewise: the first action of the queue is
taken, by an idle block at once (R70, R281), and while a command runs when it is due (R72, R111) or reset is
asserted. The queue of host actions is the model's choice (log 1). -/
def Obligations.StepRunsTheDecodedCommand : Prop :=
  (∀ (s : State) (after : Option Nat) (rest : List HostEvent) (w : Byte),
    s.seq = .idle → s.resetLine = false → s.host = { after := after, action := .write 1 0x000 w } :: rest →
    (∀ i, decode w = .command i → step s = exec i { s with host := rest }) ∧
    (decode w = .illegalCommand w → step s = execIllegal w { s with host := rest })) ∧
  (∀ (s : State) (c : Byte) (p : Progress),
    s.seq = .run c p → s.resetLine = false → s.hostDue = false →
    (∀ i, decode c = .command i → step s = exec i s) ∧
    (decode c = .illegalCommand c → step s = execIllegal c s)) ∧
  (∀ s : State, s.seq = .idle → s.host = [] → step s = .next s) ∧
  (∀ (s : State) (e : HostEvent) (rest : List HostEvent), s.host = e :: rest →
    (s.seq = .idle → step s = hostAction e.action { s with host := rest }) ∧
    (s.seq ≠ .idle → e.after = some 0 ∨ s.resetLine = true → step s = hostAction e.action { s with host := rest })) ∧
  (∀ s : State, s.seq ≠ .idle → s.resetLine = true → s.host = [] → step s = .next s)

/-- R41: every register of the table reads its reset value, the sequencer is IDLE, the lines are released,
and no byte of RAW or FRAME has a value yet. -/
def Obligations.ResetLeavesTheResetValues : Prop :=
  State.reset.seq = .idle ∧ State.reset.statusByte = 0x00 ∧ State.reset.resultByte = 0x00 ∧
  State.reset.data = 0x00 ∧ State.reset.len = 0x00 ∧ State.reset.flen = 0x00 ∧ State.reset.crc = 0x0000 ∧
  State.reset.i2cAddrByte = 0x00 ∧ State.reset.i2cStatByte = 0x00 ∧
  State.reset.srchLd = 0x00 ∧ State.reset.srchLfd = 0x00 ∧ State.reset.srchFlagsByte = 0x00 ∧
  State.reset.owiCrc8 = 0x00 ∧ (∀ k, k < 8 → State.reset.romByte k = 0x00) ∧
  (∀ off, Memory.read State.reset.mem off = none) ∧
  State.reset.owiDrive = false ∧ State.reset.i2cHeld = false

/-- R281: hardware reset, asserted in any state, a running command included, and then released: the registers
read as after reset, the sequencer is IDLE, the lines are released with no stop condition in the trace, no byte
of RAW or FRAME keeps its value, and the block then takes commands again. That reset is an assertion and a
release is the model's choice (log 12). -/
def Obligations.HardwareResetFromAnyState : Prop :=
  ∀ s : State, ∃ t u : State,
    hostAction .assertReset s = .next t ∧ hostAction .releaseReset t = .next u ∧
    t.seq = .idle ∧ t.owiDrive = false ∧ t.i2cHeld = false ∧ t.resetLine = true ∧
    (∀ off, inBuffer off = false → t.peek off = State.reset.peek off) ∧
    (∀ off, Memory.read t.mem off = none) ∧ t.trace = .hwReset :: s.trace ∧ t.host = s.host ∧
    t.params = s.params ∧ u.params = s.params ∧
    u.seq = .idle ∧ u.owiDrive = false ∧ u.i2cHeld = false ∧ u.resetLine = false ∧
    (∀ off, inBuffer off = false → u.peek off = State.reset.peek off) ∧
    (∀ off, Memory.read u.mem off = none) ∧ u.host = s.host

/-! ### The host interface -/

/-- R61, R64 (R21 for CMD): what a host read returns while no command runs, for every offset. -/
def Obligations.IdleReadsFollowTheRegisterMap : Prop :=
  ∀ s : State, s.busy = false → s.resetLine = false →
    let reads := fun (off : Nat) (v : Byte) =>
      hostAction (.read 1 off) s = .next { s with reads := (off, v) :: s.reads }
    reads 0x000 0x00 ∧ reads 0x001 s.statusByte ∧ reads 0x002 s.result.code ∧ reads 0x003 s.data ∧
    reads 0x004 s.len ∧ reads 0x005 s.flen ∧ reads 0x006 (s.crc.extractLsb' 0 8) ∧
    reads 0x007 (s.crc.extractLsb' 8 8) ∧ reads 0x008 (s.i2cAddr.setWidth 8) ∧ reads 0x009 s.i2cStatByte ∧
    reads 0x00A s.srchLd ∧ reads 0x00B s.srchLfd ∧ reads 0x00C s.srchFlagsByte ∧ reads 0x00D s.owiCrc8 ∧
    (∀ k, (h : k < 8) → reads (0x010 + k) s.rom[k]) ∧
    (∀ i, i < 256 → reads (0x100 + i) (s.rawAt i)) ∧
    (∀ i, i < 256 → reads (0x200 + i) (s.frameAt i)) ∧
    (∀ off, (0x00E ≤ off ∧ off ≤ 0x00F) ∨ (0x018 ≤ off ∧ off ≤ 0x0FF) ∨ (0x300 ≤ off ∧ off ≤ 0x3FF) →
      reads off 0x00)

/-- R72 (reads), R64: while a command runs STATUS is exact, RESULT is the previous code, reserved offsets
read 0; any other read draws a free value. That CMD is among the others is the model's choice (log 4). -/
def Obligations.BusyReadsAreExactOrFree : Prop :=
  ∀ s : State, s.busy = true → s.resetLine = false →
    hostAction (.read 1 0x001) s = .next { s with reads := (0x001, s.statusByte) :: s.reads } ∧
    hostAction (.read 1 0x002) s = .next { s with reads := (0x002, s.result.code) :: s.reads } ∧
    (∀ off, (0x00E ≤ off ∧ off ≤ 0x00F) ∨ (0x018 ≤ off ∧ off ≤ 0x0FF) ∨ (0x300 ≤ off ∧ off ≤ 0x3FF) →
      hostAction (.read 1 off) s = .next { s with reads := (off, 0x00) :: s.reads }) ∧
    (∀ off, off = 0x000 ∨ (0x003 ≤ off ∧ off ≤ 0x00D) ∨ (0x010 ≤ off ∧ off ≤ 0x017) ∨ (0x100 ≤ off ∧ off ≤ 0x2FF) →
      hostAction (.read 1 off) s =
        .next { s with reads := (off, Config.busyByte s.draws) :: s.reads, draws := s.draws + 1 })

/-- R65: a host read changes no state of the block, at any offset and in any state. -/
def Obligations.ReadsHaveNoSideEffect : Prop :=
  ∀ (s t : State) (width off : Nat), hostAction (.read width off) s = .next t →
    t.result = s.result ∧ t.seq = s.seq ∧ sameMisuse s t ∧ sameOperands s t ∧ sameI2c s t ∧ sameDiscovery s t ∧
    t.mem = s.mem ∧ t.epoch = s.epoch ∧ t.owiDrive = s.owiDrive ∧ t.resetLine = s.resetLine ∧ t.trace = s.trace ∧
    t.host = s.host ∧ t.params = s.params

/-- R111, R72 (writes), R253, R22: while a command runs, a CMD write is discarded with CMD_OVR, a STATUS write
clears the W1C bits, a write to a reserved offset does nothing, and any other write only sets ACC_ERR. -/
def Obligations.BusyWritesOnlySetFlags : Prop :=
  ∀ (s : State) (v : Byte), s.busy = true → s.resetLine = false →
    hostAction (.write 1 0x000 v) s = .next { s with cmdOvr := true } ∧
    hostAction (.write 1 0x001 v) s =
      .next { s with cmdOvr := s.cmdOvr && !v.getLsbD 2, accErr := s.accErr && !v.getLsbD 3 } ∧
    (∀ off, (0x00E ≤ off ∧ off ≤ 0x00F) ∨ (0x018 ≤ off ∧ off ≤ 0x0FF) ∨ (0x300 ≤ off ∧ off ≤ 0x3FF) →
      hostAction (.write 1 off v) s = .next s) ∧
    (∀ off, (0x002 ≤ off ∧ off ≤ 0x00D) ∨ (0x010 ≤ off ∧ off ≤ 0x017) ∨ (0x100 ≤ off ∧ off ≤ 0x2FF) →
      hostAction (.write 1 off v) s = .next { s with accErr := true })

/-- R61, R64, R24 to R28, R34, R35: while no command runs, the writable registers and the buffers take the
value written, the read-only registers and reserved offsets ignore it, STATUS clears its W1C bits. -/
def Obligations.IdleWritesFollowTheRegisterMap : Prop :=
  ∀ (s : State) (v : Byte), s.busy = false → s.resetLine = false →
    hostAction (.write 1 0x001 v) s =
      .next { s with cmdOvr := s.cmdOvr && !v.getLsbD 2, accErr := s.accErr && !v.getLsbD 3 } ∧
    hostAction (.write 1 0x003 v) s = .next { s with data := v } ∧
    hostAction (.write 1 0x004 v) s = .next { s with len := v } ∧
    hostAction (.write 1 0x006 v) s = .next { s with crc := (s.crc.extractLsb' 8 8 ++ v : BitVec (8 + 8)) } ∧
    hostAction (.write 1 0x007 v) s = .next { s with crc := (v ++ s.crc.extractLsb' 0 8 : BitVec (8 + 8)) } ∧
    hostAction (.write 1 0x008 v) s = .next { s with i2cAddr := v.setWidth 7 } ∧
    (∀ off, off = 0x002 ∨ off = 0x005 ∨ (0x009 ≤ off ∧ off ≤ 0x0FF) ∨ (0x300 ≤ off ∧ off ≤ 0x3FF) →
      hostAction (.write 1 off v) s = .next s) ∧
    (∀ off, 0x100 ≤ off ∧ off ≤ 0x2FF → ∃ t : State,
      hostAction (.write 1 off v) s = .next t ∧ t = { s with mem := t.mem } ∧ t.bufferByte off = v ∧
      ∀ other, other ≠ off → t.bufferByte other = s.bufferByte other)

/-- R22, R252, R28, R29, R31, R251: the bits of STATUS, I2C_ADDR, I2C_STAT and SRCH_FLAGS in every state, and the
numbers of the result codes and of the values of I2C_STAT.CODE. -/
def Obligations.StatusRegistersShowTheirFields : Prop :=
  ([Result.ok, .eIllegal, .eLen, .eCobsEmpty, .eCobsTrunc, .eCobsOvf, .eI2cStart, .eI2cNack, .eI2cState, .eOwiNoPres,
      .eOwiNoDev, .eOwiCrc, .eOwiFamily, .rOwiLast].map Result.code =
    [0x00, 0x01, 0x02, 0x10, 0x11, 0x12, 0x20, 0x21, 0x22, 0x30, 0x31, 0x32, 0x33, 0x34]) ∧
  ([I2cCode.idle, .started, .repStarted, .addrAcked, .dataAcked, .noAck, .startFailed].map I2cCode.code =
    [0, 1, 2, 3, 4, 5, 6]) ∧
  ∀ s : State,
    s.peek 0x002 = s.result.code ∧
    ((s.peek 0x001).getLsbD 0 = s.busy ∧ (s.busy = true ↔ s.seq ≠ .idle) ∧
      ((s.peek 0x001).getLsbD 1 = true ↔ s.peek 0x002 ≠ 0x00) ∧
      (s.peek 0x001).getLsbD 2 = s.cmdOvr ∧ (s.peek 0x001).getLsbD 3 = s.accErr ∧
      (s.peek 0x001).extractLsb' 4 4 = 0) ∧
    ((s.peek 0x008).extractLsb' 0 7 = s.i2cAddr ∧ (s.peek 0x008).getLsbD 7 = false) ∧
    ((s.peek 0x009).extractLsb' 0 3 = s.i2cCode.code ∧ (s.peek 0x009).getLsbD 3 = false ∧
      (s.peek 0x009).getLsbD 4 = s.i2cOpen ∧ (s.peek 0x009).getLsbD 5 = s.i2cDir ∧
      (s.peek 0x009).extractLsb' 6 2 = 0) ∧
    ((s.peek 0x00C).getLsbD 0 = s.ldf ∧ (s.peek 0x00C).extractLsb' 1 7 = 0)

/-- R60, R62, R281 (93 U3, U4): an access of a width other than one byte, or one made while reset is
asserted, is refused by name; one beyond the 1024 offsets faults. That these stop is the model's choice (log
12, log 13). -/
def Obligations.AccessesWithNoMeaningStop : Prop :=
  ∀ (s : State) (width off : Nat) (v : Byte),
    (s.resetLine = true →
      hostAction (.read width off) s = .refused .accessInReset ∧
      hostAction (.write width off v) s = .refused .accessInReset) ∧
    (s.resetLine = false → width ≠ 1 →
      hostAction (.read width off) s = .refused .accessWidth ∧
      hostAction (.write width off v) s = .refused .accessWidth) ∧
    (s.resetLine = false → width = 1 → 0x400 ≤ off →
      hostAction (.read width off) s = .fault .noSuchOffset ∧
      hostAction (.write width off v) s = .fault .noSuchOffset)

/-! ### The command cycle -/

/-- R172, R257: while the environment does not end the I2C phase a command waits for, the command stays at that
phase: BUSY stays 1, nothing happens on the bus, and no register, flag or buffer byte changes. -/
def Obligations.UnfinishedPhaseKeepsTheCommandBusy : Prop :=
  ∀ (i : Instr) (s : State) (c : Byte) (p : Progress),
    s.seq = .run c p → s.undisturbed = true → awaitsPhase i p = true → s.nextReply = none →
    ∃ t : State, exec i s = .next t ∧ t.seq = s.seq ∧ t.busy = true ∧ t.result = s.result ∧ t.trace = s.trace ∧
      sameMisuse s t ∧ sameOperands s t ∧ sameI2c s t ∧ sameDiscovery s t ∧ sameOutside s t ∧ t.mem = s.mem ∧
      t.owiDrive = s.owiDrive ∧ t.host = s.host

/-- R23, R110: a command that has not completed has left RESULT as it was. -/
def Obligations.ResultIsWrittenOnlyAtCompletion : Prop :=
  ∀ (i : Instr) (s t : State), exec i s = .next t → t.seq ≠ .idle → t.result = s.result

/-- R112: `nop` sets RESULT to OK and does nothing else. -/
def Obligations.NopCompletes : Prop :=
  encode .nop = 0x00 ∧ ∀ s : State, s.ready → exec .nop s = .next { s with result := .ok }

/-- R94, R114: every illegal word runs as the illegal command: RESULT is E_ILLEGAL and nothing else changes. -/
def Obligations.IllegalWordsComplete : Prop :=
  ∀ (s : State) (w : Byte), s.ready → decode w = .illegalCommand w →
    runWord w s = .next { s with result := .eIllegal }

/-- R113: `sreset` issues exactly one stop if a transaction is open and none otherwise, clears every register
and flag, and keeps RAW and FRAME. -/
def Obligations.SresetCompletes : Prop :=
  let cleared := fun s : State =>
    { s with
      result := .ok, cmdOvr := false, accErr := false, data := 0, len := 0, flen := 0, crc := 0, i2cAddr := 0
      i2cCode := .idle, i2cOpen := false, i2cDir := false, srchLd := 0, srchLfd := 0, ldf := false
      rom := Vector.replicate 8 0, owiCrc8 := 0, owiDrive := false }
  encode .sreset = 0x01 ∧ ∀ s : State, s.ready →
    (s.i2cOpen = false → exec .sreset s = .next (cleared s)) ∧
    (s.i2cOpen = true → ∀ r s1, s.nextReply = some (r, s1) →
      exec .sreset s = .next { cleared s1 with i2cHeld := false, trace := .i2cStop :: s.trace })

/-! ### CRC-16 -/

/-- R122: `crc.clr`. -/
def Obligations.CrcClrCompletes : Prop :=
  encode .crcClr = 0x20 ∧ ∀ s : State, s.ready → exec .crcClr s = .next { s with result := .ok, crc := 0x0000 }

/-- R123, R120: `crc.byte`, with one byte's update written out: the byte enters at the top, then eight
shifts, each with the polynomial if the top bit was 1. -/
def Obligations.CrcByteCompletes : Prop :=
  let shift := fun c : Half => if c.msb then (c <<< 1) ^^^ 0x1021#16 else c <<< 1
  encode .crcByte = 0x21 ∧ ∀ s : State, s.ready →
    exec .crcByte s = .next { s with
      result := .ok
      crc := shift (shift (shift (shift (shift (shift (shift (shift (s.crc ^^^ (s.data ++ 0#8 : BitVec (8 + 8))))))))))}

/-- R124, R121: `crc.buf` folds the byte update over RAW[0..LEN-1] from the current CRC. -/
def Obligations.CrcBufCompletes : Prop :=
  encode .crcBuf = 0x22 ∧ ∀ s : State, s.ready →
    exec .crcBuf s = .next { s with
      result := .ok, crc := ((List.range s.len.toNat).map s.rawAt).foldl crc16Update s.crc }

/-- R121: the required vector, the ASCII bytes "123456789". -/
def Obligations.CrcCheckValue : Prop :=
  crc16 [0x31, 0x32, 0x33, 0x34, 0x35, 0x36, 0x37, 0x38, 0x39] = 0x31C3 ∧ crc16 [] = 0x0000

/-- R125 (a): the byte update is linear over GF(2) in the register and the byte. -/
def Obligations.CrcUpdateIsLinear : Prop :=
  (∀ (c d : Half) (a b : Byte), crc16Update (c ^^^ d) (a ^^^ b) = crc16Update c a ^^^ crc16Update d b) ∧
  crc16Update 0x0000 0x00 = 0x0000 ∧ ∀ n, crc16From 0x0000 (List.replicate n 0x00) = 0x0000

/-- R125 (b): with the checksum appended high byte first, the checksum is 0x0000. -/
def Obligations.CrcResidueIsZero : Prop :=
  ∀ bytes : List Byte,
    crc16 (bytes ++ [(crc16 bytes).extractLsb' 8 8, (crc16 bytes).extractLsb' 0 8]) = 0x0000

/-- R122, R123, R124: what the CRC commands leave alone, in every state. -/
def Obligations.CrcFrame : Prop :=
  ∀ (i : Instr) (s t : State), i = .crcClr ∨ i = .crcByte ∨ i = .crcBuf → exec i s = .next t →
    t.data = s.data ∧ t.len = s.len ∧ t.flen = s.flen ∧ t.i2cAddr = s.i2cAddr ∧
    sameI2c s t ∧ sameDiscovery s t ∧ sameMisuse s t ∧ sameOutside s t ∧ sameBuffers s t ∧
    t.owiDrive = s.owiDrive ∧ t.trace = s.trace

/-! ### COBS -/

/-- R141: `cobs.enc`: E_LEN with nothing written for LEN > 253; else FRAME[0..LEN+1] is the encoding of
RAW[0..LEN-1], FLEN = LEN + 2, and nothing else changes. -/
def Obligations.CobsEncCompletes : Prop :=
  encode .cobsEnc = 0x40 ∧ ∀ s : State, s.ready →
    (253 < s.len.toNat → exec .cobsEnc s = .next { s with result := .eLen }) ∧
    (s.len.toNat ≤ 253 → ∃ t : State,
      exec .cobsEnc s = .next t ∧ t = { s with result := .ok, flen := t.flen, mem := t.mem } ∧
      t.flen.toNat = s.len.toNat + 2 ∧ t.frameSpan (s.len.toNat + 2) = cobsEncode (s.rawSpan s.len.toNat) ∧
      ∀ off, ¬(0x200 ≤ off ∧ off < 0x200 + (s.len.toNat + 2)) → t.bufferByte off = s.bufferByte off)

/-- R140: an encoding is two bytes longer than its input, ends in zero, and has no other zero byte. -/
def Obligations.CobsEncodingHasOneZero : Prop :=
  ∀ bytes : List Byte, bytes.length ≤ 253 →
    (cobsEncode bytes).length = bytes.length + 2 ∧
    ∃ body : List Byte, cobsEncode bytes = body ++ [0x00] ∧ ∀ b ∈ body, b ≠ 0x00

/-- R144: `cobs.dec`: RAW[0..LEN-1], LEN and FLEN are what `cobs_decode` gives on FRAME, RESULT is its code, and
nothing else changes. -/
def Obligations.CobsDecCompletes : Prop :=
  encode .cobsDec = 0x41 ∧ ∀ s : State, s.ready →
    let d := cobsDecode s.frameAt
    ∃ t : State, exec .cobsDec s = .next t ∧
      t = { s with result := d.code, len := t.len, flen := t.flen, mem := t.mem } ∧
      t.len.toNat = d.out.length ∧ t.flen.toNat = d.flen ∧ t.rawSpan d.out.length = d.out ∧
      ∀ off, ¬(0x100 ≤ off ∧ off < 0x100 + d.out.length) → t.bufferByte off = s.bufferByte off

/-- R143, R144: for every 256 bytes of FRAME, which outcomes `cobs_decode` has: E_COBS_EMPTY exactly for a first
byte 0; E_COBS_OVF with 253 bytes out and FLEN 0; OK or E_COBS_TRUNC with the first zero at index 1 or more,
FLEN one more than its index, and one byte out less than that index. It is OK exactly when the frame, delimiter
included, is the encoding of the bytes out. Each byte out is the byte one further on in the frame, or 0 in the
place of a code byte. -/
def Obligations.CobsDecodeOutcomes : Prop :=
  ∀ F : Nat → Byte,
    let d := cobsDecode F
    (F 0 = 0x00 → d = ⟨.eCobsEmpty, [], 0⟩) ∧
    (F 0 ≠ 0x00 →
      (d.code = .eCobsOvf ∧ d.out.length = 253 ∧ d.flen = 0 ∧ (∀ i, 1 ≤ i → i ≤ 254 → F i ≠ 0x00)) ∨
      ((d.code = .ok ∨ d.code = .eCobsTrunc) ∧ d.out.length ≤ 253 ∧ d.flen = d.out.length + 2 ∧
        F (d.out.length + 1) = 0x00 ∧ (∀ i, 1 ≤ i → i ≤ d.out.length → F i ≠ 0x00) ∧
        (d.code = .ok ↔ (List.range d.flen).map F = cobsEncode d.out))) ∧
    ∀ k, (h : k < d.out.length) → d.out[k] = F (k + 1) ∨ d.out[k] = 0x00

/-- R143: a first code byte 0xFF never decodes to OK. -/
def Obligations.FirstCodeByteFFNeverDecodes : Prop :=
  ∀ F : Nat → Byte, F 0 = 0xFF → (cobsDecode F).code = .eCobsTrunc ∨ (cobsDecode F).code = .eCobsOvf

/-- R145: decoding an encoding gives the input back, whatever follows the frame in FRAME. -/
def Obligations.CobsDecodeInvertsEncode : Prop :=
  ∀ (bytes : List Byte) (F : Nat → Byte), bytes.length ≤ 253 →
    (∀ i, (h : i < (cobsEncode bytes).length) → F i = (cobsEncode bytes)[i]) →
    cobsDecode F = ⟨.ok, bytes, bytes.length + 2⟩

/-- R145: `cobs.enc` with LEN = n, then `cobs.dec`, ends with RESULT = OK, LEN = n, FLEN = n + 2, and
RAW[0..n-1] unchanged. -/
def Obligations.CobsEncThenDecRestoresRaw : Prop :=
  ∀ s : State, s.ready → s.len.toNat ≤ 253 → ∃ t u : State,
    exec .cobsEnc s = .next t ∧ t.result = .ok ∧ exec .cobsDec t = .next u ∧ u.result = .ok ∧
    u.len = s.len ∧ u.flen.toNat = s.len.toNat + 2 ∧ u.rawSpan s.len.toNat = s.rawSpan s.len.toNat

/-- R141, R144: what the COBS commands leave alone, in every state: `cobs.enc` every byte outside FRAME, and
`cobs.dec` every byte outside RAW. -/
def Obligations.CobsFrame : Prop :=
  ∀ (i : Instr) (s t : State), i = .cobsEnc ∨ i = .cobsDec → exec i s = .next t →
    t.data = s.data ∧ t.crc = s.crc ∧ t.i2cAddr = s.i2cAddr ∧ (i = .cobsEnc → t.len = s.len) ∧
    sameI2c s t ∧ sameDiscovery s t ∧ sameMisuse s t ∧ sameOutside s t ∧
    sameBytes (fun off => if i = .cobsEnc then ¬(0x200 ≤ off ∧ off ≤ 0x2FF) else ¬(0x100 ≤ off ∧ off ≤ 0x1FF)) s t ∧
    t.owiDrive = s.owiDrive ∧ t.trace = s.trace

/-! ### I2C -/

/-- R164, R165, R166, R161, R162: `i2c.startw` and `i2c.startr`, by what the environment answers: a failed
start, an address not acknowledged, or success. -/
def Obligations.I2cStartCommandsComplete : Prop :=
  encode .i2cStartw = 0x60 ∧ encode .i2cStartr = 0x61 ∧
  ∀ (i : Instr) (dir : Bool) (s s1 s2 : State) (r1 r2 : I2cReply),
    (i = .i2cStartw ∧ dir = false) ∨ (i = .i2cStartr ∧ dir = true) →
    s.ready → s.nextReply = some (r1, s1) → s1.nextReply = some (r2, s2) →
    let sla : Byte := s.i2cAddr ++ BitVec.ofBool dir
    (r1.ok = false → exec i s = .next { s2 with
      result := .eI2cStart, i2cCode := .startFailed, i2cOpen := false, i2cHeld := false
      trace := .i2cStop :: .i2cStart s.i2cOpen false :: s.trace }) ∧
    (r1.ok = true → r2.ok = true → exec i s = .next { s2 with
      result := .ok, i2cCode := .addrAcked, i2cOpen := true, i2cDir := dir, i2cHeld := true
      trace := .i2cSend sla true :: .i2cStart s.i2cOpen true :: s.trace }) ∧
    (r1.ok = true → r2.ok = false → ∀ r3 s3, s2.nextReply = some (r3, s3) → exec i s = .next { s3 with
      result := .eI2cNack, i2cCode := .noAck, i2cOpen := false, i2cDir := dir, i2cHeld := false
      trace := .i2cStop :: .i2cSend sla false :: .i2cStart s.i2cOpen true :: s.trace })

/-- R167: `i2c.write`: E_I2C_STATE with no bus activity unless a write transaction is open; else DATA is sent,
and a byte not acknowledged closes the transaction with one stop. -/
def Obligations.I2cWriteCompletes : Prop :=
  encode .i2cWrite = 0x62 ∧ ∀ s : State, s.ready →
    (s.i2cOpen = false ∨ s.i2cDir = true → exec .i2cWrite s = .next { s with result := .eI2cState }) ∧
    (s.i2cOpen = true → s.i2cDir = false → ∀ r1 s1, s.nextReply = some (r1, s1) →
      (r1.ok = true → exec .i2cWrite s = .next { s1 with
        result := .ok, i2cCode := .dataAcked, trace := .i2cSend s.data true :: s.trace }) ∧
      (r1.ok = false → ∀ r2 s2, s1.nextReply = some (r2, s2) → exec .i2cWrite s = .next { s2 with
        result := .eI2cNack, i2cCode := .noAck, i2cOpen := false, i2cHeld := false
        trace := .i2cStop :: .i2cSend s.data false :: s.trace }))

/-- R168: `i2c.read A`: E_I2C_STATE with no bus activity unless a read transaction is open; else DATA is the
byte received, acknowledged as A says, and the transaction stays open. -/
def Obligations.I2cReadCompletes : Prop :=
  encode (.i2cRead false) = 0x64 ∧ encode (.i2cRead true) = 0x65 ∧ ∀ (a : Bool) (s : State), s.ready →
    (s.i2cOpen = false ∨ s.i2cDir = false → exec (.i2cRead a) s = .next { s with result := .eI2cState }) ∧
    (s.i2cOpen = true → s.i2cDir = true → ∀ r s1, s.nextReply = some (r, s1) →
      exec (.i2cRead a) s = .next { s1 with
        result := .ok, data := r.byte, i2cCode := if a then .dataAcked else .noAck
        trace := .i2cRecv r.byte a :: s.trace })

/-- R169: `i2c.stop`: one stop if a transaction is open, nothing on the bus otherwise; OK either way. -/
def Obligations.I2cStopCompletes : Prop :=
  encode .i2cStop = 0x66 ∧ ∀ s : State, s.ready →
    (s.i2cOpen = false → exec .i2cStop s = .next { s with result := .ok }) ∧
    (s.i2cOpen = true → ∀ r s1, s.nextReply = some (r, s1) → exec .i2cStop s = .next { s1 with
      result := .ok, i2cOpen := false, i2cHeld := false, trace := .i2cStop :: s.trace })

/-- R170: `i2c.readn`: E_LEN with no bus activity for LEN = 0; a failing start phase as in R164; else LEN bytes
into RAW in order, all but the last acknowledged, and one stop. -/
def Obligations.I2cReadnCompletes : Prop :=
  encode .i2cReadn = 0x67 ∧ ∀ s : State, s.ready →
    (s.len = 0 → exec .i2cReadn s = .next { s with result := .eLen }) ∧
    (s.len ≠ 0 → ∀ (r1 r2 : I2cReply) (s1 s2 : State),
      s.nextReply = some (r1, s1) → s1.nextReply = some (r2, s2) →
      let sla : Byte := s.i2cAddr ++ BitVec.ofBool true
      (r1.ok = false → exec .i2cReadn s = .next { s2 with
        result := .eI2cStart, i2cCode := .startFailed, i2cOpen := false, i2cHeld := false
        trace := .i2cStop :: .i2cStart s.i2cOpen false :: s.trace }) ∧
      (r1.ok = true → r2.ok = false → ∀ r3 s3, s2.nextReply = some (r3, s3) → exec .i2cReadn s = .next { s3 with
        result := .eI2cNack, i2cCode := .noAck, i2cOpen := false, i2cDir := true, i2cHeld := false
        trace := .i2cStop :: .i2cSend sla false :: .i2cStart s.i2cOpen true :: s.trace }) ∧
      (r1.ok = true → r2.ok = true → ∀ (rs : List I2cReply) (r4 : I2cReply) (s3 s4 : State),
        s2.replies s.len.toNat = some (rs, s3) → s3.nextReply = some (r4, s4) → ∃ t : State,
        exec .i2cReadn s = .next t ∧
        t = { s4 with
          result := .ok, i2cCode := .noAck, i2cOpen := false, i2cDir := true, i2cHeld := false, mem := t.mem
          trace := .i2cStop :: (recvTrace rs ++ .i2cSend sla true :: .i2cStart s.i2cOpen true :: s.trace) } ∧
        t.rawSpan s.len.toNat = rs.map (·.byte) ∧
        ∀ off, ¬(0x100 ≤ off ∧ off < 0x100 + s.len.toNat) → t.bufferByte off = s.bufferByte off))

/-- R171: `i2c.writen`: a failing start phase as in R164; else RAW[0..LEN-1] sent in order and one stop; a
data byte not acknowledged ends it with one stop, the later bytes unsent. -/
def Obligations.I2cWritenCompletes : Prop :=
  encode .i2cWriten = 0x68 ∧ ∀ s : State, s.ready → ∀ (r1 r2 : I2cReply) (s1 s2 : State),
    s.nextReply = some (r1, s1) → s1.nextReply = some (r2, s2) →
    let sla : Byte := s.i2cAddr ++ BitVec.ofBool false
    (r1.ok = false → exec .i2cWriten s = .next { s2 with
      result := .eI2cStart, i2cCode := .startFailed, i2cOpen := false, i2cHeld := false
      trace := .i2cStop :: .i2cStart s.i2cOpen false :: s.trace }) ∧
    (r1.ok = true → r2.ok = false → ∀ r3 s3, s2.nextReply = some (r3, s3) → exec .i2cWriten s = .next { s3 with
      result := .eI2cNack, i2cCode := .noAck, i2cOpen := false, i2cDir := false, i2cHeld := false
      trace := .i2cStop :: .i2cSend sla false :: .i2cStart s.i2cOpen true :: s.trace }) ∧
    (r1.ok = true → r2.ok = true → ∀ (rs : List I2cReply) (r4 : I2cReply) (s3 s4 : State),
      s2.replies s.len.toNat = some (rs, s3) → (∀ r ∈ rs, r.ok = true) → s3.nextReply = some (r4, s4) →
      exec .i2cWriten s = .next { s4 with
        result := .ok, i2cCode := if s.len = 0 then .addrAcked else .dataAcked
        i2cOpen := false, i2cDir := false, i2cHeld := false
        trace := .i2cStop :: (sendTrace (s.rawSpan s.len.toNat) ++
          .i2cSend sla true :: .i2cStart s.i2cOpen true :: s.trace) }) ∧
    (r1.ok = true → r2.ok = true → ∀ (k : Nat) (rs : List I2cReply) (r4 r5 : I2cReply) (s3 s4 s5 : State),
      k < s.len.toNat → s2.replies k = some (rs, s3) → (∀ r ∈ rs, r.ok = true) →
      s3.nextReply = some (r4, s4) → r4.ok = false → s4.nextReply = some (r5, s5) →
      exec .i2cWriten s = .next { s5 with
        result := .eI2cNack, i2cCode := .noAck, i2cOpen := false, i2cDir := false, i2cHeld := false
        trace := .i2cStop :: .i2cSend (s.rawAt k) false :: (sendTrace (s.rawSpan k) ++
          .i2cSend sla true :: .i2cStart s.i2cOpen true :: s.trace) })

/-- R165 to R171: what the I2C commands leave alone, in every state; only `i2c.read` writes DATA, only
`i2c.readn` writes a buffer, and from an idle block only RAW[0..LEN-1]. -/
def Obligations.I2cFrame : Prop :=
  ∀ (i : Instr) (s t : State),
    i = .i2cStartw ∨ i = .i2cStartr ∨ i = .i2cWrite ∨ (∃ a, i = .i2cRead a) ∨ i = .i2cStop ∨ i = .i2cReadn ∨
      i = .i2cWriten →
    exec i s = .next t →
    ((∀ a, i ≠ .i2cRead a) → t.data = s.data) ∧ t.len = s.len ∧ t.flen = s.flen ∧ t.crc = s.crc ∧
    t.i2cAddr = s.i2cAddr ∧ sameDiscovery s t ∧ sameMisuse s t ∧ sameOutside s t ∧ t.owiDrive = s.owiDrive ∧
    (i ≠ .i2cReadn → sameBuffers s t) ∧
    sameBytes (fun off => ¬(0x100 ≤ off ∧ off ≤ 0x1FF)) s t ∧
    (s.seq = .idle → sameBytes (fun off => ¬(0x100 ≤ off ∧ off < 0x100 + s.len.toNat)) s t)

/-- R163: every step keeps the release invariant: each transaction gets exactly one stop, no stop is issued
otherwise, and outside a failure path the bus is in a transaction exactly while OPEN = 1. -/
def Obligations.EveryTransactionGetsOneStop : Prop :=
  ∀ s t : State, s.busOk → step s = .next t → t.busOk

/-! ### 1-Wire -/

/-- R196, R192: `owi.reset` runs the whole reset pulse and reports whether the sample is 0, for any
parameters. -/
def Obligations.OwiResetCompletes : Prop :=
  encode .owiReset = 0x80 ∧ ∀ (s s1 : State) (b : Bool), s.ready → s.sampleLine = (b, s1) →
    let p := s.params
    exec .owiReset s = .next { s1 with
      result := if b then .eOwiNoPres else .ok, owiDrive := false
      trace := .owiWait (p.tRstEnd - p.tRstl - p.tPds) :: .owiSample b :: .owiWait p.tPds :: .owiRelease ::
        .owiWait p.tRstl :: .owiLow :: s.trace }

/-- R197, R198, R193, R194: `owi.wbit` sends DATA[0] in a write slot, `owi.rbit` sets DATA to the bit of a read
slot; both are always OK, for any parameters. -/
def Obligations.OwiBitCommandsComplete : Prop :=
  encode .owiWbit = 0x81 ∧ encode .owiRbit = 0x82 ∧ ∀ s : State, s.ready →
    let p := s.params
    (s.data.getLsbD 0 = true → exec .owiWbit s = .next { s with
      result := .ok, owiDrive := false
      trace := .owiWait (p.tSlot - p.tW1l) :: .owiRelease :: .owiWait p.tW1l :: .owiLow :: s.trace }) ∧
    (s.data.getLsbD 0 = false → exec .owiWbit s = .next { s with
      result := .ok, owiDrive := false
      trace := .owiWait (p.tSlot - p.tW0l) :: .owiRelease :: .owiWait p.tW0l :: .owiLow :: s.trace }) ∧
    (∀ b s1, s.sampleLine = (b, s1) → exec .owiRbit s = .next { s1 with
      result := .ok, owiDrive := false, data := if b then 0x01 else 0x00
      trace := .owiWait (p.tSlot - p.tMsr) :: .owiSample b :: .owiWait (p.tMsr - p.tRl) :: .owiRelease ::
        .owiWait p.tRl :: .owiLow :: s.trace })

/-- R195, R199, R200: `owi.wbyte` writes the eight bits of DATA, `owi.rbyte` reads eight bits into DATA, both
least significant bit first; both are always OK, for any parameters. -/
def Obligations.OwiByteCommandsComplete : Prop :=
  encode .owiWbyte = 0x83 ∧ encode .owiRbyte = 0x84 ∧ ∀ s : State, s.ready →
    exec .owiWbyte s = .next { s with
      result := .ok, owiDrive := false
      trace := writeByteTrace s.params s.data ++ s.trace } ∧
    ∀ bits s1, s.nextSamples 8 = (bits, s1) → ∃ t : State,
      exec .owiRbyte s = .next t ∧
      t = { s1 with
        result := .ok, owiDrive := false, data := t.data
        trace := (bits.reverse.map (readSlotTrace s.params)).flatten ++ s.trace } ∧
      ∀ i, i < 8 → some (t.data.getLsbD i) = bits[i]?

/-- R196 to R200: what the 1-Wire bit and byte commands leave alone, in every state; only `owi.rbit` and
`owi.rbyte` write DATA. -/
def Obligations.OwiFrame : Prop :=
  ∀ (i : Instr) (s t : State),
    i = .owiReset ∨ i = .owiWbit ∨ i = .owiRbit ∨ i = .owiWbyte ∨ i = .owiRbyte → exec i s = .next t →
    (i ≠ .owiRbit → i ≠ .owiRbyte → t.data = s.data) ∧ t.len = s.len ∧ t.flen = s.flen ∧ t.crc = s.crc ∧
    t.i2cAddr = s.i2cAddr ∧ sameI2c s t ∧ sameDiscovery s t ∧ sameMisuse s t ∧ sameOutside s t ∧ sameBuffers s t

/-- R201, R37: every step keeps the 1-Wire line released except inside a slot or reset pulse; so it is
released whenever BUSY = 0. -/
def Obligations.LineIsReleasedBetweenCommands : Prop :=
  (∀ s t : State, s.lineOk → step s = .next t → t.lineOk) ∧
  ∀ s : State, s.lineOk → s.busy = false → s.owiDrive = false

/-- R295, R192 to R195, R224: the microseconds each 1-Wire command takes, for any legal parameters, and with the
default times of R9: 800 and 90, so 720 for a byte and 18800 for a whole search. An abort at bit number n is at the
first bit number at which no device answers. That T_W1L is at most T_SLOT is a premise, since R9 does not say it. -/
def Obligations.OwiCommandDurations : Prop :=
  let durations := fun (s : State) (pulse slot : Nat) =>
    let lasts := fun (i : Instr) (us : Nat) => ∃ t : State, exec i s = .next t ∧ waited t.trace = waited s.trace + us
    lasts .owiReset pulse ∧ lasts .owiWbit slot ∧ lasts .owiRbit slot ∧ lasts .owiWbyte (8 * slot) ∧
    lasts .owiRbyte (8 * slot) ∧
    ∀ i : Instr, i = .owiSfirst ∨ i = .owiSnext → ∃ t : State, exec i s = .next t ∧ t.seq = .idle ∧
      ((t.result = .ok ∨ t.result = .eOwiCrc ∨ t.result = .eOwiFamily) ∧
        waited t.trace = waited s.trace + (pulse + 8 * slot + 192 * slot) ∨
       t.result = .eOwiNoPres ∧ waited t.trace = waited s.trace + pulse ∨
       t.result = .eOwiNoDev ∧ (∃ n, s.abortsAt n ∧
         waited t.trace = waited s.trace + (pulse + 8 * slot + (n - 1) * (3 * slot) + 2 * slot)) ∨
       t.result = .rOwiLast ∧ waited t.trace = waited s.trace)
  (∀ s : State, s.ready → s.params.legal = true → s.params.tW1l ≤ s.params.tSlot →
    durations s s.params.tRstEnd s.params.tSlot) ∧
  ∀ s : State, s.ready → s.params = Params.default → durations s 800 90

/-! ### Discovery -/

/-- R224, R226, R228, R229: a search completes whatever the line reads, and the samples decide how: R_OWI_LAST
only for `owi.snext` with LDF = 1; E_OWI_NOPRES exactly for a presence sample 1; E_OWI_NODEV exactly when no device
answers at some bit number; else ROM holds the 64 directions chosen and OWI_CRC8 their CRC-8, and the result is
E_OWI_CRC if that is not 0, E_OWI_FAMILY if it is 0 and so is ROM0, and OK otherwise. After OK the ROM is a valid
address, SRCH_LD is the highest bit number at which direction 0 was taken at a discrepancy, or 0; LDF = 1 exactly
when SRCH_LD = 0; SRCH_LFD is the highest such number within the first 8 bits, or, if there is none, what it
was (0 for `owi.sfirst`). On the bus are, in order, the reset pulse, the write slots of SEARCH_CMD, and for each
bit number two read slots and the write slot of the direction stored in ROM; a search with no presence ends after
the pulse, one that aborts at bit number n after the two read slots of n. The form of the CRC-8 is the spec's
reconstruction (PRESUMED, log 18). -/
def Obligations.SearchesComplete : Prop :=
  ∀ (i : Instr) (s : State), i = .owiSfirst ∨ i = .owiSnext → s.ready → ∃ t : State,
    exec i s = .next t ∧ t.seq = .idle ∧
    (i = .owiSnext → s.ldf = true → t.result = .rOwiLast ∧ t.trace = s.trace) ∧
    (i = .owiSfirst ∨ s.ldf = false →
      let ld := if i = .owiSfirst then 0 else s.srchLd.toNat
      let lfd := if i = .owiSfirst then 0 else s.srchLfd
      t.owiDrive = false ∧
      (s.sampleAt 0 = true → t.result = .eOwiNoPres ∧ t.trace = resetPulseTrace s.params true ++ s.trace) ∧
      (s.sampleAt 0 = false → ∀ n, s.abortsAt n →
        t.result = .eOwiNoDev ∧
        t.trace = readSlotTrace s.params true ++ (readSlotTrace s.params true ++
          (s.searchBitsTrace t.rom (n - 1) ++ s.searchStartTrace))) ∧
      (s.sampleAt 0 = false → (¬∃ n, s.abortsAt n) →
        s.chose ld 64 t.rom ∧ t.owiCrc8 = crc8 t.rom.toList ∧
        t.trace = s.searchBitsTrace t.rom 64 ++ s.searchStartTrace ∧
        t.result = (if t.owiCrc8 ≠ 0x00 then .eOwiCrc else if t.romByte 0 = 0x00 then .eOwiFamily else .ok)) ∧
      (t.result = .ok →
        romValid t.rom = true ∧ t.owiCrc8 = 0x00 ∧ (t.ldf = true ↔ t.srchLd = 0) ∧
        s.lastZero t.rom 64 t.srchLd.toNat ∧
        ∃ z, s.lastZero t.rom 8 z ∧ t.srchLfd = if z = 0 then lfd else BitVec.ofNat 8 z))

/-- R229, R224: `owi.snext` after the last device: R_OWI_LAST with no bus activity, the search state reset,
ROM and OWI_CRC8 unchanged. -/
def Obligations.SnextAfterLastDevice : Prop :=
  ∀ s : State, s.ready → s.ldf = true →
    exec .owiSnext s = .next { s with result := .rOwiLast, srchLd := 0, srchLfd := 0, ldf := false }

/-- R227, R223: a search that completes with any result but OK leaves the initial search state; with no
presence ROM and OWI_CRC8 are unchanged. An abort at bit number n, the first at which no device answers, leaves
the directions chosen in ROM bits 1..n-1, the ROM bits from n on as they were, and in OWI_CRC8 the CRC-8 of the
whole bytes before it; E_OWI_CRC and E_OWI_FAMILY leave all 64 directions and their CRC-8
(whose form is PRESUMED, log 18). -/
def Obligations.FailedSearchResetsTheSession : Prop :=
  ∀ (i : Instr) (s t : State), i = .owiSfirst ∨ i = .owiSnext → s.seq = .idle → exec i s = .next t →
    t.seq = .idle → t.result ≠ .ok →
    t.srchLd = 0 ∧ t.srchLfd = 0 ∧ t.ldf = false ∧
    (t.result = .eOwiNoPres → t.rom = s.rom ∧ t.owiCrc8 = s.owiCrc8) ∧
    (t.result = .eOwiNoDev → ∃ n, s.abortsAt n ∧
      s.chose (if i = .owiSfirst then 0 else s.srchLd.toNat) (n - 1) t.rom ∧
      (∀ m, n ≤ m → m ≤ 64 → romBitOf t.rom m = romBitOf s.rom m) ∧
      t.owiCrc8 = crc8 (t.rom.toList.take ((n - 1) / 8))) ∧
    (t.result = .eOwiCrc ∨ t.result = .eOwiFamily →
      s.chose (if i = .owiSfirst then 0 else s.srchLd.toNat) 64 t.rom ∧ t.owiCrc8 = crc8 t.rom.toList)

/-- R228, R229: what the search commands leave alone, in every state. -/
def Obligations.SearchFrame : Prop :=
  ∀ (i : Instr) (s t : State), i = .owiSfirst ∨ i = .owiSnext → exec i s = .next t →
    sameOperands s t ∧ sameI2c s t ∧ sameMisuse s t ∧ sameOutside s t ∧ sameBuffers s t

/-- R31, R226: every step keeps SRCH_LD in 0..64, SRCH_LFD in 0..8, and LDF = 1 only with SRCH_LD = 0. -/
def Obligations.DiscoveryRegistersStayLegal : Prop :=
  ∀ s t : State, s.discoveryOk → step s = .next t → t.discoveryOk

/-- R233: no command other than `owi.sfirst`, `owi.snext` and `sreset` changes the discovery state. -/
def Obligations.OtherCommandsKeepTheDiscoveryState : Prop :=
  ∀ (i : Instr) (s t : State), i ≠ .owiSfirst → i ≠ .owiSnext → i ≠ .sreset → exec i s = .next t →
    sameDiscovery s t

/-- R230: with at least one device connected, and all of them valid, a search ends OK on the ROM of a
connected device. The devices are those of R230 (PRESUMED, log 17). -/
def Obligations.SearchFindsAConnectedDevice : Prop :=
  ∀ (devs : List (Vector Byte 8)) (first : Bool) (s : State),
    devs ≠ [] → (∀ rom ∈ devs, romValid rom = true) → s.ready → (first = true ∨ s.ldf = false) →
    ∃ t : State, searchCall devs first s = .next t ∧ t.seq = .idle ∧ t.result = .ok ∧ t.rom ∈ devs

/-- R231: a session with N distinct valid devices finds each of them once, in increasing lexicographic order of
their bit strings, on its first N calls, and the next call gives R_OWI_LAST. The devices are those of R230
(PRESUMED, log 17). -/
def Obligations.SessionFindsEveryDeviceOnce : Prop :=
  ∀ (devs : List (Vector Byte 8)) (s : State),
    devs ≠ [] → devs.Nodup → (∀ rom ∈ devs, romValid rom = true) → s.ready →
    ∃ (found : List (Vector Byte 8)) (last : Vector Byte 8),
      found.Perm devs ∧ found.Pairwise romBefore ∧
      sessionFrom devs true (devs.length + 1) s = found.map (fun rom => (.ok, rom)) ++ [(.rOwiLast, last)]

/-- R231, R230: with no device connected, a search call that gets to the bus ends with E_OWI_NOPRES. The
bus is that of R230 (PRESUMED, log 17). -/
def Obligations.EmptyBusHasNoPresence : Prop :=
  ∀ (first : Bool) (s : State), s.ready → (first = true ∨ s.ldf = false) →
    ∃ t : State, searchCall [] first s = .next t ∧ t.seq = .idle ∧ t.result = .eOwiNoPres ∧ t.rom = s.rom

/-- R231, R227: a device that advertises an invalid CRC-8 makes the search fail with E_OWI_CRC, with its bits in
the ROM and the search state reset. The device is one of R230 (PRESUMED, log 17). -/
def Obligations.InvalidDeviceFailsTheSearch : Prop :=
  ∀ (rom : Vector Byte 8) (first : Bool) (s : State),
    crc8 (rom.toList.take 7) ≠ romByteOf rom 7 → s.ready → (first = true ∨ s.ldf = false) →
    ∃ t : State, searchCall [rom] first s = .next t ∧ t.seq = .idle ∧ t.result = .eOwiCrc ∧ t.rom = rom ∧
      t.srchLd = 0 ∧ t.srchLfd = 0 ∧ t.ldf = false

/-- R222: the CRC-8 of a sequence followed by a byte is zero exactly when the byte is the CRC-8 of the
sequence, so the zero test at the end of a search is the check of R220. The form of the CRC-8 is the
spec's reconstruction (PRESUMED, log 18). -/
def Obligations.Crc8ZeroTestIsTheByteCheck : Prop :=
  ∀ (bytes : List Byte) (b : Byte), crc8 (bytes ++ [b]) = 0x00 ↔ b = crc8 bytes

/-! ### The whole machine -/

/-- R34, R35, R61: every step keeps the memory of the buffers in its canonical form, the written bytes of RAW and
FRAME listed in rising order of offset. That form, and listing only bytes written since reset, is the model's
choice (log 5). R9: no step changes the parameters. That `State` carries them is the model's choice (log 6). -/
def Obligations.MemoryAndParametersAreKept : Prop :=
  (∀ s t : State, s.memoryOk → step s = .next t → t.memoryOk) ∧
  ∀ s t : State, step s = .next t → t.params = s.params

/-- The state after reset meets every invariant stated here, and the parameters there are the defaults of R9, which
are legal. -/
def Obligations.ResetMeetsTheInvariants : Prop :=
  State.reset.memoryOk ∧ State.reset.discoveryOk ∧ State.reset.lineOk ∧ State.reset.busOk ∧
  State.reset.params = {
    tRstl := 500, tPds := 70, tRstEnd := 800, tW1l := 8, tW0l := 80, tRl := 2, tMsr := 12, tSlot := 90
    searchCmd := 0xF0 } ∧
  (State.reset.params.legal = true ∧ ∀ p : Params, p.legal = true ↔
    600 ≤ p.tRstEnd ∧ p.tRstEnd ≤ 800 ∧ 7 ≤ p.tMsr ∧ p.tMsr ≤ 15 ∧ p.tRstl + p.tPds < p.tRstEnd ∧
      p.tW0l < p.tSlot ∧ p.tRl < p.tMsr ∧ p.tMsr < p.tSlot)

/-- R250: no command faults or is refused; each always answers a next state. -/
def Obligations.NoCommandStops : Prop :=
  (∀ (i : Instr) (s : State), ∃ t, exec i s = .next t) ∧
  ∀ (w : Byte) (s : State), ∃ t, execIllegal w s = .next t
end

