-- ==== Sys2Proof/Laws/State.lean ====
section
/-! SUPPORT. What each named update of State does to each field. -/

namespace Sys2Proof.Machine

variable (s : State)

/-! ### emit -/

@[simp] theorem emit_result (e : BusEvent) : (s.emit e).result = s.result := rfl
@[simp] theorem emit_cmdOvr (e : BusEvent) : (s.emit e).cmdOvr = s.cmdOvr := rfl
@[simp] theorem emit_accErr (e : BusEvent) : (s.emit e).accErr = s.accErr := rfl
@[simp] theorem emit_data (e : BusEvent) : (s.emit e).data = s.data := rfl
@[simp] theorem emit_len (e : BusEvent) : (s.emit e).len = s.len := rfl
@[simp] theorem emit_flen (e : BusEvent) : (s.emit e).flen = s.flen := rfl
@[simp] theorem emit_crc (e : BusEvent) : (s.emit e).crc = s.crc := rfl
@[simp] theorem emit_i2cAddr (e : BusEvent) : (s.emit e).i2cAddr = s.i2cAddr := rfl
@[simp] theorem emit_i2cCode (e : BusEvent) : (s.emit e).i2cCode = s.i2cCode := rfl
@[simp] theorem emit_i2cOpen (e : BusEvent) : (s.emit e).i2cOpen = s.i2cOpen := rfl
@[simp] theorem emit_i2cDir (e : BusEvent) : (s.emit e).i2cDir = s.i2cDir := rfl
@[simp] theorem emit_srchLd (e : BusEvent) : (s.emit e).srchLd = s.srchLd := rfl
@[simp] theorem emit_srchLfd (e : BusEvent) : (s.emit e).srchLfd = s.srchLfd := rfl
@[simp] theorem emit_ldf (e : BusEvent) : (s.emit e).ldf = s.ldf := rfl
@[simp] theorem emit_rom (e : BusEvent) : (s.emit e).rom = s.rom := rfl
@[simp] theorem emit_owiCrc8 (e : BusEvent) : (s.emit e).owiCrc8 = s.owiCrc8 := rfl
@[simp] theorem emit_mem (e : BusEvent) : (s.emit e).mem = s.mem := rfl
@[simp] theorem emit_seq (e : BusEvent) : (s.emit e).seq = s.seq := rfl
@[simp] theorem emit_owiDrive (e : BusEvent) : (s.emit e).owiDrive = s.owiDrive := rfl
@[simp] theorem emit_i2cHeld (e : BusEvent) : (s.emit e).i2cHeld = s.i2cHeld := rfl
@[simp] theorem emit_params (e : BusEvent) : (s.emit e).params = s.params := rfl
@[simp] theorem emit_resetLine (e : BusEvent) : (s.emit e).resetLine = s.resetLine := rfl
@[simp] theorem emit_host (e : BusEvent) : (s.emit e).host = s.host := rfl
@[simp] theorem emit_reads (e : BusEvent) : (s.emit e).reads = s.reads := rfl
@[simp] theorem emit_owiScript (e : BusEvent) : (s.emit e).owiScript = s.owiScript := rfl
@[simp] theorem emit_i2cScript (e : BusEvent) : (s.emit e).i2cScript = s.i2cScript := rfl
@[simp] theorem emit_draws (e : BusEvent) : (s.emit e).draws = s.draws := rfl
@[simp] theorem emit_epoch (e : BusEvent) : (s.emit e).epoch = s.epoch := rfl
@[simp] theorem emit_trace (e : BusEvent) : (s.emit e).trace = e :: s.trace := rfl

/-! ### complete -/

@[simp] theorem complete_result (r : Result) : (s.complete r).result = r := rfl
@[simp] theorem complete_cmdOvr (r : Result) : (s.complete r).cmdOvr = s.cmdOvr := rfl
@[simp] theorem complete_accErr (r : Result) : (s.complete r).accErr = s.accErr := rfl
@[simp] theorem complete_data (r : Result) : (s.complete r).data = s.data := rfl
@[simp] theorem complete_len (r : Result) : (s.complete r).len = s.len := rfl
@[simp] theorem complete_flen (r : Result) : (s.complete r).flen = s.flen := rfl
@[simp] theorem complete_crc (r : Result) : (s.complete r).crc = s.crc := rfl
@[simp] theorem complete_i2cAddr (r : Result) : (s.complete r).i2cAddr = s.i2cAddr := rfl
@[simp] theorem complete_i2cCode (r : Result) : (s.complete r).i2cCode = s.i2cCode := rfl
@[simp] theorem complete_i2cOpen (r : Result) : (s.complete r).i2cOpen = s.i2cOpen := rfl
@[simp] theorem complete_i2cDir (r : Result) : (s.complete r).i2cDir = s.i2cDir := rfl
@[simp] theorem complete_srchLd (r : Result) : (s.complete r).srchLd = s.srchLd := rfl
@[simp] theorem complete_srchLfd (r : Result) : (s.complete r).srchLfd = s.srchLfd := rfl
@[simp] theorem complete_ldf (r : Result) : (s.complete r).ldf = s.ldf := rfl
@[simp] theorem complete_rom (r : Result) : (s.complete r).rom = s.rom := rfl
@[simp] theorem complete_owiCrc8 (r : Result) : (s.complete r).owiCrc8 = s.owiCrc8 := rfl
@[simp] theorem complete_mem (r : Result) : (s.complete r).mem = s.mem := rfl
@[simp] theorem complete_seq (r : Result) : (s.complete r).seq = .idle := rfl
@[simp] theorem complete_owiDrive (r : Result) : (s.complete r).owiDrive = s.owiDrive := rfl
@[simp] theorem complete_i2cHeld (r : Result) : (s.complete r).i2cHeld = s.i2cHeld := rfl
@[simp] theorem complete_params (r : Result) : (s.complete r).params = s.params := rfl
@[simp] theorem complete_resetLine (r : Result) : (s.complete r).resetLine = s.resetLine := rfl
@[simp] theorem complete_host (r : Result) : (s.complete r).host = s.host := rfl
@[simp] theorem complete_reads (r : Result) : (s.complete r).reads = s.reads := rfl
@[simp] theorem complete_owiScript (r : Result) : (s.complete r).owiScript = s.owiScript := rfl
@[simp] theorem complete_i2cScript (r : Result) : (s.complete r).i2cScript = s.i2cScript := rfl
@[simp] theorem complete_draws (r : Result) : (s.complete r).draws = s.draws := rfl
@[simp] theorem complete_epoch (r : Result) : (s.complete r).epoch = s.epoch := rfl
@[simp] theorem complete_trace (r : Result) : (s.complete r).trace = s.trace := rfl

/-! ### owiDriveLow -/

@[simp] theorem owiDriveLow_result : (s.owiDriveLow).result = s.result := rfl
@[simp] theorem owiDriveLow_cmdOvr : (s.owiDriveLow).cmdOvr = s.cmdOvr := rfl
@[simp] theorem owiDriveLow_accErr : (s.owiDriveLow).accErr = s.accErr := rfl
@[simp] theorem owiDriveLow_data : (s.owiDriveLow).data = s.data := rfl
@[simp] theorem owiDriveLow_len : (s.owiDriveLow).len = s.len := rfl
@[simp] theorem owiDriveLow_flen : (s.owiDriveLow).flen = s.flen := rfl
@[simp] theorem owiDriveLow_crc : (s.owiDriveLow).crc = s.crc := rfl
@[simp] theorem owiDriveLow_i2cAddr : (s.owiDriveLow).i2cAddr = s.i2cAddr := rfl
@[simp] theorem owiDriveLow_i2cCode : (s.owiDriveLow).i2cCode = s.i2cCode := rfl
@[simp] theorem owiDriveLow_i2cOpen : (s.owiDriveLow).i2cOpen = s.i2cOpen := rfl
@[simp] theorem owiDriveLow_i2cDir : (s.owiDriveLow).i2cDir = s.i2cDir := rfl
@[simp] theorem owiDriveLow_srchLd : (s.owiDriveLow).srchLd = s.srchLd := rfl
@[simp] theorem owiDriveLow_srchLfd : (s.owiDriveLow).srchLfd = s.srchLfd := rfl
@[simp] theorem owiDriveLow_ldf : (s.owiDriveLow).ldf = s.ldf := rfl
@[simp] theorem owiDriveLow_rom : (s.owiDriveLow).rom = s.rom := rfl
@[simp] theorem owiDriveLow_owiCrc8 : (s.owiDriveLow).owiCrc8 = s.owiCrc8 := rfl
@[simp] theorem owiDriveLow_mem : (s.owiDriveLow).mem = s.mem := rfl
@[simp] theorem owiDriveLow_seq : (s.owiDriveLow).seq = s.seq := rfl
@[simp] theorem owiDriveLow_owiDrive : (s.owiDriveLow).owiDrive = true := rfl
@[simp] theorem owiDriveLow_i2cHeld : (s.owiDriveLow).i2cHeld = s.i2cHeld := rfl
@[simp] theorem owiDriveLow_params : (s.owiDriveLow).params = s.params := rfl
@[simp] theorem owiDriveLow_resetLine : (s.owiDriveLow).resetLine = s.resetLine := rfl
@[simp] theorem owiDriveLow_host : (s.owiDriveLow).host = s.host := rfl
@[simp] theorem owiDriveLow_reads : (s.owiDriveLow).reads = s.reads := rfl
@[simp] theorem owiDriveLow_owiScript : (s.owiDriveLow).owiScript = s.owiScript := rfl
@[simp] theorem owiDriveLow_i2cScript : (s.owiDriveLow).i2cScript = s.i2cScript := rfl
@[simp] theorem owiDriveLow_draws : (s.owiDriveLow).draws = s.draws := rfl
@[simp] theorem owiDriveLow_epoch : (s.owiDriveLow).epoch = s.epoch := rfl
@[simp] theorem owiDriveLow_trace : (s.owiDriveLow).trace = .owiLow :: s.trace := rfl

/-! ### owiRelease -/

@[simp] theorem owiRelease_result : (s.owiRelease).result = s.result := rfl
@[simp] theorem owiRelease_cmdOvr : (s.owiRelease).cmdOvr = s.cmdOvr := rfl
@[simp] theorem owiRelease_accErr : (s.owiRelease).accErr = s.accErr := rfl
@[simp] theorem owiRelease_data : (s.owiRelease).data = s.data := rfl
@[simp] theorem owiRelease_len : (s.owiRelease).len = s.len := rfl
@[simp] theorem owiRelease_flen : (s.owiRelease).flen = s.flen := rfl
@[simp] theorem owiRelease_crc : (s.owiRelease).crc = s.crc := rfl
@[simp] theorem owiRelease_i2cAddr : (s.owiRelease).i2cAddr = s.i2cAddr := rfl
@[simp] theorem owiRelease_i2cCode : (s.owiRelease).i2cCode = s.i2cCode := rfl
@[simp] theorem owiRelease_i2cOpen : (s.owiRelease).i2cOpen = s.i2cOpen := rfl
@[simp] theorem owiRelease_i2cDir : (s.owiRelease).i2cDir = s.i2cDir := rfl
@[simp] theorem owiRelease_srchLd : (s.owiRelease).srchLd = s.srchLd := rfl
@[simp] theorem owiRelease_srchLfd : (s.owiRelease).srchLfd = s.srchLfd := rfl
@[simp] theorem owiRelease_ldf : (s.owiRelease).ldf = s.ldf := rfl
@[simp] theorem owiRelease_rom : (s.owiRelease).rom = s.rom := rfl
@[simp] theorem owiRelease_owiCrc8 : (s.owiRelease).owiCrc8 = s.owiCrc8 := rfl
@[simp] theorem owiRelease_mem : (s.owiRelease).mem = s.mem := rfl
@[simp] theorem owiRelease_seq : (s.owiRelease).seq = s.seq := rfl
@[simp] theorem owiRelease_owiDrive : (s.owiRelease).owiDrive = false := rfl
@[simp] theorem owiRelease_i2cHeld : (s.owiRelease).i2cHeld = s.i2cHeld := rfl
@[simp] theorem owiRelease_params : (s.owiRelease).params = s.params := rfl
@[simp] theorem owiRelease_resetLine : (s.owiRelease).resetLine = s.resetLine := rfl
@[simp] theorem owiRelease_host : (s.owiRelease).host = s.host := rfl
@[simp] theorem owiRelease_reads : (s.owiRelease).reads = s.reads := rfl
@[simp] theorem owiRelease_owiScript : (s.owiRelease).owiScript = s.owiScript := rfl
@[simp] theorem owiRelease_i2cScript : (s.owiRelease).i2cScript = s.i2cScript := rfl
@[simp] theorem owiRelease_draws : (s.owiRelease).draws = s.draws := rfl
@[simp] theorem owiRelease_epoch : (s.owiRelease).epoch = s.epoch := rfl
@[simp] theorem owiRelease_trace : (s.owiRelease).trace = .owiRelease :: s.trace := rfl

/-! ### resetSearch -/

@[simp] theorem resetSearch_result : (s.resetSearch).result = s.result := rfl
@[simp] theorem resetSearch_cmdOvr : (s.resetSearch).cmdOvr = s.cmdOvr := rfl
@[simp] theorem resetSearch_accErr : (s.resetSearch).accErr = s.accErr := rfl
@[simp] theorem resetSearch_data : (s.resetSearch).data = s.data := rfl
@[simp] theorem resetSearch_len : (s.resetSearch).len = s.len := rfl
@[simp] theorem resetSearch_flen : (s.resetSearch).flen = s.flen := rfl
@[simp] theorem resetSearch_crc : (s.resetSearch).crc = s.crc := rfl
@[simp] theorem resetSearch_i2cAddr : (s.resetSearch).i2cAddr = s.i2cAddr := rfl
@[simp] theorem resetSearch_i2cCode : (s.resetSearch).i2cCode = s.i2cCode := rfl
@[simp] theorem resetSearch_i2cOpen : (s.resetSearch).i2cOpen = s.i2cOpen := rfl
@[simp] theorem resetSearch_i2cDir : (s.resetSearch).i2cDir = s.i2cDir := rfl
@[simp] theorem resetSearch_srchLd : (s.resetSearch).srchLd = 0 := rfl
@[simp] theorem resetSearch_srchLfd : (s.resetSearch).srchLfd = 0 := rfl
@[simp] theorem resetSearch_ldf : (s.resetSearch).ldf = false := rfl
@[simp] theorem resetSearch_rom : (s.resetSearch).rom = s.rom := rfl
@[simp] theorem resetSearch_owiCrc8 : (s.resetSearch).owiCrc8 = s.owiCrc8 := rfl
@[simp] theorem resetSearch_mem : (s.resetSearch).mem = s.mem := rfl
@[simp] theorem resetSearch_seq : (s.resetSearch).seq = s.seq := rfl
@[simp] theorem resetSearch_owiDrive : (s.resetSearch).owiDrive = s.owiDrive := rfl
@[simp] theorem resetSearch_i2cHeld : (s.resetSearch).i2cHeld = s.i2cHeld := rfl
@[simp] theorem resetSearch_params : (s.resetSearch).params = s.params := rfl
@[simp] theorem resetSearch_resetLine : (s.resetSearch).resetLine = s.resetLine := rfl
@[simp] theorem resetSearch_host : (s.resetSearch).host = s.host := rfl
@[simp] theorem resetSearch_reads : (s.resetSearch).reads = s.reads := rfl
@[simp] theorem resetSearch_owiScript : (s.resetSearch).owiScript = s.owiScript := rfl
@[simp] theorem resetSearch_i2cScript : (s.resetSearch).i2cScript = s.i2cScript := rfl
@[simp] theorem resetSearch_draws : (s.resetSearch).draws = s.draws := rfl
@[simp] theorem resetSearch_epoch : (s.resetSearch).epoch = s.epoch := rfl
@[simp] theorem resetSearch_trace : (s.resetSearch).trace = s.trace := rfl

/-! ### setRomBit -/

@[simp] theorem setRomBit_result (n : Nat) (d : Bool) : (s.setRomBit n d).result = s.result := rfl
@[simp] theorem setRomBit_cmdOvr (n : Nat) (d : Bool) : (s.setRomBit n d).cmdOvr = s.cmdOvr := rfl
@[simp] theorem setRomBit_accErr (n : Nat) (d : Bool) : (s.setRomBit n d).accErr = s.accErr := rfl
@[simp] theorem setRomBit_data (n : Nat) (d : Bool) : (s.setRomBit n d).data = s.data := rfl
@[simp] theorem setRomBit_len (n : Nat) (d : Bool) : (s.setRomBit n d).len = s.len := rfl
@[simp] theorem setRomBit_flen (n : Nat) (d : Bool) : (s.setRomBit n d).flen = s.flen := rfl
@[simp] theorem setRomBit_crc (n : Nat) (d : Bool) : (s.setRomBit n d).crc = s.crc := rfl
@[simp] theorem setRomBit_i2cAddr (n : Nat) (d : Bool) : (s.setRomBit n d).i2cAddr = s.i2cAddr := rfl
@[simp] theorem setRomBit_i2cCode (n : Nat) (d : Bool) : (s.setRomBit n d).i2cCode = s.i2cCode := rfl
@[simp] theorem setRomBit_i2cOpen (n : Nat) (d : Bool) : (s.setRomBit n d).i2cOpen = s.i2cOpen := rfl
@[simp] theorem setRomBit_i2cDir (n : Nat) (d : Bool) : (s.setRomBit n d).i2cDir = s.i2cDir := rfl
@[simp] theorem setRomBit_srchLd (n : Nat) (d : Bool) : (s.setRomBit n d).srchLd = s.srchLd := rfl
@[simp] theorem setRomBit_srchLfd (n : Nat) (d : Bool) : (s.setRomBit n d).srchLfd = s.srchLfd := rfl
@[simp] theorem setRomBit_ldf (n : Nat) (d : Bool) : (s.setRomBit n d).ldf = s.ldf := rfl
@[simp] theorem setRomBit_rom (n : Nat) (d : Bool) : (s.setRomBit n d).rom = setRomBitOf s.rom n d := rfl
@[simp] theorem setRomBit_owiCrc8 (n : Nat) (d : Bool) : (s.setRomBit n d).owiCrc8 = s.owiCrc8 := rfl
@[simp] theorem setRomBit_mem (n : Nat) (d : Bool) : (s.setRomBit n d).mem = s.mem := rfl
@[simp] theorem setRomBit_seq (n : Nat) (d : Bool) : (s.setRomBit n d).seq = s.seq := rfl
@[simp] theorem setRomBit_owiDrive (n : Nat) (d : Bool) : (s.setRomBit n d).owiDrive = s.owiDrive := rfl
@[simp] theorem setRomBit_i2cHeld (n : Nat) (d : Bool) : (s.setRomBit n d).i2cHeld = s.i2cHeld := rfl
@[simp] theorem setRomBit_params (n : Nat) (d : Bool) : (s.setRomBit n d).params = s.params := rfl
@[simp] theorem setRomBit_resetLine (n : Nat) (d : Bool) : (s.setRomBit n d).resetLine = s.resetLine := rfl
@[simp] theorem setRomBit_host (n : Nat) (d : Bool) : (s.setRomBit n d).host = s.host := rfl
@[simp] theorem setRomBit_reads (n : Nat) (d : Bool) : (s.setRomBit n d).reads = s.reads := rfl
@[simp] theorem setRomBit_owiScript (n : Nat) (d : Bool) : (s.setRomBit n d).owiScript = s.owiScript := rfl
@[simp] theorem setRomBit_i2cScript (n : Nat) (d : Bool) : (s.setRomBit n d).i2cScript = s.i2cScript := rfl
@[simp] theorem setRomBit_draws (n : Nat) (d : Bool) : (s.setRomBit n d).draws = s.draws := rfl
@[simp] theorem setRomBit_epoch (n : Nat) (d : Bool) : (s.setRomBit n d).epoch = s.epoch := rfl
@[simp] theorem setRomBit_trace (n : Nat) (d : Bool) : (s.setRomBit n d).trace = s.trace := rfl

/-! ### clearStatus -/

@[simp] theorem clearStatus_result (v : Byte) : (s.clearStatus v).result = s.result := rfl
@[simp] theorem clearStatus_cmdOvr (v : Byte) : (s.clearStatus v).cmdOvr = (s.cmdOvr && !v.getLsbD 2) := rfl
@[simp] theorem clearStatus_accErr (v : Byte) : (s.clearStatus v).accErr = (s.accErr && !v.getLsbD 3) := rfl
@[simp] theorem clearStatus_data (v : Byte) : (s.clearStatus v).data = s.data := rfl
@[simp] theorem clearStatus_len (v : Byte) : (s.clearStatus v).len = s.len := rfl
@[simp] theorem clearStatus_flen (v : Byte) : (s.clearStatus v).flen = s.flen := rfl
@[simp] theorem clearStatus_crc (v : Byte) : (s.clearStatus v).crc = s.crc := rfl
@[simp] theorem clearStatus_i2cAddr (v : Byte) : (s.clearStatus v).i2cAddr = s.i2cAddr := rfl
@[simp] theorem clearStatus_i2cCode (v : Byte) : (s.clearStatus v).i2cCode = s.i2cCode := rfl
@[simp] theorem clearStatus_i2cOpen (v : Byte) : (s.clearStatus v).i2cOpen = s.i2cOpen := rfl
@[simp] theorem clearStatus_i2cDir (v : Byte) : (s.clearStatus v).i2cDir = s.i2cDir := rfl
@[simp] theorem clearStatus_srchLd (v : Byte) : (s.clearStatus v).srchLd = s.srchLd := rfl
@[simp] theorem clearStatus_srchLfd (v : Byte) : (s.clearStatus v).srchLfd = s.srchLfd := rfl
@[simp] theorem clearStatus_ldf (v : Byte) : (s.clearStatus v).ldf = s.ldf := rfl
@[simp] theorem clearStatus_rom (v : Byte) : (s.clearStatus v).rom = s.rom := rfl
@[simp] theorem clearStatus_owiCrc8 (v : Byte) : (s.clearStatus v).owiCrc8 = s.owiCrc8 := rfl
@[simp] theorem clearStatus_mem (v : Byte) : (s.clearStatus v).mem = s.mem := rfl
@[simp] theorem clearStatus_seq (v : Byte) : (s.clearStatus v).seq = s.seq := rfl
@[simp] theorem clearStatus_owiDrive (v : Byte) : (s.clearStatus v).owiDrive = s.owiDrive := rfl
@[simp] theorem clearStatus_i2cHeld (v : Byte) : (s.clearStatus v).i2cHeld = s.i2cHeld := rfl
@[simp] theorem clearStatus_params (v : Byte) : (s.clearStatus v).params = s.params := rfl
@[simp] theorem clearStatus_resetLine (v : Byte) : (s.clearStatus v).resetLine = s.resetLine := rfl
@[simp] theorem clearStatus_host (v : Byte) : (s.clearStatus v).host = s.host := rfl
@[simp] theorem clearStatus_reads (v : Byte) : (s.clearStatus v).reads = s.reads := rfl
@[simp] theorem clearStatus_owiScript (v : Byte) : (s.clearStatus v).owiScript = s.owiScript := rfl
@[simp] theorem clearStatus_i2cScript (v : Byte) : (s.clearStatus v).i2cScript = s.i2cScript := rfl
@[simp] theorem clearStatus_draws (v : Byte) : (s.clearStatus v).draws = s.draws := rfl
@[simp] theorem clearStatus_epoch (v : Byte) : (s.clearStatus v).epoch = s.epoch := rfl
@[simp] theorem clearStatus_trace (v : Byte) : (s.clearStatus v).trace = s.trace := rfl

/-! ### softClear -/

@[simp] theorem softClear_result : (s.softClear).result = s.result := rfl
@[simp] theorem softClear_cmdOvr : (s.softClear).cmdOvr = false := rfl
@[simp] theorem softClear_accErr : (s.softClear).accErr = false := rfl
@[simp] theorem softClear_data : (s.softClear).data = 0 := rfl
@[simp] theorem softClear_len : (s.softClear).len = 0 := rfl
@[simp] theorem softClear_flen : (s.softClear).flen = 0 := rfl
@[simp] theorem softClear_crc : (s.softClear).crc = 0 := rfl
@[simp] theorem softClear_i2cAddr : (s.softClear).i2cAddr = 0 := rfl
@[simp] theorem softClear_i2cCode : (s.softClear).i2cCode = .idle := rfl
@[simp] theorem softClear_i2cOpen : (s.softClear).i2cOpen = false := rfl
@[simp] theorem softClear_i2cDir : (s.softClear).i2cDir = false := rfl
@[simp] theorem softClear_srchLd : (s.softClear).srchLd = 0 := rfl
@[simp] theorem softClear_srchLfd : (s.softClear).srchLfd = 0 := rfl
@[simp] theorem softClear_ldf : (s.softClear).ldf = false := rfl
@[simp] theorem softClear_rom : (s.softClear).rom = Vector.replicate 8 0 := rfl
@[simp] theorem softClear_owiCrc8 : (s.softClear).owiCrc8 = 0 := rfl
@[simp] theorem softClear_mem : (s.softClear).mem = s.mem := rfl
@[simp] theorem softClear_seq : (s.softClear).seq = s.seq := rfl
@[simp] theorem softClear_owiDrive : (s.softClear).owiDrive = false := rfl
@[simp] theorem softClear_i2cHeld : (s.softClear).i2cHeld = s.i2cHeld := rfl
@[simp] theorem softClear_params : (s.softClear).params = s.params := rfl
@[simp] theorem softClear_resetLine : (s.softClear).resetLine = s.resetLine := rfl
@[simp] theorem softClear_host : (s.softClear).host = s.host := rfl
@[simp] theorem softClear_reads : (s.softClear).reads = s.reads := rfl
@[simp] theorem softClear_owiScript : (s.softClear).owiScript = s.owiScript := rfl
@[simp] theorem softClear_i2cScript : (s.softClear).i2cScript = s.i2cScript := rfl
@[simp] theorem softClear_draws : (s.softClear).draws = s.draws := rfl
@[simp] theorem softClear_epoch : (s.softClear).epoch = s.epoch := rfl
@[simp] theorem softClear_trace : (s.softClear).trace = s.trace := rfl

/-! ### begin -/

@[simp] theorem begin_result (w : Byte) : (s.begin w).result = s.result := by
  unfold State.begin; split <;> rfl
@[simp] theorem begin_cmdOvr (w : Byte) : (s.begin w).cmdOvr = s.cmdOvr := by
  unfold State.begin; split <;> rfl
@[simp] theorem begin_accErr (w : Byte) : (s.begin w).accErr = s.accErr := by
  unfold State.begin; split <;> rfl
@[simp] theorem begin_data (w : Byte) : (s.begin w).data = s.data := by
  unfold State.begin; split <;> rfl
@[simp] theorem begin_len (w : Byte) : (s.begin w).len = s.len := by
  unfold State.begin; split <;> rfl
@[simp] theorem begin_flen (w : Byte) : (s.begin w).flen = s.flen := by
  unfold State.begin; split <;> rfl
@[simp] theorem begin_crc (w : Byte) : (s.begin w).crc = s.crc := by
  unfold State.begin; split <;> rfl
@[simp] theorem begin_i2cAddr (w : Byte) : (s.begin w).i2cAddr = s.i2cAddr := by
  unfold State.begin; split <;> rfl
@[simp] theorem begin_i2cCode (w : Byte) : (s.begin w).i2cCode = s.i2cCode := by
  unfold State.begin; split <;> rfl
@[simp] theorem begin_i2cOpen (w : Byte) : (s.begin w).i2cOpen = s.i2cOpen := by
  unfold State.begin; split <;> rfl
@[simp] theorem begin_i2cDir (w : Byte) : (s.begin w).i2cDir = s.i2cDir := by
  unfold State.begin; split <;> rfl
@[simp] theorem begin_srchLd (w : Byte) : (s.begin w).srchLd = s.srchLd := by
  unfold State.begin; split <;> rfl
@[simp] theorem begin_srchLfd (w : Byte) : (s.begin w).srchLfd = s.srchLfd := by
  unfold State.begin; split <;> rfl
@[simp] theorem begin_ldf (w : Byte) : (s.begin w).ldf = s.ldf := by
  unfold State.begin; split <;> rfl
@[simp] theorem begin_rom (w : Byte) : (s.begin w).rom = s.rom := by
  unfold State.begin; split <;> rfl
@[simp] theorem begin_owiCrc8 (w : Byte) : (s.begin w).owiCrc8 = s.owiCrc8 := by
  unfold State.begin; split <;> rfl
@[simp] theorem begin_mem (w : Byte) : (s.begin w).mem = s.mem := by
  unfold State.begin; split <;> rfl
@[simp] theorem begin_owiDrive (w : Byte) : (s.begin w).owiDrive = s.owiDrive := by
  unfold State.begin; split <;> rfl
@[simp] theorem begin_i2cHeld (w : Byte) : (s.begin w).i2cHeld = s.i2cHeld := by
  unfold State.begin; split <;> rfl
@[simp] theorem begin_params (w : Byte) : (s.begin w).params = s.params := by
  unfold State.begin; split <;> rfl
@[simp] theorem begin_resetLine (w : Byte) : (s.begin w).resetLine = s.resetLine := by
  unfold State.begin; split <;> rfl
@[simp] theorem begin_host (w : Byte) : (s.begin w).host = s.host := by
  unfold State.begin; split <;> rfl
@[simp] theorem begin_reads (w : Byte) : (s.begin w).reads = s.reads := by
  unfold State.begin; split <;> rfl
@[simp] theorem begin_owiScript (w : Byte) : (s.begin w).owiScript = s.owiScript := by
  unfold State.begin; split <;> rfl
@[simp] theorem begin_i2cScript (w : Byte) : (s.begin w).i2cScript = s.i2cScript := by
  unfold State.begin; split <;> rfl
@[simp] theorem begin_draws (w : Byte) : (s.begin w).draws = s.draws := by
  unfold State.begin; split <;> rfl
@[simp] theorem begin_epoch (w : Byte) : (s.begin w).epoch = s.epoch := by
  unfold State.begin; split <;> rfl
@[simp] theorem begin_trace (w : Byte) : (s.begin w).trace = s.trace := by
  unfold State.begin; split <;> rfl

/-! ### passPoint -/

@[simp] theorem passPoint_result : (s.passPoint).result = s.result := by
  unfold State.passPoint; split <;> [rfl; split <;> rfl]
@[simp] theorem passPoint_cmdOvr : (s.passPoint).cmdOvr = s.cmdOvr := by
  unfold State.passPoint; split <;> [rfl; split <;> rfl]
@[simp] theorem passPoint_accErr : (s.passPoint).accErr = s.accErr := by
  unfold State.passPoint; split <;> [rfl; split <;> rfl]
@[simp] theorem passPoint_data : (s.passPoint).data = s.data := by
  unfold State.passPoint; split <;> [rfl; split <;> rfl]
@[simp] theorem passPoint_len : (s.passPoint).len = s.len := by
  unfold State.passPoint; split <;> [rfl; split <;> rfl]
@[simp] theorem passPoint_flen : (s.passPoint).flen = s.flen := by
  unfold State.passPoint; split <;> [rfl; split <;> rfl]
@[simp] theorem passPoint_crc : (s.passPoint).crc = s.crc := by
  unfold State.passPoint; split <;> [rfl; split <;> rfl]
@[simp] theorem passPoint_i2cAddr : (s.passPoint).i2cAddr = s.i2cAddr := by
  unfold State.passPoint; split <;> [rfl; split <;> rfl]
@[simp] theorem passPoint_i2cCode : (s.passPoint).i2cCode = s.i2cCode := by
  unfold State.passPoint; split <;> [rfl; split <;> rfl]
@[simp] theorem passPoint_i2cOpen : (s.passPoint).i2cOpen = s.i2cOpen := by
  unfold State.passPoint; split <;> [rfl; split <;> rfl]
@[simp] theorem passPoint_i2cDir : (s.passPoint).i2cDir = s.i2cDir := by
  unfold State.passPoint; split <;> [rfl; split <;> rfl]
@[simp] theorem passPoint_srchLd : (s.passPoint).srchLd = s.srchLd := by
  unfold State.passPoint; split <;> [rfl; split <;> rfl]
@[simp] theorem passPoint_srchLfd : (s.passPoint).srchLfd = s.srchLfd := by
  unfold State.passPoint; split <;> [rfl; split <;> rfl]
@[simp] theorem passPoint_ldf : (s.passPoint).ldf = s.ldf := by
  unfold State.passPoint; split <;> [rfl; split <;> rfl]
@[simp] theorem passPoint_rom : (s.passPoint).rom = s.rom := by
  unfold State.passPoint; split <;> [rfl; split <;> rfl]
@[simp] theorem passPoint_owiCrc8 : (s.passPoint).owiCrc8 = s.owiCrc8 := by
  unfold State.passPoint; split <;> [rfl; split <;> rfl]
@[simp] theorem passPoint_mem : (s.passPoint).mem = s.mem := by
  unfold State.passPoint; split <;> [rfl; split <;> rfl]
@[simp] theorem passPoint_seq : (s.passPoint).seq = s.seq := by
  unfold State.passPoint; split <;> [rfl; split <;> rfl]
@[simp] theorem passPoint_owiDrive : (s.passPoint).owiDrive = s.owiDrive := by
  unfold State.passPoint; split <;> [rfl; split <;> rfl]
@[simp] theorem passPoint_i2cHeld : (s.passPoint).i2cHeld = s.i2cHeld := by
  unfold State.passPoint; split <;> [rfl; split <;> rfl]
@[simp] theorem passPoint_params : (s.passPoint).params = s.params := by
  unfold State.passPoint; split <;> [rfl; split <;> rfl]
@[simp] theorem passPoint_resetLine : (s.passPoint).resetLine = s.resetLine := by
  unfold State.passPoint; split <;> [rfl; split <;> rfl]
@[simp] theorem passPoint_reads : (s.passPoint).reads = s.reads := by
  unfold State.passPoint; split <;> [rfl; split <;> rfl]
@[simp] theorem passPoint_owiScript : (s.passPoint).owiScript = s.owiScript := by
  unfold State.passPoint; split <;> [rfl; split <;> rfl]
@[simp] theorem passPoint_i2cScript : (s.passPoint).i2cScript = s.i2cScript := by
  unfold State.passPoint; split <;> [rfl; split <;> rfl]
@[simp] theorem passPoint_draws : (s.passPoint).draws = s.draws := by
  unfold State.passPoint; split <;> [rfl; split <;> rfl]
@[simp] theorem passPoint_epoch : (s.passPoint).epoch = s.epoch := by
  unfold State.passPoint; split <;> [rfl; split <;> rfl]
@[simp] theorem passPoint_trace : (s.passPoint).trace = s.trace := by
  unfold State.passPoint; split <;> [rfl; split <;> rfl]

/-! ### waitPoint -/

@[simp] theorem waitPoint_result : (s.waitPoint).result = s.result := by
  unfold State.waitPoint; split <;> rfl
@[simp] theorem waitPoint_cmdOvr : (s.waitPoint).cmdOvr = s.cmdOvr := by
  unfold State.waitPoint; split <;> rfl
@[simp] theorem waitPoint_accErr : (s.waitPoint).accErr = s.accErr := by
  unfold State.waitPoint; split <;> rfl
@[simp] theorem waitPoint_data : (s.waitPoint).data = s.data := by
  unfold State.waitPoint; split <;> rfl
@[simp] theorem waitPoint_len : (s.waitPoint).len = s.len := by
  unfold State.waitPoint; split <;> rfl
@[simp] theorem waitPoint_flen : (s.waitPoint).flen = s.flen := by
  unfold State.waitPoint; split <;> rfl
@[simp] theorem waitPoint_crc : (s.waitPoint).crc = s.crc := by
  unfold State.waitPoint; split <;> rfl
@[simp] theorem waitPoint_i2cAddr : (s.waitPoint).i2cAddr = s.i2cAddr := by
  unfold State.waitPoint; split <;> rfl
@[simp] theorem waitPoint_i2cCode : (s.waitPoint).i2cCode = s.i2cCode := by
  unfold State.waitPoint; split <;> rfl
@[simp] theorem waitPoint_i2cOpen : (s.waitPoint).i2cOpen = s.i2cOpen := by
  unfold State.waitPoint; split <;> rfl
@[simp] theorem waitPoint_i2cDir : (s.waitPoint).i2cDir = s.i2cDir := by
  unfold State.waitPoint; split <;> rfl
@[simp] theorem waitPoint_srchLd : (s.waitPoint).srchLd = s.srchLd := by
  unfold State.waitPoint; split <;> rfl
@[simp] theorem waitPoint_srchLfd : (s.waitPoint).srchLfd = s.srchLfd := by
  unfold State.waitPoint; split <;> rfl
@[simp] theorem waitPoint_ldf : (s.waitPoint).ldf = s.ldf := by
  unfold State.waitPoint; split <;> rfl
@[simp] theorem waitPoint_rom : (s.waitPoint).rom = s.rom := by
  unfold State.waitPoint; split <;> rfl
@[simp] theorem waitPoint_owiCrc8 : (s.waitPoint).owiCrc8 = s.owiCrc8 := by
  unfold State.waitPoint; split <;> rfl
@[simp] theorem waitPoint_mem : (s.waitPoint).mem = s.mem := by
  unfold State.waitPoint; split <;> rfl
@[simp] theorem waitPoint_seq : (s.waitPoint).seq = s.seq := by
  unfold State.waitPoint; split <;> rfl
@[simp] theorem waitPoint_owiDrive : (s.waitPoint).owiDrive = s.owiDrive := by
  unfold State.waitPoint; split <;> rfl
@[simp] theorem waitPoint_i2cHeld : (s.waitPoint).i2cHeld = s.i2cHeld := by
  unfold State.waitPoint; split <;> rfl
@[simp] theorem waitPoint_params : (s.waitPoint).params = s.params := by
  unfold State.waitPoint; split <;> rfl
@[simp] theorem waitPoint_resetLine : (s.waitPoint).resetLine = s.resetLine := by
  unfold State.waitPoint; split <;> rfl
@[simp] theorem waitPoint_host : (s.waitPoint).host = s.host := by
  unfold State.waitPoint; split <;> rfl
@[simp] theorem waitPoint_reads : (s.waitPoint).reads = s.reads := by
  unfold State.waitPoint; split <;> rfl
@[simp] theorem waitPoint_owiScript : (s.waitPoint).owiScript = s.owiScript := by
  unfold State.waitPoint; split <;> rfl
@[simp] theorem waitPoint_epoch : (s.waitPoint).epoch = s.epoch := by
  unfold State.waitPoint; split <;> rfl
@[simp] theorem waitPoint_trace : (s.waitPoint).trace = s.trace := by
  unfold State.waitPoint; split <;> rfl

/-! ### setBufferByte -/

@[simp] theorem setBufferByte_result (off : Nat) (v : Byte) : ((s.setBufferByte off v)).result = s.result := by
  unfold State.setBufferByte; split <;> rfl
@[simp] theorem setBufferByte_cmdOvr (off : Nat) (v : Byte) : ((s.setBufferByte off v)).cmdOvr = s.cmdOvr := by
  unfold State.setBufferByte; split <;> rfl
@[simp] theorem setBufferByte_accErr (off : Nat) (v : Byte) : ((s.setBufferByte off v)).accErr = s.accErr := by
  unfold State.setBufferByte; split <;> rfl
@[simp] theorem setBufferByte_data (off : Nat) (v : Byte) : ((s.setBufferByte off v)).data = s.data := by
  unfold State.setBufferByte; split <;> rfl
@[simp] theorem setBufferByte_len (off : Nat) (v : Byte) : ((s.setBufferByte off v)).len = s.len := by
  unfold State.setBufferByte; split <;> rfl
@[simp] theorem setBufferByte_flen (off : Nat) (v : Byte) : ((s.setBufferByte off v)).flen = s.flen := by
  unfold State.setBufferByte; split <;> rfl
@[simp] theorem setBufferByte_crc (off : Nat) (v : Byte) : ((s.setBufferByte off v)).crc = s.crc := by
  unfold State.setBufferByte; split <;> rfl
@[simp] theorem setBufferByte_i2cAddr (off : Nat) (v : Byte) : ((s.setBufferByte off v)).i2cAddr = s.i2cAddr := by
  unfold State.setBufferByte; split <;> rfl
@[simp] theorem setBufferByte_i2cCode (off : Nat) (v : Byte) : ((s.setBufferByte off v)).i2cCode = s.i2cCode := by
  unfold State.setBufferByte; split <;> rfl
@[simp] theorem setBufferByte_i2cOpen (off : Nat) (v : Byte) : ((s.setBufferByte off v)).i2cOpen = s.i2cOpen := by
  unfold State.setBufferByte; split <;> rfl
@[simp] theorem setBufferByte_i2cDir (off : Nat) (v : Byte) : ((s.setBufferByte off v)).i2cDir = s.i2cDir := by
  unfold State.setBufferByte; split <;> rfl
@[simp] theorem setBufferByte_srchLd (off : Nat) (v : Byte) : ((s.setBufferByte off v)).srchLd = s.srchLd := by
  unfold State.setBufferByte; split <;> rfl
@[simp] theorem setBufferByte_srchLfd (off : Nat) (v : Byte) : ((s.setBufferByte off v)).srchLfd = s.srchLfd := by
  unfold State.setBufferByte; split <;> rfl
@[simp] theorem setBufferByte_ldf (off : Nat) (v : Byte) : ((s.setBufferByte off v)).ldf = s.ldf := by
  unfold State.setBufferByte; split <;> rfl
@[simp] theorem setBufferByte_rom (off : Nat) (v : Byte) : ((s.setBufferByte off v)).rom = s.rom := by
  unfold State.setBufferByte; split <;> rfl
@[simp] theorem setBufferByte_owiCrc8 (off : Nat) (v : Byte) : ((s.setBufferByte off v)).owiCrc8 = s.owiCrc8 := by
  unfold State.setBufferByte; split <;> rfl
@[simp] theorem setBufferByte_seq (off : Nat) (v : Byte) : ((s.setBufferByte off v)).seq = s.seq := by
  unfold State.setBufferByte; split <;> rfl
@[simp] theorem setBufferByte_owiDrive (off : Nat) (v : Byte) : ((s.setBufferByte off v)).owiDrive = s.owiDrive := by
  unfold State.setBufferByte; split <;> rfl
@[simp] theorem setBufferByte_i2cHeld (off : Nat) (v : Byte) : ((s.setBufferByte off v)).i2cHeld = s.i2cHeld := by
  unfold State.setBufferByte; split <;> rfl
@[simp] theorem setBufferByte_params (off : Nat) (v : Byte) : ((s.setBufferByte off v)).params = s.params := by
  unfold State.setBufferByte; split <;> rfl
@[simp] theorem setBufferByte_resetLine (off : Nat) (v : Byte) : ((s.setBufferByte off v)).resetLine = s.resetLine := by
  unfold State.setBufferByte; split <;> rfl
@[simp] theorem setBufferByte_host (off : Nat) (v : Byte) : ((s.setBufferByte off v)).host = s.host := by
  unfold State.setBufferByte; split <;> rfl
@[simp] theorem setBufferByte_reads (off : Nat) (v : Byte) : ((s.setBufferByte off v)).reads = s.reads := by
  unfold State.setBufferByte; split <;> rfl
@[simp] theorem setBufferByte_owiScript (off : Nat) (v : Byte) : ((s.setBufferByte off v)).owiScript = s.owiScript := by
  unfold State.setBufferByte; split <;> rfl
@[simp] theorem setBufferByte_i2cScript (off : Nat) (v : Byte) : ((s.setBufferByte off v)).i2cScript = s.i2cScript := by
  unfold State.setBufferByte; split <;> rfl
@[simp] theorem setBufferByte_draws (off : Nat) (v : Byte) : ((s.setBufferByte off v)).draws = s.draws := by
  unfold State.setBufferByte; split <;> rfl
@[simp] theorem setBufferByte_epoch (off : Nat) (v : Byte) : ((s.setBufferByte off v)).epoch = s.epoch := by
  unfold State.setBufferByte; split <;> rfl
@[simp] theorem setBufferByte_trace (off : Nat) (v : Byte) : ((s.setBufferByte off v)).trace = s.trace := by
  unfold State.setBufferByte; split <;> rfl

/-! ### setRaw -/

@[simp] theorem setRaw_result (i : Nat) (v : Byte) : ((s.setRaw i v)).result = s.result := by
  unfold State.setRaw; split <;> simp
@[simp] theorem setRaw_cmdOvr (i : Nat) (v : Byte) : ((s.setRaw i v)).cmdOvr = s.cmdOvr := by
  unfold State.setRaw; split <;> simp
@[simp] theorem setRaw_accErr (i : Nat) (v : Byte) : ((s.setRaw i v)).accErr = s.accErr := by
  unfold State.setRaw; split <;> simp
@[simp] theorem setRaw_data (i : Nat) (v : Byte) : ((s.setRaw i v)).data = s.data := by
  unfold State.setRaw; split <;> simp
@[simp] theorem setRaw_len (i : Nat) (v : Byte) : ((s.setRaw i v)).len = s.len := by
  unfold State.setRaw; split <;> simp
@[simp] theorem setRaw_flen (i : Nat) (v : Byte) : ((s.setRaw i v)).flen = s.flen := by
  unfold State.setRaw; split <;> simp
@[simp] theorem setRaw_crc (i : Nat) (v : Byte) : ((s.setRaw i v)).crc = s.crc := by
  unfold State.setRaw; split <;> simp
@[simp] theorem setRaw_i2cAddr (i : Nat) (v : Byte) : ((s.setRaw i v)).i2cAddr = s.i2cAddr := by
  unfold State.setRaw; split <;> simp
@[simp] theorem setRaw_i2cCode (i : Nat) (v : Byte) : ((s.setRaw i v)).i2cCode = s.i2cCode := by
  unfold State.setRaw; split <;> simp
@[simp] theorem setRaw_i2cOpen (i : Nat) (v : Byte) : ((s.setRaw i v)).i2cOpen = s.i2cOpen := by
  unfold State.setRaw; split <;> simp
@[simp] theorem setRaw_i2cDir (i : Nat) (v : Byte) : ((s.setRaw i v)).i2cDir = s.i2cDir := by
  unfold State.setRaw; split <;> simp
@[simp] theorem setRaw_srchLd (i : Nat) (v : Byte) : ((s.setRaw i v)).srchLd = s.srchLd := by
  unfold State.setRaw; split <;> simp
@[simp] theorem setRaw_srchLfd (i : Nat) (v : Byte) : ((s.setRaw i v)).srchLfd = s.srchLfd := by
  unfold State.setRaw; split <;> simp
@[simp] theorem setRaw_ldf (i : Nat) (v : Byte) : ((s.setRaw i v)).ldf = s.ldf := by
  unfold State.setRaw; split <;> simp
@[simp] theorem setRaw_rom (i : Nat) (v : Byte) : ((s.setRaw i v)).rom = s.rom := by
  unfold State.setRaw; split <;> simp
@[simp] theorem setRaw_owiCrc8 (i : Nat) (v : Byte) : ((s.setRaw i v)).owiCrc8 = s.owiCrc8 := by
  unfold State.setRaw; split <;> simp
@[simp] theorem setRaw_seq (i : Nat) (v : Byte) : ((s.setRaw i v)).seq = s.seq := by
  unfold State.setRaw; split <;> simp
@[simp] theorem setRaw_owiDrive (i : Nat) (v : Byte) : ((s.setRaw i v)).owiDrive = s.owiDrive := by
  unfold State.setRaw; split <;> simp
@[simp] theorem setRaw_i2cHeld (i : Nat) (v : Byte) : ((s.setRaw i v)).i2cHeld = s.i2cHeld := by
  unfold State.setRaw; split <;> simp
@[simp] theorem setRaw_params (i : Nat) (v : Byte) : ((s.setRaw i v)).params = s.params := by
  unfold State.setRaw; split <;> simp
@[simp] theorem setRaw_resetLine (i : Nat) (v : Byte) : ((s.setRaw i v)).resetLine = s.resetLine := by
  unfold State.setRaw; split <;> simp
@[simp] theorem setRaw_host (i : Nat) (v : Byte) : ((s.setRaw i v)).host = s.host := by
  unfold State.setRaw; split <;> simp
@[simp] theorem setRaw_reads (i : Nat) (v : Byte) : ((s.setRaw i v)).reads = s.reads := by
  unfold State.setRaw; split <;> simp
@[simp] theorem setRaw_owiScript (i : Nat) (v : Byte) : ((s.setRaw i v)).owiScript = s.owiScript := by
  unfold State.setRaw; split <;> simp
@[simp] theorem setRaw_i2cScript (i : Nat) (v : Byte) : ((s.setRaw i v)).i2cScript = s.i2cScript := by
  unfold State.setRaw; split <;> simp
@[simp] theorem setRaw_draws (i : Nat) (v : Byte) : ((s.setRaw i v)).draws = s.draws := by
  unfold State.setRaw; split <;> simp
@[simp] theorem setRaw_epoch (i : Nat) (v : Byte) : ((s.setRaw i v)).epoch = s.epoch := by
  unfold State.setRaw; split <;> simp
@[simp] theorem setRaw_trace (i : Nat) (v : Byte) : ((s.setRaw i v)).trace = s.trace := by
  unfold State.setRaw; split <;> simp

/-! ### setFrame -/

@[simp] theorem setFrame_result (i : Nat) (v : Byte) : ((s.setFrame i v)).result = s.result := by
  unfold State.setFrame; split <;> simp
@[simp] theorem setFrame_cmdOvr (i : Nat) (v : Byte) : ((s.setFrame i v)).cmdOvr = s.cmdOvr := by
  unfold State.setFrame; split <;> simp
@[simp] theorem setFrame_accErr (i : Nat) (v : Byte) : ((s.setFrame i v)).accErr = s.accErr := by
  unfold State.setFrame; split <;> simp
@[simp] theorem setFrame_data (i : Nat) (v : Byte) : ((s.setFrame i v)).data = s.data := by
  unfold State.setFrame; split <;> simp
@[simp] theorem setFrame_len (i : Nat) (v : Byte) : ((s.setFrame i v)).len = s.len := by
  unfold State.setFrame; split <;> simp
@[simp] theorem setFrame_flen (i : Nat) (v : Byte) : ((s.setFrame i v)).flen = s.flen := by
  unfold State.setFrame; split <;> simp
@[simp] theorem setFrame_crc (i : Nat) (v : Byte) : ((s.setFrame i v)).crc = s.crc := by
  unfold State.setFrame; split <;> simp
@[simp] theorem setFrame_i2cAddr (i : Nat) (v : Byte) : ((s.setFrame i v)).i2cAddr = s.i2cAddr := by
  unfold State.setFrame; split <;> simp
@[simp] theorem setFrame_i2cCode (i : Nat) (v : Byte) : ((s.setFrame i v)).i2cCode = s.i2cCode := by
  unfold State.setFrame; split <;> simp
@[simp] theorem setFrame_i2cOpen (i : Nat) (v : Byte) : ((s.setFrame i v)).i2cOpen = s.i2cOpen := by
  unfold State.setFrame; split <;> simp
@[simp] theorem setFrame_i2cDir (i : Nat) (v : Byte) : ((s.setFrame i v)).i2cDir = s.i2cDir := by
  unfold State.setFrame; split <;> simp
@[simp] theorem setFrame_srchLd (i : Nat) (v : Byte) : ((s.setFrame i v)).srchLd = s.srchLd := by
  unfold State.setFrame; split <;> simp
@[simp] theorem setFrame_srchLfd (i : Nat) (v : Byte) : ((s.setFrame i v)).srchLfd = s.srchLfd := by
  unfold State.setFrame; split <;> simp
@[simp] theorem setFrame_ldf (i : Nat) (v : Byte) : ((s.setFrame i v)).ldf = s.ldf := by
  unfold State.setFrame; split <;> simp
@[simp] theorem setFrame_rom (i : Nat) (v : Byte) : ((s.setFrame i v)).rom = s.rom := by
  unfold State.setFrame; split <;> simp
@[simp] theorem setFrame_owiCrc8 (i : Nat) (v : Byte) : ((s.setFrame i v)).owiCrc8 = s.owiCrc8 := by
  unfold State.setFrame; split <;> simp
@[simp] theorem setFrame_seq (i : Nat) (v : Byte) : ((s.setFrame i v)).seq = s.seq := by
  unfold State.setFrame; split <;> simp
@[simp] theorem setFrame_owiDrive (i : Nat) (v : Byte) : ((s.setFrame i v)).owiDrive = s.owiDrive := by
  unfold State.setFrame; split <;> simp
@[simp] theorem setFrame_i2cHeld (i : Nat) (v : Byte) : ((s.setFrame i v)).i2cHeld = s.i2cHeld := by
  unfold State.setFrame; split <;> simp
@[simp] theorem setFrame_params (i : Nat) (v : Byte) : ((s.setFrame i v)).params = s.params := by
  unfold State.setFrame; split <;> simp
@[simp] theorem setFrame_resetLine (i : Nat) (v : Byte) : ((s.setFrame i v)).resetLine = s.resetLine := by
  unfold State.setFrame; split <;> simp
@[simp] theorem setFrame_host (i : Nat) (v : Byte) : ((s.setFrame i v)).host = s.host := by
  unfold State.setFrame; split <;> simp
@[simp] theorem setFrame_reads (i : Nat) (v : Byte) : ((s.setFrame i v)).reads = s.reads := by
  unfold State.setFrame; split <;> simp
@[simp] theorem setFrame_owiScript (i : Nat) (v : Byte) : ((s.setFrame i v)).owiScript = s.owiScript := by
  unfold State.setFrame; split <;> simp
@[simp] theorem setFrame_i2cScript (i : Nat) (v : Byte) : ((s.setFrame i v)).i2cScript = s.i2cScript := by
  unfold State.setFrame; split <;> simp
@[simp] theorem setFrame_draws (i : Nat) (v : Byte) : ((s.setFrame i v)).draws = s.draws := by
  unfold State.setFrame; split <;> simp
@[simp] theorem setFrame_epoch (i : Nat) (v : Byte) : ((s.setFrame i v)).epoch = s.epoch := by
  unfold State.setFrame; split <;> simp
@[simp] theorem setFrame_trace (i : Nat) (v : Byte) : ((s.setFrame i v)).trace = s.trace := by
  unfold State.setFrame; split <;> simp

/-! ### storeRaw -/

@[simp] theorem storeRaw_result (i : Nat) (l : List Byte) : ((s.storeRaw i l)).result = s.result := by
  induction l generalizing s i with
  | nil => rfl
  | cons b l ih => simp [State.storeRaw, ih]
@[simp] theorem storeRaw_cmdOvr (i : Nat) (l : List Byte) : ((s.storeRaw i l)).cmdOvr = s.cmdOvr := by
  induction l generalizing s i with
  | nil => rfl
  | cons b l ih => simp [State.storeRaw, ih]
@[simp] theorem storeRaw_accErr (i : Nat) (l : List Byte) : ((s.storeRaw i l)).accErr = s.accErr := by
  induction l generalizing s i with
  | nil => rfl
  | cons b l ih => simp [State.storeRaw, ih]
@[simp] theorem storeRaw_data (i : Nat) (l : List Byte) : ((s.storeRaw i l)).data = s.data := by
  induction l generalizing s i with
  | nil => rfl
  | cons b l ih => simp [State.storeRaw, ih]
@[simp] theorem storeRaw_len (i : Nat) (l : List Byte) : ((s.storeRaw i l)).len = s.len := by
  induction l generalizing s i with
  | nil => rfl
  | cons b l ih => simp [State.storeRaw, ih]
@[simp] theorem storeRaw_flen (i : Nat) (l : List Byte) : ((s.storeRaw i l)).flen = s.flen := by
  induction l generalizing s i with
  | nil => rfl
  | cons b l ih => simp [State.storeRaw, ih]
@[simp] theorem storeRaw_crc (i : Nat) (l : List Byte) : ((s.storeRaw i l)).crc = s.crc := by
  induction l generalizing s i with
  | nil => rfl
  | cons b l ih => simp [State.storeRaw, ih]
@[simp] theorem storeRaw_i2cAddr (i : Nat) (l : List Byte) : ((s.storeRaw i l)).i2cAddr = s.i2cAddr := by
  induction l generalizing s i with
  | nil => rfl
  | cons b l ih => simp [State.storeRaw, ih]
@[simp] theorem storeRaw_i2cCode (i : Nat) (l : List Byte) : ((s.storeRaw i l)).i2cCode = s.i2cCode := by
  induction l generalizing s i with
  | nil => rfl
  | cons b l ih => simp [State.storeRaw, ih]
@[simp] theorem storeRaw_i2cOpen (i : Nat) (l : List Byte) : ((s.storeRaw i l)).i2cOpen = s.i2cOpen := by
  induction l generalizing s i with
  | nil => rfl
  | cons b l ih => simp [State.storeRaw, ih]
@[simp] theorem storeRaw_i2cDir (i : Nat) (l : List Byte) : ((s.storeRaw i l)).i2cDir = s.i2cDir := by
  induction l generalizing s i with
  | nil => rfl
  | cons b l ih => simp [State.storeRaw, ih]
@[simp] theorem storeRaw_srchLd (i : Nat) (l : List Byte) : ((s.storeRaw i l)).srchLd = s.srchLd := by
  induction l generalizing s i with
  | nil => rfl
  | cons b l ih => simp [State.storeRaw, ih]
@[simp] theorem storeRaw_srchLfd (i : Nat) (l : List Byte) : ((s.storeRaw i l)).srchLfd = s.srchLfd := by
  induction l generalizing s i with
  | nil => rfl
  | cons b l ih => simp [State.storeRaw, ih]
@[simp] theorem storeRaw_ldf (i : Nat) (l : List Byte) : ((s.storeRaw i l)).ldf = s.ldf := by
  induction l generalizing s i with
  | nil => rfl
  | cons b l ih => simp [State.storeRaw, ih]
@[simp] theorem storeRaw_rom (i : Nat) (l : List Byte) : ((s.storeRaw i l)).rom = s.rom := by
  induction l generalizing s i with
  | nil => rfl
  | cons b l ih => simp [State.storeRaw, ih]
@[simp] theorem storeRaw_owiCrc8 (i : Nat) (l : List Byte) : ((s.storeRaw i l)).owiCrc8 = s.owiCrc8 := by
  induction l generalizing s i with
  | nil => rfl
  | cons b l ih => simp [State.storeRaw, ih]
@[simp] theorem storeRaw_seq (i : Nat) (l : List Byte) : ((s.storeRaw i l)).seq = s.seq := by
  induction l generalizing s i with
  | nil => rfl
  | cons b l ih => simp [State.storeRaw, ih]
@[simp] theorem storeRaw_owiDrive (i : Nat) (l : List Byte) : ((s.storeRaw i l)).owiDrive = s.owiDrive := by
  induction l generalizing s i with
  | nil => rfl
  | cons b l ih => simp [State.storeRaw, ih]
@[simp] theorem storeRaw_i2cHeld (i : Nat) (l : List Byte) : ((s.storeRaw i l)).i2cHeld = s.i2cHeld := by
  induction l generalizing s i with
  | nil => rfl
  | cons b l ih => simp [State.storeRaw, ih]
@[simp] theorem storeRaw_params (i : Nat) (l : List Byte) : ((s.storeRaw i l)).params = s.params := by
  induction l generalizing s i with
  | nil => rfl
  | cons b l ih => simp [State.storeRaw, ih]
@[simp] theorem storeRaw_resetLine (i : Nat) (l : List Byte) : ((s.storeRaw i l)).resetLine = s.resetLine := by
  induction l generalizing s i with
  | nil => rfl
  | cons b l ih => simp [State.storeRaw, ih]
@[simp] theorem storeRaw_host (i : Nat) (l : List Byte) : ((s.storeRaw i l)).host = s.host := by
  induction l generalizing s i with
  | nil => rfl
  | cons b l ih => simp [State.storeRaw, ih]
@[simp] theorem storeRaw_reads (i : Nat) (l : List Byte) : ((s.storeRaw i l)).reads = s.reads := by
  induction l generalizing s i with
  | nil => rfl
  | cons b l ih => simp [State.storeRaw, ih]
@[simp] theorem storeRaw_owiScript (i : Nat) (l : List Byte) : ((s.storeRaw i l)).owiScript = s.owiScript := by
  induction l generalizing s i with
  | nil => rfl
  | cons b l ih => simp [State.storeRaw, ih]
@[simp] theorem storeRaw_i2cScript (i : Nat) (l : List Byte) : ((s.storeRaw i l)).i2cScript = s.i2cScript := by
  induction l generalizing s i with
  | nil => rfl
  | cons b l ih => simp [State.storeRaw, ih]
@[simp] theorem storeRaw_draws (i : Nat) (l : List Byte) : ((s.storeRaw i l)).draws = s.draws := by
  induction l generalizing s i with
  | nil => rfl
  | cons b l ih => simp [State.storeRaw, ih]
@[simp] theorem storeRaw_epoch (i : Nat) (l : List Byte) : ((s.storeRaw i l)).epoch = s.epoch := by
  induction l generalizing s i with
  | nil => rfl
  | cons b l ih => simp [State.storeRaw, ih]
@[simp] theorem storeRaw_trace (i : Nat) (l : List Byte) : ((s.storeRaw i l)).trace = s.trace := by
  induction l generalizing s i with
  | nil => rfl
  | cons b l ih => simp [State.storeRaw, ih]

/-! ### storeFrame -/

@[simp] theorem storeFrame_result (i : Nat) (l : List Byte) : ((s.storeFrame i l)).result = s.result := by
  induction l generalizing s i with
  | nil => rfl
  | cons b l ih => simp [State.storeFrame, ih]
@[simp] theorem storeFrame_cmdOvr (i : Nat) (l : List Byte) : ((s.storeFrame i l)).cmdOvr = s.cmdOvr := by
  induction l generalizing s i with
  | nil => rfl
  | cons b l ih => simp [State.storeFrame, ih]
@[simp] theorem storeFrame_accErr (i : Nat) (l : List Byte) : ((s.storeFrame i l)).accErr = s.accErr := by
  induction l generalizing s i with
  | nil => rfl
  | cons b l ih => simp [State.storeFrame, ih]
@[simp] theorem storeFrame_data (i : Nat) (l : List Byte) : ((s.storeFrame i l)).data = s.data := by
  induction l generalizing s i with
  | nil => rfl
  | cons b l ih => simp [State.storeFrame, ih]
@[simp] theorem storeFrame_len (i : Nat) (l : List Byte) : ((s.storeFrame i l)).len = s.len := by
  induction l generalizing s i with
  | nil => rfl
  | cons b l ih => simp [State.storeFrame, ih]
@[simp] theorem storeFrame_flen (i : Nat) (l : List Byte) : ((s.storeFrame i l)).flen = s.flen := by
  induction l generalizing s i with
  | nil => rfl
  | cons b l ih => simp [State.storeFrame, ih]
@[simp] theorem storeFrame_crc (i : Nat) (l : List Byte) : ((s.storeFrame i l)).crc = s.crc := by
  induction l generalizing s i with
  | nil => rfl
  | cons b l ih => simp [State.storeFrame, ih]
@[simp] theorem storeFrame_i2cAddr (i : Nat) (l : List Byte) : ((s.storeFrame i l)).i2cAddr = s.i2cAddr := by
  induction l generalizing s i with
  | nil => rfl
  | cons b l ih => simp [State.storeFrame, ih]
@[simp] theorem storeFrame_i2cCode (i : Nat) (l : List Byte) : ((s.storeFrame i l)).i2cCode = s.i2cCode := by
  induction l generalizing s i with
  | nil => rfl
  | cons b l ih => simp [State.storeFrame, ih]
@[simp] theorem storeFrame_i2cOpen (i : Nat) (l : List Byte) : ((s.storeFrame i l)).i2cOpen = s.i2cOpen := by
  induction l generalizing s i with
  | nil => rfl
  | cons b l ih => simp [State.storeFrame, ih]
@[simp] theorem storeFrame_i2cDir (i : Nat) (l : List Byte) : ((s.storeFrame i l)).i2cDir = s.i2cDir := by
  induction l generalizing s i with
  | nil => rfl
  | cons b l ih => simp [State.storeFrame, ih]
@[simp] theorem storeFrame_srchLd (i : Nat) (l : List Byte) : ((s.storeFrame i l)).srchLd = s.srchLd := by
  induction l generalizing s i with
  | nil => rfl
  | cons b l ih => simp [State.storeFrame, ih]
@[simp] theorem storeFrame_srchLfd (i : Nat) (l : List Byte) : ((s.storeFrame i l)).srchLfd = s.srchLfd := by
  induction l generalizing s i with
  | nil => rfl
  | cons b l ih => simp [State.storeFrame, ih]
@[simp] theorem storeFrame_ldf (i : Nat) (l : List Byte) : ((s.storeFrame i l)).ldf = s.ldf := by
  induction l generalizing s i with
  | nil => rfl
  | cons b l ih => simp [State.storeFrame, ih]
@[simp] theorem storeFrame_rom (i : Nat) (l : List Byte) : ((s.storeFrame i l)).rom = s.rom := by
  induction l generalizing s i with
  | nil => rfl
  | cons b l ih => simp [State.storeFrame, ih]
@[simp] theorem storeFrame_owiCrc8 (i : Nat) (l : List Byte) : ((s.storeFrame i l)).owiCrc8 = s.owiCrc8 := by
  induction l generalizing s i with
  | nil => rfl
  | cons b l ih => simp [State.storeFrame, ih]
@[simp] theorem storeFrame_seq (i : Nat) (l : List Byte) : ((s.storeFrame i l)).seq = s.seq := by
  induction l generalizing s i with
  | nil => rfl
  | cons b l ih => simp [State.storeFrame, ih]
@[simp] theorem storeFrame_owiDrive (i : Nat) (l : List Byte) : ((s.storeFrame i l)).owiDrive = s.owiDrive := by
  induction l generalizing s i with
  | nil => rfl
  | cons b l ih => simp [State.storeFrame, ih]
@[simp] theorem storeFrame_i2cHeld (i : Nat) (l : List Byte) : ((s.storeFrame i l)).i2cHeld = s.i2cHeld := by
  induction l generalizing s i with
  | nil => rfl
  | cons b l ih => simp [State.storeFrame, ih]
@[simp] theorem storeFrame_params (i : Nat) (l : List Byte) : ((s.storeFrame i l)).params = s.params := by
  induction l generalizing s i with
  | nil => rfl
  | cons b l ih => simp [State.storeFrame, ih]
@[simp] theorem storeFrame_resetLine (i : Nat) (l : List Byte) : ((s.storeFrame i l)).resetLine = s.resetLine := by
  induction l generalizing s i with
  | nil => rfl
  | cons b l ih => simp [State.storeFrame, ih]
@[simp] theorem storeFrame_host (i : Nat) (l : List Byte) : ((s.storeFrame i l)).host = s.host := by
  induction l generalizing s i with
  | nil => rfl
  | cons b l ih => simp [State.storeFrame, ih]
@[simp] theorem storeFrame_reads (i : Nat) (l : List Byte) : ((s.storeFrame i l)).reads = s.reads := by
  induction l generalizing s i with
  | nil => rfl
  | cons b l ih => simp [State.storeFrame, ih]
@[simp] theorem storeFrame_owiScript (i : Nat) (l : List Byte) : ((s.storeFrame i l)).owiScript = s.owiScript := by
  induction l generalizing s i with
  | nil => rfl
  | cons b l ih => simp [State.storeFrame, ih]
@[simp] theorem storeFrame_i2cScript (i : Nat) (l : List Byte) : ((s.storeFrame i l)).i2cScript = s.i2cScript := by
  induction l generalizing s i with
  | nil => rfl
  | cons b l ih => simp [State.storeFrame, ih]
@[simp] theorem storeFrame_draws (i : Nat) (l : List Byte) : ((s.storeFrame i l)).draws = s.draws := by
  induction l generalizing s i with
  | nil => rfl
  | cons b l ih => simp [State.storeFrame, ih]
@[simp] theorem storeFrame_epoch (i : Nat) (l : List Byte) : ((s.storeFrame i l)).epoch = s.epoch := by
  induction l generalizing s i with
  | nil => rfl
  | cons b l ih => simp [State.storeFrame, ih]
@[simp] theorem storeFrame_trace (i : Nat) (l : List Byte) : ((s.storeFrame i l)).trace = s.trace := by
  induction l generalizing s i with
  | nil => rfl
  | cons b l ih => simp [State.storeFrame, ih]

/-! ### noteFamily -/

@[simp] theorem noteFamily_result (n : Nat) (b : Bool) : ((s.noteFamily n b)).result = s.result := by
  unfold State.noteFamily; split <;> rfl
@[simp] theorem noteFamily_cmdOvr (n : Nat) (b : Bool) : ((s.noteFamily n b)).cmdOvr = s.cmdOvr := by
  unfold State.noteFamily; split <;> rfl
@[simp] theorem noteFamily_accErr (n : Nat) (b : Bool) : ((s.noteFamily n b)).accErr = s.accErr := by
  unfold State.noteFamily; split <;> rfl
@[simp] theorem noteFamily_data (n : Nat) (b : Bool) : ((s.noteFamily n b)).data = s.data := by
  unfold State.noteFamily; split <;> rfl
@[simp] theorem noteFamily_len (n : Nat) (b : Bool) : ((s.noteFamily n b)).len = s.len := by
  unfold State.noteFamily; split <;> rfl
@[simp] theorem noteFamily_flen (n : Nat) (b : Bool) : ((s.noteFamily n b)).flen = s.flen := by
  unfold State.noteFamily; split <;> rfl
@[simp] theorem noteFamily_crc (n : Nat) (b : Bool) : ((s.noteFamily n b)).crc = s.crc := by
  unfold State.noteFamily; split <;> rfl
@[simp] theorem noteFamily_i2cAddr (n : Nat) (b : Bool) : ((s.noteFamily n b)).i2cAddr = s.i2cAddr := by
  unfold State.noteFamily; split <;> rfl
@[simp] theorem noteFamily_i2cCode (n : Nat) (b : Bool) : ((s.noteFamily n b)).i2cCode = s.i2cCode := by
  unfold State.noteFamily; split <;> rfl
@[simp] theorem noteFamily_i2cOpen (n : Nat) (b : Bool) : ((s.noteFamily n b)).i2cOpen = s.i2cOpen := by
  unfold State.noteFamily; split <;> rfl
@[simp] theorem noteFamily_i2cDir (n : Nat) (b : Bool) : ((s.noteFamily n b)).i2cDir = s.i2cDir := by
  unfold State.noteFamily; split <;> rfl
@[simp] theorem noteFamily_srchLd (n : Nat) (b : Bool) : ((s.noteFamily n b)).srchLd = s.srchLd := by
  unfold State.noteFamily; split <;> rfl
@[simp] theorem noteFamily_ldf (n : Nat) (b : Bool) : ((s.noteFamily n b)).ldf = s.ldf := by
  unfold State.noteFamily; split <;> rfl
@[simp] theorem noteFamily_rom (n : Nat) (b : Bool) : ((s.noteFamily n b)).rom = s.rom := by
  unfold State.noteFamily; split <;> rfl
@[simp] theorem noteFamily_owiCrc8 (n : Nat) (b : Bool) : ((s.noteFamily n b)).owiCrc8 = s.owiCrc8 := by
  unfold State.noteFamily; split <;> rfl
@[simp] theorem noteFamily_mem (n : Nat) (b : Bool) : ((s.noteFamily n b)).mem = s.mem := by
  unfold State.noteFamily; split <;> rfl
@[simp] theorem noteFamily_seq (n : Nat) (b : Bool) : ((s.noteFamily n b)).seq = s.seq := by
  unfold State.noteFamily; split <;> rfl
@[simp] theorem noteFamily_owiDrive (n : Nat) (b : Bool) : ((s.noteFamily n b)).owiDrive = s.owiDrive := by
  unfold State.noteFamily; split <;> rfl
@[simp] theorem noteFamily_i2cHeld (n : Nat) (b : Bool) : ((s.noteFamily n b)).i2cHeld = s.i2cHeld := by
  unfold State.noteFamily; split <;> rfl
@[simp] theorem noteFamily_params (n : Nat) (b : Bool) : ((s.noteFamily n b)).params = s.params := by
  unfold State.noteFamily; split <;> rfl
@[simp] theorem noteFamily_resetLine (n : Nat) (b : Bool) : ((s.noteFamily n b)).resetLine = s.resetLine := by
  unfold State.noteFamily; split <;> rfl
@[simp] theorem noteFamily_host (n : Nat) (b : Bool) : ((s.noteFamily n b)).host = s.host := by
  unfold State.noteFamily; split <;> rfl
@[simp] theorem noteFamily_reads (n : Nat) (b : Bool) : ((s.noteFamily n b)).reads = s.reads := by
  unfold State.noteFamily; split <;> rfl
@[simp] theorem noteFamily_owiScript (n : Nat) (b : Bool) : ((s.noteFamily n b)).owiScript = s.owiScript := by
  unfold State.noteFamily; split <;> rfl
@[simp] theorem noteFamily_i2cScript (n : Nat) (b : Bool) : ((s.noteFamily n b)).i2cScript = s.i2cScript := by
  unfold State.noteFamily; split <;> rfl
@[simp] theorem noteFamily_draws (n : Nat) (b : Bool) : ((s.noteFamily n b)).draws = s.draws := by
  unfold State.noteFamily; split <;> rfl
@[simp] theorem noteFamily_epoch (n : Nat) (b : Bool) : ((s.noteFamily n b)).epoch = s.epoch := by
  unfold State.noteFamily; split <;> rfl
@[simp] theorem noteFamily_trace (n : Nat) (b : Bool) : ((s.noteFamily n b)).trace = s.trace := by
  unfold State.noteFamily; split <;> rfl

/-! ### sampleLine_snd -/

@[simp] theorem sampleLine_snd_result : (s.sampleLine.2).result = s.result := by
  unfold State.sampleLine; split <;> rfl
@[simp] theorem sampleLine_snd_cmdOvr : (s.sampleLine.2).cmdOvr = s.cmdOvr := by
  unfold State.sampleLine; split <;> rfl
@[simp] theorem sampleLine_snd_accErr : (s.sampleLine.2).accErr = s.accErr := by
  unfold State.sampleLine; split <;> rfl
@[simp] theorem sampleLine_snd_data : (s.sampleLine.2).data = s.data := by
  unfold State.sampleLine; split <;> rfl
@[simp] theorem sampleLine_snd_len : (s.sampleLine.2).len = s.len := by
  unfold State.sampleLine; split <;> rfl
@[simp] theorem sampleLine_snd_flen : (s.sampleLine.2).flen = s.flen := by
  unfold State.sampleLine; split <;> rfl
@[simp] theorem sampleLine_snd_crc : (s.sampleLine.2).crc = s.crc := by
  unfold State.sampleLine; split <;> rfl
@[simp] theorem sampleLine_snd_i2cAddr : (s.sampleLine.2).i2cAddr = s.i2cAddr := by
  unfold State.sampleLine; split <;> rfl
@[simp] theorem sampleLine_snd_i2cCode : (s.sampleLine.2).i2cCode = s.i2cCode := by
  unfold State.sampleLine; split <;> rfl
@[simp] theorem sampleLine_snd_i2cOpen : (s.sampleLine.2).i2cOpen = s.i2cOpen := by
  unfold State.sampleLine; split <;> rfl
@[simp] theorem sampleLine_snd_i2cDir : (s.sampleLine.2).i2cDir = s.i2cDir := by
  unfold State.sampleLine; split <;> rfl
@[simp] theorem sampleLine_snd_srchLd : (s.sampleLine.2).srchLd = s.srchLd := by
  unfold State.sampleLine; split <;> rfl
@[simp] theorem sampleLine_snd_srchLfd : (s.sampleLine.2).srchLfd = s.srchLfd := by
  unfold State.sampleLine; split <;> rfl
@[simp] theorem sampleLine_snd_ldf : (s.sampleLine.2).ldf = s.ldf := by
  unfold State.sampleLine; split <;> rfl
@[simp] theorem sampleLine_snd_rom : (s.sampleLine.2).rom = s.rom := by
  unfold State.sampleLine; split <;> rfl
@[simp] theorem sampleLine_snd_owiCrc8 : (s.sampleLine.2).owiCrc8 = s.owiCrc8 := by
  unfold State.sampleLine; split <;> rfl
@[simp] theorem sampleLine_snd_mem : (s.sampleLine.2).mem = s.mem := by
  unfold State.sampleLine; split <;> rfl
@[simp] theorem sampleLine_snd_seq : (s.sampleLine.2).seq = s.seq := by
  unfold State.sampleLine; split <;> rfl
@[simp] theorem sampleLine_snd_owiDrive : (s.sampleLine.2).owiDrive = s.owiDrive := by
  unfold State.sampleLine; split <;> rfl
@[simp] theorem sampleLine_snd_i2cHeld : (s.sampleLine.2).i2cHeld = s.i2cHeld := by
  unfold State.sampleLine; split <;> rfl
@[simp] theorem sampleLine_snd_params : (s.sampleLine.2).params = s.params := by
  unfold State.sampleLine; split <;> rfl
@[simp] theorem sampleLine_snd_resetLine : (s.sampleLine.2).resetLine = s.resetLine := by
  unfold State.sampleLine; split <;> rfl
@[simp] theorem sampleLine_snd_host : (s.sampleLine.2).host = s.host := by
  unfold State.sampleLine; split <;> rfl
@[simp] theorem sampleLine_snd_reads : (s.sampleLine.2).reads = s.reads := by
  unfold State.sampleLine; split <;> rfl
@[simp] theorem sampleLine_snd_i2cScript : (s.sampleLine.2).i2cScript = s.i2cScript := by
  unfold State.sampleLine; split <;> rfl
@[simp] theorem sampleLine_snd_epoch : (s.sampleLine.2).epoch = s.epoch := by
  unfold State.sampleLine; split <;> rfl
@[simp] theorem sampleLine_snd_trace : (s.sampleLine.2).trace = s.trace := by
  unfold State.sampleLine; split <;> rfl

end Sys2Proof.Machine
end

