-- ==== Sys2Proof/Laws/Run.lean ====
section
/-! SUPPORT. The command cycle: what one progress point of `runBody` does, and how facts pass through a run. -/

namespace Sys2Proof.Machine

theorem hostDue_of_undisturbed {s : State} (h : s.undisturbed = true) : s.hostDue = false := by
  unfold State.undisturbed at h
  unfold State.hostDue
  split at h
  · rfl
  · simp only [beq_iff_eq] at h
    simp [h]

theorem passPoint_of_undisturbed {s : State} (h : s.undisturbed = true) : s.passPoint = s := by
  unfold State.undisturbed at h
  unfold State.passPoint
  split at h
  · rfl
  · simp only [beq_iff_eq] at h
    simp [h]

/-- `undisturbed` depends on the host's queue only. -/
theorem undisturbed_congr {s t : State} (h : t.host = s.host) : t.undisturbed = s.undisturbed := by
  simp [State.undisturbed, h]

theorem runBody_idle (body : Body) (n : Nat) {s : State} (h : s.seq = .idle) : runBody body n s = s := by
  cases n <;> simp [runBody, h]

/-- A point that goes on to another. -/
theorem runBody_goto {body : Body} {n : Nat} {s s' : State} {c : Byte} {p p' : Progress}
    (hs : s.seq = .run c p) (hu : s.undisturbed = true) (hb : body p s = some (s', .goto p')) :
    runBody body (n + 1) s = runBody body n { s' with seq := .run c p' } := by
  simp [runBody, hs, hostDue_of_undisturbed hu, passPoint_of_undisturbed hu, hb]

/-- A point that completes the command. -/
theorem runBody_complete {body : Body} {n : Nat} {s s' : State} {c : Byte} {p : Progress} {r : Result}
    (hs : s.seq = .run c p) (hu : s.undisturbed = true) (hb : body p s = some (s', .complete r)) :
    runBody body (n + 1) s = s'.complete r := by
  simp [runBody, hs, hostDue_of_undisturbed hu, passPoint_of_undisturbed hu, hb]

/-- A point that waits. -/
theorem runBody_wait {body : Body} {n : Nat} {s : State} {c : Byte} {p : Progress}
    (hs : s.seq = .run c p) (hu : s.undisturbed = true) (hb : body p s = none) :
    runBody body (n + 1) s = s.waitPoint := by
  simp [runBody, hs, hostDue_of_undisturbed hu, passPoint_of_undisturbed hu, hb]

/-- A relation that every part of a run respects holds between a run's start and its end. -/
theorem runBody_rel (R : State → State → Prop) (body : Body)
    (hrefl : ∀ s, R s s) (htrans : ∀ a b c, R a b → R b c → R a c)
    (hseq : ∀ s q, R s { s with seq := q }) (hdone : ∀ s r, R s (s.complete r))
    (hpass : ∀ s, R s s.passPoint) (hwait : ∀ s, R s s.waitPoint)
    (hbody : ∀ p s s' nx, body p s = some (s', nx) → R s s') :
    ∀ n s, R s (runBody body n s) := by
  intro n
  induction n with
  | zero => intro s; exact hrefl s
  | succ n ih =>
    intro s
    unfold runBody
    split
    · exact hrefl s
    · split
      · exact hrefl s
      · split
        · exact htrans _ _ _ (hpass s) (hwait _)
        · rename_i h
          exact htrans _ _ _ (hpass s) (htrans _ _ _ (hbody _ _ _ _ h) (htrans _ _ _ (hseq _ _) (ih _)))
        · rename_i h
          exact htrans _ _ _ (hpass s) (htrans _ _ _ (hbody _ _ _ _ h) (hdone _ _))

/-- An invariant that every point of a command keeps, in the state with the point it goes on to, holds at the
end of a run. -/
theorem runBody_inv (P : State → Prop) (body : Body)
    (hpass : ∀ s, P s → P s.passPoint) (hwait : ∀ s, P s → P s.waitPoint)
    (hgoto : ∀ c p s s' p', s.seq = .run c p → P s → body p s = some (s', .goto p') →
      P { s' with seq := .run c p' })
    (hdone : ∀ c p s s' r, s.seq = .run c p → P s → body p s = some (s', .complete r) → P (s'.complete r)) :
    ∀ n s, P s → P (runBody body n s) := by
  intro n
  induction n with
  | zero => intro s h; exact h
  | succ n ih =>
    intro s hP
    unfold runBody
    split
    · exact hP
    · rename_i hs
      have hs' : s.passPoint.seq = s.seq := by simp
      split
      · exact hP
      · split
        · exact hwait _ (hpass _ hP)
        · rename_i h
          exact ih _ (hgoto _ _ _ _ _ (hs'.trans hs) (hpass _ hP) h)
        · rename_i h
          exact hdone _ _ _ _ _ (hs'.trans hs) (hpass _ hP) h

theorem begin_idle {s : State} (w : Byte) (h : s.seq = .idle) : s.begin w = { s with seq := .run w .first } := by
  simp [State.begin, h]

theorem begin_running {s : State} (w : Byte) {c : Byte} {p : Progress} (h : s.seq = .run c p) : s.begin w = s := by
  simp [State.begin, h]

end Sys2Proof.Machine
end

