-- ==== Sys2Proof/Laws/Step.lean ====
section
/-! SUPPORT. What a step can be, and every command as one run of its pseudocode. -/

namespace Sys2Proof.Machine

/-- The pseudocode of each command. -/
def bodyOf (i : Instr) : Body :=
  match i with
  | .nop => nopBody
  | .sreset => sresetBody
  | .crcClr => crcClrBody
  | .crcByte => crcByteBody
  | .crcBuf => crcBufBody
  | .cobsEnc => cobsEncBody
  | .cobsDec => cobsDecBody
  | .i2cStartw => i2cStartwBody
  | .i2cStartr => i2cStartrBody
  | .i2cWrite => i2cWriteBody
  | .i2cRead ack => i2cReadBody ack
  | .i2cStop => i2cStopBody
  | .i2cReadn => i2cReadnBody
  | .i2cWriten => i2cWritenBody
  | .owiReset => owiBody (enterPulse .pulse) owiResetBack
  | .owiWbit => owiBody owiWbitStart owiWbitBack
  | .owiRbit => owiBody (enterRead .rbit) owiRbitBack
  | .owiWbyte => owiBody owiWbyteStart owiWbyteBack
  | .owiRbyte => owiBody (enterRead (.rbyte 0 0x00)) owiRbyteBack
  | .owiSfirst => owiBody owiSfirstStart searchBack
  | .owiSnext => owiBody searchStart searchBack

/-- Every command runs its pseudocode under the command cycle. -/
theorem exec_eq (i : Instr) (s : State) :
    exec i s = .next (runBody (bodyOf i) Config.burst (s.begin (encode i))) := by
  cases i <;> rfl

/-- The state a command answers. -/
theorem of_exec_next {i : Instr} {s t : State} (h : exec i s = .next t) :
    t = runBody (bodyOf i) Config.burst (s.begin (encode i)) := by
  rw [exec_eq] at h
  exact (Host.Outcome.next.inj h).symm

/-- A word runs the pseudocode of a command, or of the illegal command. -/
theorem of_runWord_next {w : Byte} {s t : State} (h : runWord w s = .next t) :
    (∃ i w', t = runBody (bodyOf i) Config.burst (s.begin w')) ∨
    ∃ w', t = runBody illegalBody Config.burst (s.begin w') := by
  unfold runWord at h
  split at h
  · exact .inl ⟨_, _, of_exec_next h⟩
  · exact .inr ⟨_, (Host.Outcome.next.inj h).symm⟩

/-- What a host access answers: the access itself, on a legal width and offset out of reset. -/
theorem of_hostAccess_next {s t : State} {width off : Nat} {access : State → Host.Outcome State Fault Refusal}
    (h : hostAccess s width off access = .next t) : s.resetLine = false ∧ access s = .next t := by
  unfold hostAccess at h
  split at h
  · cases h
  · split at h
    · cases h
    · split at h
      · cases h
      · exact ⟨by simpa using ‹¬s.resetLine = true›, h⟩

/-- What a host action can do. -/
theorem of_hostAction_next {a : HostAction} {s t : State} (h : hostAction a s = .next t) :
    (∃ off, t = s.hostRead off) ∨ (∃ off v, t = s.hostWrite off v) ∨ t = { s with cmdOvr := true } ∨
    (∃ w, s.seq = .idle ∧ runWord w s = .next t) ∨ (∃ b, t = { s.hardwareReset with resetLine := b }) ∨ t = s := by
  cases a with
  | read width off =>
    simp only [hostAction] at h
    exact .inl ⟨off, (Host.Outcome.next.inj (of_hostAccess_next h).2).symm⟩
  | write width off v =>
    simp only [hostAction] at h
    have h := (of_hostAccess_next h).2
    split at h
    · unfold commandWrite at h
      split at h
      · exact .inr (.inr (.inl (Host.Outcome.next.inj h).symm))
      · rename_i hb
        refine .inr (.inr (.inr (.inl ⟨v, ?_, h⟩)))
        unfold State.busy at hb
        split at hb
        · assumption
        · exact absurd rfl hb
    · exact .inr (.inl ⟨off, v, (Host.Outcome.next.inj h).symm⟩)
  | assertReset => exact .inr (.inr (.inr (.inr (.inl ⟨true, (Host.Outcome.next.inj h).symm⟩))))
  | releaseReset =>
    have h := Host.Outcome.next.inj h
    split at h
    · exact .inr (.inr (.inr (.inr (.inl ⟨false, h.symm⟩))))
    · exact .inr (.inr (.inr (.inr (.inr h.symm))))

/-- What a step can be: a wait, a host action, or the running command's progress. -/
theorem of_step_next {s t : State} (h : step s = .next t) :
    t = s ∨ (∃ e rest, s.host = e :: rest ∧ hostAction e.action { s with host := rest } = .next t) ∨
    ∃ c p, s.seq = .run c p ∧ runWord c s = .next t := by
  have turn : hostTurn s = .next t →
      t = s ∨ (∃ e rest, s.host = e :: rest ∧ hostAction e.action { s with host := rest } = .next t) := by
    intro h
    unfold hostTurn at h
    split at h
    · exact .inl (Host.Outcome.next.inj h).symm
    · exact .inr ⟨_, _, ‹_›, h⟩
  unfold step takeTurn at h
  split at h
  · rcases turn h with h | h
    · exact .inl h
    · exact .inr (.inl h)
  · split at h
    · rcases turn h with h | h
      · exact .inl h
      · exact .inr (.inl h)
    · exact .inr (.inr ⟨_, _, ‹_›, h⟩)

/-- An invariant that every run and every host action keeps is kept by every step. -/
theorem step_inv (P : State → Prop) (hhost : ∀ s q, P s → P { s with host := q })
    (hread : ∀ s off, P s → P (s.hostRead off)) (hwrite : ∀ s off v, P s → P (s.hostWrite off v))
    (hovr : ∀ s, P s → P { s with cmdOvr := true }) (hbegin : ∀ s w, P s → P (s.begin w))
    (hreset : ∀ (s : State) b, P s → P { s.hardwareReset with resetLine := b })
    (hrun : ∀ i s, P s → P (runBody (bodyOf i) Config.burst s))
    (hillegal : ∀ s, P s → P (runBody illegalBody Config.burst s))
    {s t : State} (hs : P s) (h : step s = .next t) : P t := by
  have word : ∀ w s t, P s → runWord w s = .next t → P t := by
    intro w s t hs h
    rcases of_runWord_next h with ⟨i, w', rfl⟩ | ⟨w', rfl⟩
    · exact hrun _ _ (hbegin _ _ hs)
    · exact hillegal _ (hbegin _ _ hs)
  rcases of_step_next h with rfl | ⟨e, rest, -, h⟩ | ⟨c, p, -, h⟩
  · exact hs
  · have hs := hhost s rest hs
    rcases of_hostAction_next h with ⟨off, rfl⟩ | ⟨off, v, rfl⟩ | rfl | ⟨w, -, h⟩ | ⟨b, rfl⟩ | rfl
    · exact hread _ _ hs
    · exact hwrite _ _ _ hs
    · exact hovr _ hs
    · exact word _ _ _ hs h
    · exact hreset _ _ hs
    · exact hs
  · exact word _ _ _ hs h

end Sys2Proof.Machine
end

