-- ==== Sys2Proof/Laws/Bus.lean ====
section
/-! SUPPORT. What each bus primitive and each shared point of the bus commands can do, said once. -/

namespace Sys2Proof.Machine

/-! ### The environments -/

/-- An answer of the I2C environment uses up the script or a draw, and nothing else. -/
theorem of_nextReply {s s1 : State} {r : I2cReply} (h : s.nextReply = some (r, s1)) :
    ∃ script draws, s1 = { s with i2cScript := script, draws := draws } := by
  unfold State.nextReply at h
  split at h
  · split at h
    · cases h; exact ⟨_, _, rfl⟩
    · cases h
  · split at h
    · cases h; exact ⟨_, _, rfl⟩
    · cases h

/-- A sample uses up the script or a draw, and nothing else. -/
theorem sampleLine_spec (s : State) :
    ∃ script draws, s.sampleLine.2 = { s with owiScript := script, draws := draws } := by
  unfold State.sampleLine
  split
  · exact ⟨_, _, rfl⟩
  · exact ⟨_, _, rfl⟩

/-- A wait uses up an answer of the I2C environment, and nothing else. -/
theorem waitPoint_spec (s : State) :
    ∃ script draws, s.waitPoint = { s with i2cScript := script, draws := draws } := by
  unfold State.waitPoint
  split
  · exact ⟨_, _, rfl⟩
  · exact ⟨_, _, rfl⟩

/-- A progress point brings the next host action nearer, and does nothing else. -/
theorem passPoint_spec (s : State) : ∃ host, s.passPoint = { s with host := host } := by
  unfold State.passPoint
  split
  · exact ⟨_, rfl⟩
  · split
    · exact ⟨_, rfl⟩
    · exact ⟨_, rfl⟩
    · exact ⟨_, rfl⟩

/-! ### The I2C phases -/

theorem i2cStartPhase_of {s s1 : State} {r : I2cReply} (h : s.nextReply = some (r, s1)) :
    s.i2cStartPhase = some (r.ok, { s1.emit (.i2cStart s.i2cOpen r.ok) with i2cHeld := true }) := by
  simp [State.i2cStartPhase, h]

theorem i2cSendPhase_of {s s1 : State} {r : I2cReply} (b : Byte) (h : s.nextReply = some (r, s1)) :
    s.i2cSendPhase b = some (r.ok, s1.emit (.i2cSend b r.ok)) := by
  simp [State.i2cSendPhase, h]

theorem i2cRecvPhase_of {s s1 : State} {r : I2cReply} (a : Bool) (h : s.nextReply = some (r, s1)) :
    s.i2cRecvPhase a = some (r.byte, s1.emit (.i2cRecv r.byte a)) := by
  simp [State.i2cRecvPhase, h]

theorem i2cStopPhase_of {s s1 : State} {r : I2cReply} (h : s.nextReply = some (r, s1)) :
    s.i2cStopPhase = some { s1.emit .i2cStop with i2cHeld := false } := by
  simp [State.i2cStopPhase, h]

theorem of_i2cStartPhase {s t : State} {ok : Bool} (h : s.i2cStartPhase = some (ok, t)) :
    ∃ script draws, t = { s with
      i2cScript := script, draws := draws, trace := .i2cStart s.i2cOpen ok :: s.trace, i2cHeld := true } := by
  cases hr : s.nextReply with
  | none => simp [State.i2cStartPhase, hr] at h
  | some p =>
    obtain ⟨sc, d, hs⟩ := of_nextReply hr
    rw [i2cStartPhase_of hr] at h
    cases h
    exact ⟨sc, d, by simp [State.emit, hs]⟩

theorem of_i2cSendPhase {s t : State} {b : Byte} {ok : Bool} (h : s.i2cSendPhase b = some (ok, t)) :
    ∃ script draws, t = { s with i2cScript := script, draws := draws, trace := .i2cSend b ok :: s.trace } := by
  cases hr : s.nextReply with
  | none => simp [State.i2cSendPhase, hr] at h
  | some p =>
    obtain ⟨sc, d, hs⟩ := of_nextReply hr
    rw [i2cSendPhase_of b hr] at h
    cases h
    exact ⟨sc, d, by simp [State.emit, hs]⟩

theorem of_i2cRecvPhase {s t : State} {a : Bool} {b : Byte} (h : s.i2cRecvPhase a = some (b, t)) :
    ∃ script draws, t = { s with i2cScript := script, draws := draws, trace := .i2cRecv b a :: s.trace } := by
  cases hr : s.nextReply with
  | none => simp [State.i2cRecvPhase, hr] at h
  | some p =>
    obtain ⟨sc, d, hs⟩ := of_nextReply hr
    rw [i2cRecvPhase_of a hr] at h
    cases h
    exact ⟨sc, d, by simp [State.emit, hs]⟩

theorem of_i2cStopPhase {s t : State} (h : s.i2cStopPhase = some t) :
    ∃ script draws, t = { s with
      i2cScript := script, draws := draws, trace := .i2cStop :: s.trace, i2cHeld := false } := by
  cases hr : s.nextReply with
  | none => simp [State.i2cStopPhase, hr] at h
  | some p =>
    obtain ⟨sc, d, hs⟩ := of_nextReply hr
    rw [i2cStopPhase_of hr] at h
    cases h
    exact ⟨sc, d, by simp [State.emit, hs]⟩

/-! ### The shared points of the I2C commands -/

theorem of_i2cFailPoint {e : Result} {s t : State} {nx : Next} (h : i2cFailPoint e s = some (t, nx)) :
    ∃ script draws, nx = .complete e ∧ t = { s with
      i2cScript := script, draws := draws, trace := .i2cStop :: s.trace, i2cHeld := false, i2cOpen := false } := by
  cases hp : s.i2cStopPhase with
  | none => simp [i2cFailPoint, hp] at h
  | some s1 =>
    obtain ⟨sc, d, hs⟩ := of_i2cStopPhase hp
    simp only [i2cFailPoint, hp, raise, Option.bind_eq_bind, Option.bind_some, Option.pure_def,
      Option.some.injEq, Prod.mk.injEq] at h
    exact ⟨sc, d, h.2.symm, by rw [← h.1, hs]⟩

theorem of_i2cClosePoint {s t : State} {nx : Next} (h : i2cClosePoint s = some (t, nx)) :
    ∃ script draws, nx = .complete .ok ∧ t = { s with
      i2cScript := script, draws := draws, trace := .i2cStop :: s.trace, i2cHeld := false, i2cOpen := false } := by
  cases hp : s.i2cStopPhase with
  | none => simp [i2cClosePoint, hp] at h
  | some s1 =>
    obtain ⟨sc, d, hs⟩ := of_i2cStopPhase hp
    simp only [i2cClosePoint, hp, finish, Option.bind_eq_bind, Option.bind_some, Option.pure_def,
      Option.some.injEq, Prod.mk.injEq] at h
    exact ⟨sc, d, h.2.symm, by rw [← h.1, hs]⟩

theorem of_startPoint {dir : Bool} {s t : State} {nx : Next} (h : startPoint dir s = some (t, nx)) :
    ∃ script draws,
      (nx = .goto .i2cAddr ∧ t = { s with
        i2cScript := script, draws := draws, trace := .i2cStart s.i2cOpen true :: s.trace, i2cHeld := true
        i2cCode := if s.i2cOpen then .repStarted else .started, i2cOpen := true, i2cDir := dir }) ∨
      (nx = .goto (.i2cFail .eI2cStart) ∧ t = { s with
        i2cScript := script, draws := draws, trace := .i2cStart s.i2cOpen false :: s.trace, i2cHeld := true
        i2cCode := .startFailed }) := by
  cases hp : s.i2cStartPhase with
  | none => simp [startPoint, hp] at h
  | some p =>
    obtain ⟨ok, s1⟩ := p
    obtain ⟨sc, d, hs⟩ := of_i2cStartPhase hp
    subst hs
    cases ok <;> simp [startPoint, hp] at h <;> obtain ⟨rfl, rfl⟩ := h
    · exact ⟨sc, d, .inr ⟨rfl, rfl⟩⟩
    · exact ⟨sc, d, .inl ⟨rfl, rfl⟩⟩

theorem of_sendPoint {b : Byte} {after : State → State × Next} {s t : State} {nx : Next}
    (h : sendPoint b after s = some (t, nx)) :
    ∃ script draws,
      ((t, nx) = after { s with
        i2cScript := script, draws := draws, trace := .i2cSend b true :: s.trace, i2cCode := .dataAcked }) ∨
      (nx = .goto (.i2cFail .eI2cNack) ∧ t = { s with
        i2cScript := script, draws := draws, trace := .i2cSend b false :: s.trace, i2cCode := .noAck }) := by
  cases hp : s.i2cSendPhase b with
  | none => simp [sendPoint, hp] at h
  | some p =>
    obtain ⟨ok, s1⟩ := p
    obtain ⟨sc, d, hs⟩ := of_i2cSendPhase hp
    subst hs
    cases ok <;> simp [sendPoint, hp] at h
    · exact ⟨sc, d, .inr ⟨h.2.symm, h.1.symm⟩⟩
    · exact ⟨sc, d, .inl h.symm⟩

theorem of_addrPoint {dir : Bool} {after : State → State × Next} {s t : State} {nx : Next}
    (h : addrPoint dir after s = some (t, nx)) :
    ∃ script draws,
      ((t, nx) = after { s with
        i2cScript := script, draws := draws, trace := .i2cSend (s.sla dir) true :: s.trace
        i2cCode := .addrAcked }) ∨
      (nx = .goto (.i2cFail .eI2cNack) ∧ t = { s with
        i2cScript := script, draws := draws, trace := .i2cSend (s.sla dir) false :: s.trace, i2cCode := .noAck }) := by
  cases hp : s.i2cSendPhase (s.sla dir) with
  | none => simp [addrPoint, hp] at h
  | some p =>
    obtain ⟨ok, s1⟩ := p
    obtain ⟨sc, d, hs⟩ := of_i2cSendPhase hp
    subst hs
    cases ok <;> simp [addrPoint, hp] at h
    · exact ⟨sc, d, .inr ⟨h.2.symm, h.1.symm⟩⟩
    · exact ⟨sc, d, .inl h.symm⟩

/-! ### The 1-Wire line -/

/-- A line action adds one 1-Wire event, which leaves the I2C bus as it is, and moves OWI_DRIVE. -/
theorem lineOp_spec (s : State) (op : LineOp) (got : Bool) :
    ∃ script draws e, (∀ v, busNext v e = some v) ∧ (s.lineOp op got).2 = { s with
      owiScript := script, draws := draws, owiDrive := driveAfter s.owiDrive [op], trace := e :: s.trace } := by
  cases op with
  | low => exact ⟨_, _, .owiLow, fun v => by cases v <;> rfl, rfl⟩
  | release => exact ⟨_, _, .owiRelease, fun v => by cases v <;> rfl, rfl⟩
  | wait us => exact ⟨_, _, .owiWait us, fun v => by cases v <;> rfl, rfl⟩
  | sample =>
    obtain ⟨sc, d, h⟩ := sampleLine_spec s
    exact ⟨sc, d, .owiSample s.sampleLine.1, fun v => by cases v <;> rfl, by simp [State.lineOp, h, State.emit, driveAfter]⟩

theorem driveAfter_cons (d : Bool) (op : LineOp) (ops : List LineOp) :
    driveAfter d (op :: ops) = driveAfter (driveAfter d [op]) ops := by
  cases op <;> rfl

/-- A slot leaves the line released (R193, R194), and so does the reset pulse (R192). -/
@[simp] theorem driveAfter_writeSlot (p : Params) (d b : Bool) : driveAfter d (writeSlot p b) = false := rfl
@[simp] theorem driveAfter_readSlot (p : Params) (d : Bool) : driveAfter d (readSlot p) = false := rfl
@[simp] theorem driveAfter_resetPulse (p : Params) (d : Bool) : driveAfter d (resetPulse p) = false := rfl

/-- What a point of a 1-Wire command can be: its start, a line action, or the end of a slot. -/
theorem of_owiBody {start : State → State × Next} {back : OwiJob → Bool → State → Option (State × Next)}
    {p : Progress} {s t : State} {nx : Next} (h : owiBody start back p s = some (t, nx)) :
    (p = .first ∧ start s = (t, nx)) ∨
    (∃ op todo got job, p = .slot (op :: todo) got job ∧ t = (s.lineOp op got).2 ∧
      nx = .goto (.slot todo (s.lineOp op got).1 job)) ∨
    ∃ got job, p = .slot [] got job ∧ back job got s = some (t, nx) := by
  unfold owiBody at h
  split at h
  · exact .inl ⟨rfl, Option.some.inj h⟩
  · simp only [Option.some.injEq, Prod.mk.injEq] at h
    exact .inr (.inl ⟨_, _, _, _, rfl, h.1.symm, h.2.symm⟩)
  · exact .inr (.inr ⟨_, _, rfl, h⟩)
  · cases h

end Sys2Proof.Machine
end

