-- ==== Sys2Proof/Laws/Memory.lean ====
section
/-! SUPPORT. The buffer memory: read after write, what a write leaves alone, and the canonical form. -/

namespace Sys2Proof.Machine

theorem Memory.read_write_same (m : List Host.Cell) (a : Nat) (v : Byte) :
    Memory.read (Memory.write m a v) a = some v := by
  induction m with
  | nil => simp [Memory.write, Memory.read]
  | cons c m ih =>
    unfold Memory.write
    split
    · simp [Memory.read]
    · split
      · simp [Memory.read]
      · rename_i hne
        simp [Memory.read, hne, ih]

theorem Memory.read_write_other (m : List Host.Cell) {a b : Nat} (v : Byte) (h : b ≠ a) :
    Memory.read (Memory.write m a v) b = Memory.read m b := by
  induction m with
  | nil => simp [Memory.write, Memory.read, h]
  | cons c m ih =>
    unfold Memory.write
    split
    · simp [Memory.read, h]
    · split
      · rename_i heq
        simp [Memory.read, ← heq, h]
      · simp [Memory.read, ih]

/-- A write adds no offset but its own. -/
theorem Memory.all_write (m : List Host.Cell) (a : Nat) (v : Byte) (p : Host.Cell → Bool) (ha : p (a, v) = true)
    (hm : m.all p = true) : (Memory.write m a v).all p = true := by
  induction m with
  | nil => simp [Memory.write, ha]
  | cons c m ih =>
    simp only [List.all_cons, Bool.and_eq_true] at hm
    unfold Memory.write
    split
    · simp [ha, hm.1, hm.2]
    · split
      · simp [ha, hm.2]
      · simp only [List.all_cons, hm.1, Bool.true_and]
        exact ih hm.2

theorem Memory.wf_write (m : List Host.Cell) (a : Nat) (v : Byte) (ha : inBuffer a = true)
    (hm : Memory.wf m = true) : Memory.wf (Memory.write m a v) = true := by
  induction m with
  | nil => simp [Memory.write, Memory.wf, ha]
  | cons c m ih =>
    simp only [Memory.wf, Bool.and_eq_true] at hm
    obtain ⟨⟨hc, hlt⟩, hwf⟩ := hm
    unfold Memory.write
    split
    · rename_i hac
      simp only [Memory.wf, List.all_cons, Bool.and_eq_true, decide_eq_true_eq]
      refine ⟨⟨ha, hac, ?_⟩, ⟨hc, hlt⟩, hwf⟩
      rw [List.all_eq_true] at hlt ⊢
      intro d hd
      have := hlt d hd
      simp only [decide_eq_true_eq] at this ⊢
      omega
    · split
      · rename_i heq
        simp only [Memory.wf, Bool.and_eq_true]
        refine ⟨⟨ha, ?_⟩, hwf⟩
        simpa [heq] using hlt
      · simp only [Memory.wf, Bool.and_eq_true]
        refine ⟨⟨hc, ?_⟩, ih hwf⟩
        apply Memory.all_write _ _ _ _ _ hlt
        simp only [decide_eq_true_eq]
        omega

/-! ### One byte of a buffer -/

theorem bufferByte_setBufferByte_same (s : State) {off : Nat} (v : Byte) (h : inBuffer off = true) :
    (s.setBufferByte off v).bufferByte off = v := by
  simp [State.setBufferByte, State.bufferByte, h, Memory.read_write_same]

theorem bufferByte_setBufferByte_other (s : State) {off b : Nat} (v : Byte) (h : b ≠ off) :
    (s.setBufferByte off v).bufferByte b = s.bufferByte b := by
  unfold State.setBufferByte
  split
  · simp [State.bufferByte, Memory.read_write_other _ _ h]
  · rfl

theorem setBufferByte_memoryOk (s : State) (off : Nat) (v : Byte) (h : s.memoryOk) :
    (s.setBufferByte off v).memoryOk := by
  unfold State.setBufferByte
  split
  · exact Memory.wf_write _ _ _ ‹_› h
  · exact h

theorem inBuffer_raw {i : Nat} (h : i < Config.bufferSize) : inBuffer (rawBase + i) = true := by
  simp [inBuffer, inRaw, h]

theorem inBuffer_frame {i : Nat} (h : i < Config.bufferSize) : inBuffer (frameBase + i) = true := by
  simp [inBuffer, inFrame, h]

theorem bufferByte_setRaw (s : State) {i : Nat} (v : Byte) (h : i < Config.bufferSize) (b : Nat) :
    (s.setRaw i v).bufferByte b = if b = rawBase + i then v else s.bufferByte b := by
  unfold State.setRaw
  rw [if_pos h]
  split
  · subst b
    exact bufferByte_setBufferByte_same _ _ (inBuffer_raw h)
  · exact bufferByte_setBufferByte_other _ _ ‹_›

theorem bufferByte_setFrame (s : State) {i : Nat} (v : Byte) (h : i < Config.bufferSize) (b : Nat) :
    (s.setFrame i v).bufferByte b = if b = frameBase + i then v else s.bufferByte b := by
  unfold State.setFrame
  rw [if_pos h]
  split
  · subst b
    exact bufferByte_setBufferByte_same _ _ (inBuffer_frame h)
  · exact bufferByte_setBufferByte_other _ _ ‹_›

theorem setRaw_memoryOk (s : State) (i : Nat) (v : Byte) (h : s.memoryOk) : (s.setRaw i v).memoryOk := by
  unfold State.setRaw
  split
  · exact setBufferByte_memoryOk _ _ _ h
  · exact h

theorem setFrame_memoryOk (s : State) (i : Nat) (v : Byte) (h : s.memoryOk) : (s.setFrame i v).memoryOk := by
  unfold State.setFrame
  split
  · exact setBufferByte_memoryOk _ _ _ h
  · exact h

/-- A write to RAW[i] leaves every other byte alone, whatever `i` is. -/
theorem bufferByte_setRaw_other (s : State) (i : Nat) (v : Byte) {b : Nat} (h : b ≠ rawBase + i) :
    (s.setRaw i v).bufferByte b = s.bufferByte b := by
  unfold State.setRaw
  split
  · exact bufferByte_setBufferByte_other _ _ h
  · rfl

/-- A write to FRAME[i] leaves every other byte alone, whatever `i` is. -/
theorem bufferByte_setFrame_other (s : State) (i : Nat) (v : Byte) {b : Nat} (h : b ≠ frameBase + i) :
    (s.setFrame i v).bufferByte b = s.bufferByte b := by
  unfold State.setFrame
  split
  · exact bufferByte_setBufferByte_other _ _ h
  · rfl

/-! ### A run of bytes -/

theorem storeRaw_memoryOk (s : State) (i : Nat) (l : List Byte) (h : s.memoryOk) : (s.storeRaw i l).memoryOk := by
  induction l generalizing s i with
  | nil => exact h
  | cons b l ih => exact ih _ _ (setRaw_memoryOk _ _ _ h)

theorem storeFrame_memoryOk (s : State) (i : Nat) (l : List Byte) (h : s.memoryOk) : (s.storeFrame i l).memoryOk := by
  induction l generalizing s i with
  | nil => exact h
  | cons b l ih => exact ih _ _ (setFrame_memoryOk _ _ _ h)

/-- Bytes stored from RAW[i] on leave every byte outside them alone. -/
theorem bufferByte_storeRaw_other (s : State) (i : Nat) (l : List Byte) {b : Nat}
    (h : ∀ k, k < l.length → b ≠ rawBase + (i + k)) : (s.storeRaw i l).bufferByte b = s.bufferByte b := by
  induction l generalizing s i with
  | nil => rfl
  | cons v l ih =>
    rw [State.storeRaw, ih]
    · exact bufferByte_setRaw_other _ _ _ (h 0 (by simp))
    · intro k hk
      have := h (k + 1) (by simpa using hk)
      omega

/-- Bytes stored from FRAME[i] on leave every byte outside them alone. -/
theorem bufferByte_storeFrame_other (s : State) (i : Nat) (l : List Byte) {b : Nat}
    (h : ∀ k, k < l.length → b ≠ frameBase + (i + k)) : (s.storeFrame i l).bufferByte b = s.bufferByte b := by
  induction l generalizing s i with
  | nil => rfl
  | cons v l ih =>
    rw [State.storeFrame, ih]
    · exact bufferByte_setFrame_other _ _ _ (h 0 (by simp))
    · intro k hk
      have := h (k + 1) (by simpa using hk)
      omega

/-- Bytes stored from RAW[i] on are read back in order. -/
theorem rawFrom_storeRaw (s : State) (i : Nat) (l : List Byte) (h : i + l.length ≤ Config.bufferSize) :
    (s.storeRaw i l).rawFrom i l.length = l := by
  induction l generalizing s i with
  | nil => rfl
  | cons v l ih =>
    simp only [List.length_cons] at h
    simp only [State.storeRaw, List.length_cons, State.rawFrom, List.cons.injEq]
    refine ⟨?_, ih _ _ (by omega)⟩
    rw [State.rawAt, bufferByte_storeRaw_other]
    · rw [bufferByte_setRaw _ _ (by omega), if_pos rfl]
    · intro k _
      omega

/-- Bytes stored from FRAME[i] on are read back in order. -/
theorem frameFrom_storeFrame (s : State) (i : Nat) (l : List Byte) (h : i + l.length ≤ Config.bufferSize) :
    (s.storeFrame i l).frameFrom i l.length = l := by
  induction l generalizing s i with
  | nil => rfl
  | cons v l ih =>
    simp only [List.length_cons] at h
    simp only [State.storeFrame, List.length_cons, State.frameFrom, List.cons.injEq]
    refine ⟨?_, ih _ _ (by omega)⟩
    rw [State.frameAt, bufferByte_storeFrame_other]
    · rw [bufferByte_setFrame _ _ (by omega), if_pos rfl]
    · intro k _
      omega

@[simp] theorem rawFrom_length (s : State) (i n : Nat) : (s.rawFrom i n).length = n := by
  induction n generalizing i with
  | zero => rfl
  | succ n ih => simp [State.rawFrom, ih]

@[simp] theorem frameFrom_length (s : State) (i n : Nat) : (s.frameFrom i n).length = n := by
  induction n generalizing i with
  | zero => rfl
  | succ n ih => simp [State.frameFrom, ih]

theorem rawFrom_getElem (s : State) (i n k : Nat) (h : k < (s.rawFrom i n).length) :
    (s.rawFrom i n)[k] = s.rawAt (i + k) := by
  induction n generalizing i k with
  | zero => simp at h
  | succ n ih =>
    cases k with
    | zero => simp [State.rawFrom]
    | succ k =>
      simp only [State.rawFrom, List.getElem_cons_succ, ih]
      congr 1
      omega

theorem frameFrom_getElem (s : State) (i n k : Nat) (h : k < (s.frameFrom i n).length) :
    (s.frameFrom i n)[k] = s.frameAt (i + k) := by
  induction n generalizing i k with
  | zero => simp at h
  | succ n ih =>
    cases k with
    | zero => simp [State.frameFrom]
    | succ k =>
      simp only [State.frameFrom, List.getElem_cons_succ, ih]
      congr 1
      omega

/-- A span of RAW depends on its bytes only. -/
theorem rawFrom_congr {s t : State} (i n : Nat) (h : ∀ k, k < n → t.rawAt (i + k) = s.rawAt (i + k)) :
    t.rawFrom i n = s.rawFrom i n := by
  apply List.ext_getElem (by simp)
  intro k hk hk'
  rw [rawFrom_getElem, rawFrom_getElem]
  exact h k (by simpa using hk)

end Sys2Proof.Machine
end

