-- ==== Sys2Proof/Laws/Search.lean ====
section
/-! SUPPORT. What each point of a search can do, said once. -/

namespace Sys2Proof.Machine

/-- Only the discovery registers differ. -/
def onlyDiscovery (s t : State) : Prop :=
  t = { s with srchLd := t.srchLd, srchLfd := t.srchLfd, ldf := t.ldf, rom := t.rom, owiCrc8 := t.owiCrc8 }

/-- The values of the discovery registers alone are legal (R31, R226). -/
def registersLegal (s : State) : Prop :=
  s.srchLd.toNat ≤ Config.romBits ∧ s.srchLfd.toNat ≤ 8 ∧ (s.ldf = true → s.srchLd = 0)

/-- Where a point of a search goes: into a slot that ends with the line released, or to its end. `ok`: its bit
numbers were legal. -/
def slotOrEnd (ok : Prop) (nx : Next) : Prop :=
  (∃ ops job, nx = .goto (.slot ops false job) ∧ (ok → job.legal) ∧ ∀ d, driveAfter d ops = false) ∨
    ∃ r, nx = .complete r

/-- What a point of a search does: it moves the discovery registers only, goes to a slot or to its end, and, if its
bit numbers were legal, keeps everything legal. -/
def SearchPoint (ok : Prop) (s t : State) (nx : Next) : Prop :=
  onlyDiscovery s t ∧ (ok → registersLegal s → registersLegal t) ∧ slotOrEnd ok nx

theorem registersLegal_resetSearch (s : State) : registersLegal s.resetSearch := by
  simp [registersLegal, State.resetSearch]

theorem searchFail_point {ok : Prop} {e : Result} {s t : State} {nx : Next} (h : searchFail e s = (t, nx)) :
    SearchPoint ok s t nx := by
  cases h
  exact ⟨rfl, fun _ _ => registersLegal_resetSearch s, .inr ⟨_, rfl⟩⟩

theorem searchStart_point {s t : State} {nx : Next} (h : searchStart s = (t, nx)) : SearchPoint True s t nx := by
  unfold searchStart at h
  split at h
  · exact searchFail_point h
  · cases h
    exact ⟨rfl, fun _ => id, .inl ⟨_, _, rfl, fun _ => trivial, fun _ => rfl⟩⟩

theorem owiSfirstStart_point {s t : State} {nx : Next} (h : owiSfirstStart s = (t, nx)) : SearchPoint True s t nx := by
  have h : enterPulse .searchReset s.resetSearch = (t, nx) := h
  cases h
  exact ⟨rfl, fun _ _ => registersLegal_resetSearch s, .inl ⟨_, _, rfl, fun _ => trivial, fun _ => rfl⟩⟩

theorem searchEnd_point {lastZero : Nat} {crc : Byte} {s t : State} {nx : Next}
    (h : searchEnd lastZero crc s = (t, nx)) : SearchPoint (lastZero ≤ Config.romBits) s t nx := by
  unfold searchEnd at h
  split at h
  · exact searchFail_point h
  · split at h
    · exact searchFail_point h
    · cases h
      refine ⟨rfl, fun hz hl => ⟨?_, hl.2.1, ?_⟩, .inr ⟨_, rfl⟩⟩
      · simp only [Config.romBits] at hz ⊢
        rw [BitVec.toNat_ofNat]
        omega
      · intro hd
        simp only [decide_eq_true_eq] at hd
        simp [hd]

theorem searchAdvance_point {n lastZero : Nat} {crc : Byte} {s t : State} {nx : Next}
    (h : searchAdvance n lastZero crc s = (t, nx)) : SearchPoint (lastZero ≤ Config.romBits) s t nx := by
  unfold searchAdvance at h
  split at h
  · cases h
    exact ⟨rfl, fun _ => id, .inl ⟨_, _, rfl, fun hz => ⟨by omega, by omega, hz⟩, fun _ => rfl⟩⟩
  · exact searchEnd_point h

theorem searchWritten_point {n lastZero : Nat} {crc : Byte} {s t : State} {nx : Next}
    (h : searchWritten n lastZero crc s = (t, nx)) : SearchPoint (lastZero ≤ Config.romBits) s t nx := by
  unfold searchWritten at h
  split at h
  · obtain ⟨h1, h2, h3⟩ := searchAdvance_point h
    refine ⟨?_, fun hz hl => h2 hz hl, h3⟩
    unfold onlyDiscovery at h1 ⊢
    exact h1
  · exact searchAdvance_point h

theorem searchChoose_point {n lastZero : Nat} {crc : Byte} {id cmp : Bool} {s t : State} {nx : Next}
    (h : searchChoose n lastZero crc id cmp s = (t, nx)) :
    SearchPoint (1 ≤ n ∧ n ≤ Config.romBits ∧ lastZero ≤ Config.romBits) s t nx := by
  unfold searchChoose at h
  split at h
  · exact searchFail_point h
  · cases h
    refine ⟨?_, fun hz hl => ?_, .inl ⟨_, _, rfl, fun hz => ⟨hz.1, hz.2.1, ?_⟩, fun _ => rfl⟩⟩
    · unfold onlyDiscovery State.noteFamily State.setRomBit
      split <;> rfl
    · unfold registersLegal State.noteFamily at *
      refine ⟨?_, ?_, ?_⟩ <;> split <;> try first | exact hl.1 | exact hl.2.1 | exact hl.2.2
      rename_i hc
      simp only [Bool.and_eq_true, decide_eq_true_eq] at hc
      simp only [setRomBit_srchLfd, BitVec.toNat_ofNat]
      omega
    · split
      · exact hz.2.1
      · exact hz.2.2

/-- What a search does at the end of each of its slots. -/
theorem searchBack_point {job : OwiJob} {got : Bool} {s t : State} {nx : Next}
    (h : searchBack job got s = some (t, nx)) : SearchPoint job.legal s t nx := by
  unfold searchBack at h
  split at h <;> simp only [Option.some.injEq, reduceCtorEq] at h
  · unfold searchPresence at h
    split at h
    · exact searchFail_point h
    · cases h
      exact ⟨rfl, fun _ => id, .inl ⟨_, _, rfl, fun _ => trivial, fun _ => rfl⟩⟩
  · unfold searchCommand at h
    split at h
    · cases h
      exact ⟨rfl, fun _ => id, .inl ⟨_, _, rfl, fun _ => trivial, fun _ => rfl⟩⟩
    · cases h
      exact ⟨rfl, fun _ => id, .inl ⟨_, _, rfl, fun _ => ⟨by decide, by decide, by decide⟩, fun _ => rfl⟩⟩
  · cases h
    exact ⟨rfl, fun _ => id, .inl ⟨_, _, rfl, id, fun _ => rfl⟩⟩
  · exact searchChoose_point h
  · obtain ⟨h1, h2, h3⟩ := searchWritten_point h
    refine ⟨h1, fun hj => h2 hj.2.2, ?_⟩
    rcases h3 with ⟨ops, job', h4, h5, h6⟩ | h3
    · exact .inl ⟨ops, job', h4, fun hj => h5 hj.2.2, h6⟩
    · exact .inr h3

end Sys2Proof.Machine
end

