-- ==== Sys2Proof/Laws/Frames.lean ====
section
/-! SUPPORT. Which fields a point of each command can write. -/

namespace Sys2Proof.Machine

/-- `t` differs from `s` only in fields that the command `i` writes. -/
def onlyWrites (i : Instr) (s t : State) : Prop :=
  match i with
  | .nop => t = s
  | .sreset =>
    t = { s with
      data := t.data, len := t.len, flen := t.flen, crc := t.crc, i2cAddr := t.i2cAddr, i2cCode := t.i2cCode
      i2cOpen := t.i2cOpen, i2cDir := t.i2cDir, i2cHeld := t.i2cHeld, srchLd := t.srchLd, srchLfd := t.srchLfd
      ldf := t.ldf, rom := t.rom, owiCrc8 := t.owiCrc8, owiDrive := t.owiDrive, cmdOvr := t.cmdOvr
      accErr := t.accErr, trace := t.trace, i2cScript := t.i2cScript, draws := t.draws }
  | .crcClr | .crcByte | .crcBuf => t = { s with crc := t.crc }
  | .cobsEnc => t = { s with flen := t.flen, mem := t.mem }
  | .cobsDec => t = { s with len := t.len, flen := t.flen, mem := t.mem }
  | .i2cStartw | .i2cStartr | .i2cWrite | .i2cStop | .i2cWriten =>
    t = { s with
      i2cCode := t.i2cCode, i2cOpen := t.i2cOpen, i2cDir := t.i2cDir, i2cHeld := t.i2cHeld
      trace := t.trace, i2cScript := t.i2cScript, draws := t.draws }
  | .i2cRead _ =>
    t = { s with
      data := t.data, i2cCode := t.i2cCode, trace := t.trace, i2cScript := t.i2cScript, draws := t.draws }
  | .i2cReadn =>
    t = { s with
      i2cCode := t.i2cCode, i2cOpen := t.i2cOpen, i2cDir := t.i2cDir, i2cHeld := t.i2cHeld, mem := t.mem
      trace := t.trace, i2cScript := t.i2cScript, draws := t.draws }
  | .owiReset | .owiWbit | .owiWbyte =>
    t = { s with owiDrive := t.owiDrive, trace := t.trace, owiScript := t.owiScript, draws := t.draws }
  | .owiRbit | .owiRbyte =>
    t = { s with
      data := t.data, owiDrive := t.owiDrive, trace := t.trace, owiScript := t.owiScript, draws := t.draws }
  | .owiSfirst | .owiSnext =>
    t = { s with
      srchLd := t.srchLd, srchLfd := t.srchLfd, ldf := t.ldf, rom := t.rom, owiCrc8 := t.owiCrc8
      owiDrive := t.owiDrive, trace := t.trace, owiScript := t.owiScript, draws := t.draws }

theorem setBufferByte_spec (s : State) (off : Nat) (v : Byte) :
    s.setBufferByte off v = { s with mem := (s.setBufferByte off v).mem } := by
  unfold State.setBufferByte
  split <;> rfl

theorem setRaw_spec (s : State) (i : Nat) (v : Byte) : s.setRaw i v = { s with mem := (s.setRaw i v).mem } := by
  unfold State.setRaw
  split
  · exact setBufferByte_spec _ _ _
  · rfl

theorem setFrame_spec (s : State) (i : Nat) (v : Byte) : s.setFrame i v = { s with mem := (s.setFrame i v).mem } := by
  unfold State.setFrame
  split
  · exact setBufferByte_spec _ _ _
  · rfl

theorem storeRaw_spec (s : State) (i : Nat) (l : List Byte) :
    s.storeRaw i l = { s with mem := (s.storeRaw i l).mem } := by
  induction l generalizing s i with
  | nil => rfl
  | cons b l ih => rw [State.storeRaw, ih, setRaw_spec]

theorem storeFrame_spec (s : State) (i : Nat) (l : List Byte) :
    s.storeFrame i l = { s with mem := (s.storeFrame i l).mem } := by
  induction l generalizing s i with
  | nil => rfl
  | cons b l ih => rw [State.storeFrame, ih, setFrame_spec]

/-- What `cobs.dec` stores at its end. -/
theorem storeDecoding_spec (d : Decoding) (s : State) :
    storeDecoding d s = ({ s with
      mem := (s.storeRaw 0 d.out).mem, len := BitVec.ofNat 8 d.out.length, flen := BitVec.ofNat 8 d.flen },
      .complete d.code) := by
  unfold storeDecoding
  rw [storeRaw_spec]

/-- What a point of `owi.reset`, `owi.wbit`, `owi.rbit`, `owi.wbyte` or `owi.rbyte` does where a slot starts or ends:
it writes DATA at most, and goes to a slot or to its end. -/
def DataPoint (s t : State) (nx : Next) : Prop := t = { s with data := t.data } ∧ slotOrEnd True nx

theorem owiResetBack_point {job : OwiJob} {got : Bool} {s t : State} {nx : Next}
    (h : owiResetBack job got s = some (t, nx)) : t = s ∧ slotOrEnd True nx := by
  unfold owiResetBack at h
  split at h <;> cases h
  exact ⟨rfl, .inr ⟨_, rfl⟩⟩

theorem owiWbitBack_point {job : OwiJob} {got : Bool} {s t : State} {nx : Next}
    (h : owiWbitBack job got s = some (t, nx)) : t = s ∧ slotOrEnd True nx := by
  unfold owiWbitBack at h
  split at h <;> cases h
  exact ⟨rfl, .inr ⟨_, rfl⟩⟩

theorem owiRbitBack_point {job : OwiJob} {got : Bool} {s t : State} {nx : Next}
    (h : owiRbitBack job got s = some (t, nx)) : DataPoint s t nx := by
  unfold owiRbitBack at h
  split at h <;> cases h
  exact ⟨rfl, .inr ⟨_, rfl⟩⟩

theorem owiWbyteBack_point {job : OwiJob} {got : Bool} {s t : State} {nx : Next}
    (h : owiWbyteBack job got s = some (t, nx)) : t = s ∧ slotOrEnd True nx := by
  unfold owiWbyteBack at h
  split at h
  · split at h <;> cases h
    · exact ⟨rfl, .inl ⟨_, _, rfl, fun _ => trivial, fun _ => rfl⟩⟩
    · exact ⟨rfl, .inr ⟨_, rfl⟩⟩
  · cases h

theorem owiRbyteBack_point {job : OwiJob} {got : Bool} {s t : State} {nx : Next}
    (h : owiRbyteBack job got s = some (t, nx)) : DataPoint s t nx := by
  unfold owiRbyteBack at h
  split at h
  · split at h <;> cases h
    · exact ⟨rfl, .inl ⟨_, _, rfl, fun _ => trivial, fun _ => rfl⟩⟩
    · exact ⟨rfl, .inr ⟨_, rfl⟩⟩
  · cases h

/-- A 1-Wire command writes what its start and its slot ends write, and the line. -/
theorem owiBody_writes {start : State → State × Next} {back : OwiJob → Bool → State → Option (State × Next)}
    (R : State → State → Prop) (hstart : ∀ s t nx, start s = (t, nx) → R s t)
    (hback : ∀ job got s t nx, back job got s = some (t, nx) → R s t)
    (hline : ∀ (s : State) script draws drive trace,
      R s { s with owiScript := script, draws := draws, owiDrive := drive, trace := trace })
    {p : Progress} {s t : State} {nx : Next} (h : owiBody start back p s = some (t, nx)) : R s t := by
  rcases of_owiBody h with ⟨-, h⟩ | ⟨op, todo, got, job, -, rfl, -⟩ | ⟨got, job, -, h⟩
  · exact hstart _ _ _ h
  · obtain ⟨_, _, _, -, h⟩ := lineOp_spec s op got
    rw [h]
    exact hline _ _ _ _ _
  · exact hback _ _ _ _ _ h

/-- The fields a point of each command can write. -/
theorem bodyOf_writes (i : Instr) (p : Progress) (s t : State) (nx : Next) (h : bodyOf i p s = some (t, nx)) :
    onlyWrites i s t := by
  cases i <;> simp only [bodyOf] at h <;> simp only [onlyWrites]
  case nop =>
    unfold nopBody at h
    split at h <;> cases h
    rfl
  case sreset =>
    unfold sresetBody at h
    split at h
    · split at h <;> cases h <;> rfl
    · cases hp : s.i2cStopPhase with
      | none => simp [hp] at h
      | some s1 =>
        obtain ⟨sc, d, h1⟩ := of_i2cStopPhase hp
        subst h1
        simp only [hp, Option.bind_eq_bind, Option.bind_some, Option.pure_def, Option.some.injEq, Prod.mk.injEq] at h
        obtain ⟨rfl, -⟩ := h
        rfl
    · cases h; rfl
    · cases h
  case crcClr =>
    unfold crcClrBody at h
    split at h <;> cases h
    rfl
  case crcByte =>
    unfold crcByteBody at h
    split at h <;> cases h
    rfl
  case crcBuf =>
    unfold crcBufBody at h
    split at h
    · cases h; rfl
    · split at h <;> cases h <;> rfl
    · cases h
  case cobsEnc =>
    unfold cobsEncBody at h
    split at h
    · split at h <;> cases h <;> rfl
    · split at h
      · cases h; rfl
      · cases h
        rw [storeFrame_spec]
    · cases h
  case cobsDec =>
    unfold cobsDecBody at h
    simp only [storeDecoding_spec] at h
    split at h
    · split at h <;> cases h <;> rfl
    · split at h <;> cases h <;> rfl
    · cases h
  case i2cStartw | i2cStartr =>
    simp only [i2cStartwBody, i2cStartrBody] at h
    split at h
    · cases h; rfl
    · obtain ⟨_, _, ⟨-, rfl⟩ | ⟨-, rfl⟩⟩ := of_startPoint h <;> rfl
    · obtain ⟨_, _, h | ⟨-, rfl⟩⟩ := of_addrPoint h
      · cases h; rfl
      · rfl
    · obtain ⟨_, _, -, rfl⟩ := of_i2cFailPoint h
      rfl
    · cases h
  case i2cWrite =>
    unfold i2cWriteBody at h
    split at h
    · split at h <;> cases h <;> rfl
    · obtain ⟨_, _, h | ⟨-, rfl⟩⟩ := of_sendPoint h
      · cases h; rfl
      · rfl
    · obtain ⟨_, _, -, rfl⟩ := of_i2cFailPoint h
      rfl
    · cases h
  case i2cRead a =>
    unfold i2cReadBody at h
    split at h
    · split at h <;> cases h <;> rfl
    · cases hp : s.i2cRecvPhase a with
      | none => simp [hp] at h
      | some q =>
        obtain ⟨b, s1⟩ := q
        obtain ⟨sc, d, h1⟩ := of_i2cRecvPhase hp
        subst h1
        simp only [hp, finish, Option.bind_eq_bind, Option.bind_some, Option.pure_def, Option.some.injEq,
          Prod.mk.injEq] at h
        obtain ⟨rfl, -⟩ := h
        rfl
    · cases h
  case i2cStop =>
    unfold i2cStopBody at h
    split at h
    · split at h <;> cases h <;> rfl
    · obtain ⟨_, _, -, rfl⟩ := of_i2cClosePoint h
      rfl
    · cases h
  case i2cReadn =>
    unfold i2cReadnBody at h
    split at h
    · split at h <;> cases h <;> rfl
    · obtain ⟨_, _, ⟨-, rfl⟩ | ⟨-, rfl⟩⟩ := of_startPoint h <;> rfl
    · obtain ⟨_, _, h | ⟨-, rfl⟩⟩ := of_addrPoint h
      · cases h; rfl
      · rfl
    · rename_i k
      cases hp : s.i2cRecvPhase (s.readnAck k) with
      | none => simp [hp] at h
      | some q =>
        obtain ⟨b, s1⟩ := q
        obtain ⟨sc, d, h1⟩ := of_i2cRecvPhase hp
        subst h1
        simp only [hp, Option.bind_eq_bind, Option.bind_some, Option.pure_def, Option.some.injEq, Prod.mk.injEq] at h
        obtain ⟨rfl, -⟩ := h
        rw [setRaw_spec]
    · obtain ⟨_, _, -, rfl⟩ := of_i2cClosePoint h
      rfl
    · obtain ⟨_, _, -, rfl⟩ := of_i2cFailPoint h
      rfl
    · cases h
  case i2cWriten =>
    unfold i2cWritenBody at h
    split at h
    · cases h; rfl
    · obtain ⟨_, _, ⟨-, rfl⟩ | ⟨-, rfl⟩⟩ := of_startPoint h <;> rfl
    · obtain ⟨_, _, h | ⟨-, rfl⟩⟩ := of_addrPoint h
      · cases h; rfl
      · rfl
    · obtain ⟨_, _, h | ⟨-, rfl⟩⟩ := of_sendPoint h
      · cases h; rfl
      · rfl
    · obtain ⟨_, _, -, rfl⟩ := of_i2cClosePoint h
      rfl
    · obtain ⟨_, _, -, rfl⟩ := of_i2cFailPoint h
      rfl
    · cases h
  case owiReset =>
    refine owiBody_writes (onlyWrites .owiReset) ?_ ?_ (fun _ _ _ _ _ => rfl) h
    · intro s t nx h
      cases h
      rfl
    · intro job got s t nx h
      rw [(owiResetBack_point h).1]
      rfl
  case owiWbit =>
    refine owiBody_writes (onlyWrites .owiWbit) ?_ ?_ (fun _ _ _ _ _ => rfl) h
    · intro s t nx h
      cases h
      rfl
    · intro job got s t nx h
      rw [(owiWbitBack_point h).1]
      rfl
  case owiWbyte =>
    refine owiBody_writes (onlyWrites .owiWbyte) ?_ ?_ (fun _ _ _ _ _ => rfl) h
    · intro s t nx h
      cases h
      rfl
    · intro job got s t nx h
      rw [(owiWbyteBack_point h).1]
      rfl
  case owiRbit =>
    refine owiBody_writes (onlyWrites .owiRbit) ?_ ?_ (fun _ _ _ _ _ => rfl) h
    · intro s t nx h
      cases h
      rfl
    · intro job got s t nx h
      rw [(owiRbitBack_point h).1]
      rfl
  case owiRbyte =>
    refine owiBody_writes (onlyWrites .owiRbyte) ?_ ?_ (fun _ _ _ _ _ => rfl) h
    · intro s t nx h
      cases h
      rfl
    · intro job got s t nx h
      rw [(owiRbyteBack_point h).1]
      rfl
  case owiSfirst =>
    refine owiBody_writes (onlyWrites .owiSfirst) ?_ ?_ (fun _ _ _ _ _ => rfl) h
    · intro s t nx h
      rw [(owiSfirstStart_point h).1]
      rfl
    · intro job got s t nx h
      rw [(searchBack_point h).1]
      rfl
  case owiSnext =>
    refine owiBody_writes (onlyWrites .owiSnext) ?_ ?_ (fun _ _ _ _ _ => rfl) h
    · intro s t nx h
      rw [(searchStart_point h).1]
      rfl
    · intro job got s t nx h
      rw [(searchBack_point h).1]
      rfl

/-- A relation that covers the fields a command writes, the sequencer, RESULT, the host's queue and the I2C
answers used up holds between a command's start and its end. -/
theorem exec_rel (R : State → State → Prop) (i : Instr)
    (hrefl : ∀ s, R s s) (htrans : ∀ a b c, R a b → R b c → R a c)
    (hseq : ∀ s q, R s { s with seq := q }) (hdone : ∀ s r, R s (s.complete r))
    (hhost : ∀ s host, R s { s with host := host })
    (hwait : ∀ s script draws, R s { s with i2cScript := script, draws := draws })
    (hwrites : ∀ s t, onlyWrites i s t → R s t) {s t : State} (h : exec i s = .next t) : R s t := by
  rw [of_exec_next h]
  refine htrans _ _ _ ?_ (runBody_rel R _ hrefl htrans hseq hdone ?_ ?_
    (fun p s s' nx h => hwrites _ _ (bodyOf_writes _ _ _ _ _ h)) _ _)
  · unfold State.begin
    split
    · exact hseq _ _
    · exact hrefl _
  · intro s
    obtain ⟨_, h⟩ := passPoint_spec s
    rw [h]
    exact hhost _ _
  · intro s
    obtain ⟨_, _, h⟩ := waitPoint_spec s
    rw [h]
    exact hwait _ _ _

end Sys2Proof.Machine
end

