-- ==== Sys2Proof/Laws/Runs.lean ====
section
/-! SUPPORT. A command's run followed point by point, with no host action landing: `Leads` for a stretch of it,
`Ends` for its end; the stretch of one slot; the answers of the I2C environment along it. -/

namespace Sys2Proof.Machine

/-- `s` with the sequencer at the point `p` of the command with word `c`. -/
def State.at (s : State) (c : Byte) (p : Progress) : State := { s with seq := .run c p }

@[simp] theorem at_host (s : State) (c : Byte) (p : Progress) : (s.at c p).host = s.host := rfl
@[simp] theorem at_seq (s : State) (c : Byte) (p : Progress) : (s.at c p).seq = .run c p := rfl
@[simp] theorem at_at (s : State) (c : Byte) (p p' : Progress) : (s.at c p).at c p' = s.at c p' := rfl

/-- From `p` in `s` the command goes on to `p'` in `s'`, in `k` points. -/
def Leads (body : Body) (c : Byte) (k : Nat) (p : Progress) (s : State) (p' : Progress) (s' : State) : Prop :=
  s.undisturbed = true → s'.host = s.host ∧ ∀ n, runBody body (n + k) (s.at c p) = runBody body n (s'.at c p')

/-- From `p` in `s` the command completes, in `k` points, and leaves `t`. -/
def Ends (body : Body) (c : Byte) (k : Nat) (p : Progress) (s t : State) : Prop :=
  s.undisturbed = true → ∀ n, runBody body (n + k) (s.at c p) = t

theorem Leads.refl (body : Body) (c : Byte) (p : Progress) (s : State) : Leads body c 0 p s p s :=
  fun _ => ⟨rfl, fun _ => rfl⟩

theorem Leads.trans {body : Body} {c : Byte} {j k : Nat} {p p' p'' : Progress} {s s' s'' : State}
    (h : Leads body c j p s p' s') (h' : Leads body c k p' s' p'' s'') : Leads body c (k + j) p s p'' s'' := by
  intro hu
  obtain ⟨h1, h2⟩ := h hu
  obtain ⟨h3, h4⟩ := h' ((undisturbed_congr h1).trans hu)
  refine ⟨h3.trans h1, fun n => ?_⟩
  rw [← Nat.add_assoc, h2, h4]

theorem Leads.ends {body : Body} {c : Byte} {j k : Nat} {p p' : Progress} {s s' t : State}
    (h : Leads body c j p s p' s') (h' : Ends body c k p' s' t) : Ends body c (k + j) p s t := by
  intro hu n
  obtain ⟨h1, h2⟩ := h hu
  rw [← Nat.add_assoc, h2, h' ((undisturbed_congr h1).trans hu)]

/-- One point that goes on. -/
theorem leads_one {body : Body} {c : Byte} {p p' : Progress} {s s' : State} (hh : s'.host = s.host)
    (hb : body p (s.at c p) = some (s'.at c p, .goto p')) : Leads body c 1 p s p' s' := by
  intro hu
  refine ⟨hh, fun n => ?_⟩
  rw [runBody_goto (s' := s'.at c p) rfl ((undisturbed_congr (at_host s c p)).trans hu) hb]
  rfl

/-- One point that completes. -/
theorem ends_one {body : Body} {c : Byte} {p : Progress} {s s' : State} {r : Result}
    (hb : body p (s.at c p) = some (s', .complete r)) : Ends body c 1 p s (s'.complete r) := by
  intro hu n
  exact runBody_complete rfl ((undisturbed_congr (at_host s c p)).trans hu) hb

/-- A command that an idle, undisturbed block accepts answers what its run ends with. -/
theorem exec_of_ends {i : Instr} {s t : State} {k : Nat} (hs : s.ready)
    (h : Ends (bodyOf i) (encode i) k .first s t) (hk : k ≤ Config.burst) : exec i s = .next t := by
  have := h hs.2 (Config.burst - k)
  rw [Nat.sub_add_cancel hk] at this
  rw [exec_eq, begin_idle _ hs.1]
  exact congrArg _ this

/-! ### Slots -/

/-- The line actions of a slot one after the other, with its sample. -/
def State.lineOps (s : State) (ops : List LineOp) (got : Bool) : Bool × State :=
  match ops with
  | [] => (got, s)
  | op :: ops => (s.lineOp op got).2.lineOps ops (s.lineOp op got).1

/-- A sample depends on the script and the draws only. -/
theorem sampleLine_congr {s t : State} (hscript : t.owiScript = s.owiScript) (hdraws : t.draws = s.draws) :
    t.sampleLine = (s.sampleLine.1,
      { t with owiScript := s.sampleLine.2.owiScript, draws := s.sampleLine.2.draws }) := by
  cases h : s.owiScript <;> simp [State.sampleLine, hscript, hdraws, h]

theorem at_sampleLine (s : State) (c : Byte) (p : Progress) :
    (s.at c p).sampleLine = (s.sampleLine.1, s.sampleLine.2.at c p) := by
  cases h : s.owiScript <;> simp [State.sampleLine, State.at, h]

theorem at_lineOp (s : State) (c : Byte) (p : Progress) (op : LineOp) (got : Bool) :
    (s.at c p).lineOp op got = ((s.lineOp op got).1, (s.lineOp op got).2.at c p) := by
  cases op with
  | low => rfl
  | release => rfl
  | wait us => rfl
  | sample => simp only [State.lineOp, at_sampleLine]; rfl

@[simp] theorem lineOp_host (s : State) (op : LineOp) (got : Bool) : (s.lineOp op got).2.host = s.host := by
  obtain ⟨_, _, _, -, h⟩ := lineOp_spec s op got
  rw [h]

/-- A slot runs its line actions, then stands at its end. -/
theorem leads_slot (start : State → State × Next) (back : OwiJob → Bool → State → Option (State × Next)) (c : Byte)
    (ops : List LineOp) (got : Bool) (job : OwiJob) (s : State) :
    Leads (owiBody start back) c ops.length (.slot ops got job) s
      (.slot [] (s.lineOps ops got).1 job) (s.lineOps ops got).2 := by
  induction ops generalizing s got with
  | nil => exact Leads.refl _ _ _ _
  | cons op ops ih =>
    refine Leads.trans (j := 1) (leads_one (lineOp_host s op got) ?_) (ih _ _)
    simp only [owiBody, at_lineOp]

theorem lineOp_low (s : State) (got : Bool) :
    s.lineOp .low got = (got, { s with owiDrive := true, trace := .owiLow :: s.trace }) := rfl

theorem lineOp_release (s : State) (got : Bool) :
    s.lineOp .release got = (got, { s with owiDrive := false, trace := .owiRelease :: s.trace }) := rfl

theorem lineOp_wait (s : State) (us : Nat) (got : Bool) :
    s.lineOp (.wait us) got = (got, { s with trace := .owiWait us :: s.trace }) := rfl

theorem lineOp_sample (s : State) (got : Bool) :
    s.lineOp .sample got = (s.sampleLine.1, { s with
      owiScript := s.sampleLine.2.owiScript, draws := s.sampleLine.2.draws
      trace := .owiSample s.sampleLine.1 :: s.trace }) := by
  obtain ⟨script, draws, h⟩ := sampleLine_spec s
  simp only [State.lineOp, h]
  rfl

/-- A write slot, from its start to its end (R193). -/
theorem lineOps_writeSlot (s : State) (p : Params) (b got : Bool) :
    s.lineOps (writeSlot p b) got =
      (got, { s with owiDrive := false, trace := writeSlotTrace p b ++ s.trace }) := by
  simp only [writeSlot, State.lineOps, lineOp_low, lineOp_wait, lineOp_release]
  rfl

/-- Line actions up to a sample, the sample, and a wait: the shape of a read slot and of a reset pulse. -/
theorem lineOps_sample (s : State) (low wait rest : Nat) (got : Bool) :
    s.lineOps [.low, .wait low, .release, .wait wait, .sample, .wait rest] got =
      (s.sampleLine.1, { s with
        owiScript := s.sampleLine.2.owiScript, draws := s.sampleLine.2.draws, owiDrive := false
        trace := .owiWait rest :: .owiSample s.sampleLine.1 :: .owiWait wait :: .owiRelease :: .owiWait low ::
          .owiLow :: s.trace }) := by
  have h := sampleLine_congr (s := s)
    (t := { s with owiDrive := false, trace := .owiWait wait :: .owiRelease :: .owiWait low :: .owiLow :: s.trace })
    rfl rfl
  simp only [State.lineOps, lineOp_low, lineOp_wait, lineOp_release, lineOp_sample, h]

/-- A read slot, from its start to its end, with the sample it takes (R194). -/
theorem lineOps_readSlot (s : State) (p : Params) (got : Bool) :
    s.lineOps (readSlot p) got = (s.sampleLine.1, { s with
      owiScript := s.sampleLine.2.owiScript, draws := s.sampleLine.2.draws
      owiDrive := false, trace := readSlotTrace p s.sampleLine.1 ++ s.trace }) :=
  lineOps_sample s _ _ _ got

/-- A reset pulse, from its start to its end, with the sample it takes (R192). -/
theorem lineOps_resetPulse (s : State) (p : Params) (got : Bool) :
    s.lineOps (resetPulse p) got = (s.sampleLine.1, { s with
      owiScript := s.sampleLine.2.owiScript, draws := s.sampleLine.2.draws
      owiDrive := false, trace := resetPulseTrace p s.sampleLine.1 ++ s.trace }) :=
  lineOps_sample s _ _ _ got

/-- The samples to come depend on the script and the draws only. -/
theorem sampleAt_congr {s t : State} (hscript : t.owiScript = s.owiScript) (hdraws : t.draws = s.draws) (k : Nat) :
    t.sampleAt k = s.sampleAt k := by
  induction k generalizing s t with
  | zero => simp only [State.sampleAt, sampleLine_congr hscript hdraws]
  | succ k ih =>
    simp only [State.sampleAt]
    exact ih (by rw [sampleLine_congr hscript hdraws]) (by rw [sampleLine_congr hscript hdraws])

/-- A write slot takes no sample (R193). -/
theorem sampleAt_writeSlot (s : State) (p : Params) (b got : Bool) (k : Nat) :
    (s.lineOps (writeSlot p b) got).2.sampleAt k = s.sampleAt k := by
  rw [lineOps_writeSlot]
  exact sampleAt_congr (s := s) (by rfl) (by rfl) k

/-- A read slot takes one sample (R194). -/
theorem sampleAt_readSlot (s : State) (p : Params) (got : Bool) (k : Nat) :
    (s.lineOps (readSlot p) got).2.sampleAt k = s.sampleAt (k + 1) := by
  rw [lineOps_readSlot]
  exact sampleAt_congr (s := s.sampleLine.2) (by rfl) (by rfl) k

/-- A reset pulse takes one sample (R192). -/
theorem sampleAt_resetPulse (s : State) (p : Params) (got : Bool) (k : Nat) :
    (s.lineOps (resetPulse p) got).2.sampleAt k = s.sampleAt (k + 1) := by
  rw [lineOps_resetPulse]
  exact sampleAt_congr (s := s.sampleLine.2) (by rfl) (by rfl) k

/-! ### Answers of the I2C environment -/

/-- The next answer depends on the script and the draws only. -/
theorem nextReply_congr {s s1 : State} {r : I2cReply} (h : s.nextReply = some (r, s1)) (t : State)
    (hscript : t.i2cScript = s.i2cScript) (hdraws : t.draws = s.draws) :
    t.nextReply = some (r, { t with i2cScript := s1.i2cScript, draws := s1.draws }) := by
  unfold State.nextReply at *
  rw [hscript, hdraws]
  split at h
  · split at h
    · rename_i hr
      cases h
      simp [hr]
    · cases h
  · split at h
    · rename_i hr
      cases h
      simp [hr]
    · cases h

end Sys2Proof.Machine
end

