-- ==== Sys2Proof/Laws/I2c.lean ====
section
/-! SUPPORT. The shared points of the I2C commands, followed along a run, for each answer of the environment. -/

namespace Sys2Proof.Machine

variable {body : Body} {c : Byte} {s s1 : State} {r : I2cReply}

theorem nextReply_host (h : s.nextReply = some (r, s1)) : s1.host = s.host := by
  obtain ⟨_, _, rfl⟩ := of_nextReply h
  rfl

theorem at_nextReply (h : s.nextReply = some (r, s1)) (c : Byte) (p : Progress) :
    (s.at c p).nextReply = some (r, s1.at c p) := by
  rw [nextReply_congr h (s.at c p) rfl rfl]
  obtain ⟨_, _, rfl⟩ := of_nextReply h
  rfl

@[simp] theorem at_sla (s : State) (c : Byte) (p : Progress) (dir : Bool) : (s.at c p).sla dir = s.sla dir := rfl

/-- A start condition that succeeds (R164). -/
theorem leads_start {dir : Bool} (hb : ∀ s, body .i2cStart s = startPoint dir s)
    (h : s.nextReply = some (r, s1)) (hok : r.ok = true) :
    Leads body c 1 .i2cStart s .i2cAddr { s1 with
      trace := .i2cStart s.i2cOpen true :: s1.trace, i2cHeld := true
      i2cCode := if s.i2cOpen then .repStarted else .started, i2cOpen := true, i2cDir := dir } := by
  refine leads_one (show s1.host = s.host from nextReply_host h) ?_
  rw [hb, startPoint, i2cStartPhase_of (at_nextReply h _ _)]
  simp only [hok, Option.bind_eq_bind, Option.bind_some, Option.pure_def, if_true]
  rfl

/-- A start condition that fails (R164). -/
theorem leads_start_failed {dir : Bool} (hb : ∀ s, body .i2cStart s = startPoint dir s)
    (h : s.nextReply = some (r, s1)) (hok : r.ok = false) :
    Leads body c 1 .i2cStart s (.i2cFail .eI2cStart) { s1 with
      trace := .i2cStart s.i2cOpen false :: s1.trace, i2cHeld := true, i2cCode := .startFailed } := by
  refine leads_one (show s1.host = s.host from nextReply_host h) ?_
  rw [hb, startPoint, i2cStartPhase_of (at_nextReply h _ _)]
  simp only [hok, Option.bind_eq_bind, Option.bind_some, Option.pure_def, Bool.false_eq_true, if_false]
  rfl

/-- An address byte not acknowledged (R164). -/
theorem leads_addr_nack {dir : Bool} {after : State → State × Next}
    (hb : ∀ s, body .i2cAddr s = addrPoint dir after s) (h : s.nextReply = some (r, s1)) (hok : r.ok = false) :
    Leads body c 1 .i2cAddr s (.i2cFail .eI2cNack) { s1 with
      trace := .i2cSend (s.sla dir) false :: s1.trace, i2cCode := .noAck } := by
  refine leads_one (show s1.host = s.host from nextReply_host h) ?_
  rw [hb, addrPoint, i2cSendPhase_of _ (at_nextReply h _ _)]
  simp only [hok, Option.bind_eq_bind, Option.bind_some, Option.pure_def, Bool.false_eq_true, if_false, at_sla]
  rfl

/-- An address byte acknowledged, where the command goes on at `p'` (R164). -/
theorem leads_addr {dir : Bool} {after : State → State × Next} {p' : Progress}
    (hb : ∀ s, body .i2cAddr s = addrPoint dir after s) (ha : ∀ u : State, u.len = s.len → after u = (u, .goto p'))
    (h : s.nextReply = some (r, s1)) (hok : r.ok = true) :
    Leads body c 1 .i2cAddr s p' { s1 with trace := .i2cSend (s.sla dir) true :: s1.trace, i2cCode := .addrAcked } := by
  refine leads_one (show s1.host = s.host from nextReply_host h) ?_
  rw [hb, addrPoint, i2cSendPhase_of _ (at_nextReply h _ _)]
  simp only [hok, Option.bind_eq_bind, Option.bind_some, Option.pure_def, if_true, at_sla]
  rw [ha]
  · rfl
  · obtain ⟨_, _, rfl⟩ := of_nextReply h
    rfl

/-- An address byte acknowledged, where the command ends (R165, R166). -/
theorem ends_addr {dir : Bool} (hb : ∀ s, body .i2cAddr s = addrPoint dir finish s)
    (h : s.nextReply = some (r, s1)) (hok : r.ok = true) :
    Ends body c 1 .i2cAddr s { s1 with
      trace := .i2cSend (s.sla dir) true :: s1.trace, i2cCode := .addrAcked, result := .ok, seq := .idle } := by
  refine ends_one (r := .ok) (s' := { s1.at c .i2cAddr with
    trace := .i2cSend (s.sla dir) true :: s1.trace, i2cCode := .addrAcked }) ?_
  rw [hb, addrPoint, i2cSendPhase_of _ (at_nextReply h _ _)]
  simp only [hok, Option.bind_eq_bind, Option.bind_some, Option.pure_def, if_true, at_sla]
  rfl

/-- A data byte not acknowledged (R167, R171). -/
theorem leads_send_nack {k : Nat} {b : Byte} {after : State → State × Next}
    (hb : body (.i2cSend k) (s.at c (.i2cSend k)) = sendPoint b after (s.at c (.i2cSend k)))
    (h : s.nextReply = some (r, s1)) (hok : r.ok = false) :
    Leads body c 1 (.i2cSend k) s (.i2cFail .eI2cNack) { s1 with
      trace := .i2cSend b false :: s1.trace, i2cCode := .noAck } := by
  refine leads_one (show s1.host = s.host from nextReply_host h) ?_
  rw [hb, sendPoint, i2cSendPhase_of _ (at_nextReply h _ _)]
  simp only [hok, Option.bind_eq_bind, Option.bind_some, Option.pure_def, Bool.false_eq_true, if_false]
  rfl

/-- A data byte acknowledged, where the command goes on at `p'` (R171). -/
theorem leads_send {k : Nat} {b : Byte} {after : State → State × Next} {p' : Progress}
    (hb : body (.i2cSend k) (s.at c (.i2cSend k)) = sendPoint b after (s.at c (.i2cSend k)))
    (ha : ∀ u : State, u.len = s.len → after u = (u, .goto p'))
    (h : s.nextReply = some (r, s1)) (hok : r.ok = true) :
    Leads body c 1 (.i2cSend k) s p' { s1 with trace := .i2cSend b true :: s1.trace, i2cCode := .dataAcked } := by
  refine leads_one (show s1.host = s.host from nextReply_host h) ?_
  rw [hb, sendPoint, i2cSendPhase_of _ (at_nextReply h _ _)]
  simp only [hok, Option.bind_eq_bind, Option.bind_some, Option.pure_def, if_true]
  rw [ha]
  · rfl
  · obtain ⟨_, _, rfl⟩ := of_nextReply h
    rfl

/-- The stop of a failure path, which ends the command with `e` (R163). -/
theorem ends_fail {e : Result} (hb : ∀ s, body (.i2cFail e) s = i2cFailPoint e s) (h : s.nextReply = some (r, s1)) :
    Ends body c 1 (.i2cFail e) s { s1 with
      trace := .i2cStop :: s1.trace, i2cHeld := false, i2cOpen := false, result := e, seq := .idle } := by
  refine ends_one (r := e) (s' := { s1.at c (.i2cFail e) with
    trace := .i2cStop :: s1.trace, i2cHeld := false, i2cOpen := false }) ?_
  rw [hb, i2cFailPoint, i2cStopPhase_of (at_nextReply h _ _)]
  rfl

/-- The stop that ends a transaction and the command (R169 to R171). -/
theorem ends_close (hb : ∀ s, body .i2cStop s = i2cClosePoint s) (h : s.nextReply = some (r, s1)) :
    Ends body c 1 .i2cStop s { s1 with
      trace := .i2cStop :: s1.trace, i2cHeld := false, i2cOpen := false, result := .ok, seq := .idle } := by
  refine ends_one (r := .ok) (s' := { s1.at c .i2cStop with
    trace := .i2cStop :: s1.trace, i2cHeld := false, i2cOpen := false }) ?_
  rw [hb, i2cClosePoint, i2cStopPhase_of (at_nextReply h _ _)]
  rfl

end Sys2Proof.Machine
end

