-- ==== Sys2Proof/Laws/PerInstr.lean ====
section
/-! SUPPORT. The encoding of each command, one lemma per constructor. -/

namespace Sys2Proof.Laws.Encoding

/-- The command is well formed, and its word, read as the opcode table numbers bits, is read back as it. -/
def Statement (i : Instr) : Prop := i.wellFormed = true ∧ decodeTableWord 8 (encode i).toNat = some i

theorem nop : Statement .nop := ⟨rfl, rfl⟩
theorem sreset : Statement .sreset := ⟨rfl, rfl⟩
theorem crcClr : Statement .crcClr := ⟨rfl, rfl⟩
theorem crcByte : Statement .crcByte := ⟨rfl, rfl⟩
theorem crcBuf : Statement .crcBuf := ⟨rfl, rfl⟩
theorem cobsEnc : Statement .cobsEnc := ⟨rfl, rfl⟩
theorem cobsDec : Statement .cobsDec := ⟨rfl, rfl⟩
theorem i2cStartw : Statement .i2cStartw := ⟨rfl, rfl⟩
theorem i2cStartr : Statement .i2cStartr := ⟨rfl, rfl⟩
theorem i2cWrite : Statement .i2cWrite := ⟨rfl, rfl⟩
theorem i2cRead (ack : Bool) : Statement (.i2cRead ack) := by cases ack <;> exact ⟨rfl, rfl⟩
theorem i2cStop : Statement .i2cStop := ⟨rfl, rfl⟩
theorem i2cReadn : Statement .i2cReadn := ⟨rfl, rfl⟩
theorem i2cWriten : Statement .i2cWriten := ⟨rfl, rfl⟩
theorem owiReset : Statement .owiReset := ⟨rfl, rfl⟩
theorem owiWbit : Statement .owiWbit := ⟨rfl, rfl⟩
theorem owiRbit : Statement .owiRbit := ⟨rfl, rfl⟩
theorem owiWbyte : Statement .owiWbyte := ⟨rfl, rfl⟩
theorem owiRbyte : Statement .owiRbyte := ⟨rfl, rfl⟩
theorem owiSfirst : Statement .owiSfirst := ⟨rfl, rfl⟩
theorem owiSnext : Statement .owiSnext := ⟨rfl, rfl⟩

end Sys2Proof.Laws.Encoding
end

