-- ==== Sys2Proof/Tests/Slice0.lean ====
section
/-! SUPPORT. Tests against the spec: what WellFormed refuses, the words of the opcode map, one-step vectors of
95_test_vectors, and for every obligation with hypotheses a state that meets them. -/

namespace Sys2Proof.Tests

open Sys2Proof.Machine

/-! ### WellFormed refuses what it should (R60, R62) -/

theorem test_wide_access_ill_formed : accessWidthOk 2 = false ∧ accessWellFormed 2 0x003 = false := by decide
theorem test_far_offset_ill_formed : accessOffsetOk 0x400 = false ∧ accessWellFormed 1 0x400 = false := by decide
theorem test_last_offset_well_formed : accessWellFormed 1 0x3FF = true ∧ accessWellFormed 1 0 = true := by decide
theorem test_commands_well_formed : Instr.wellFormed (.i2cRead true) = true := by decide

/-! ### Decoding: words written out from the bits of the opcode map (R90, R92) -/

theorem test_decode_nop : decode 0b00000000 = .command .nop := by decide
theorem test_decode_sreset : decode 0b00000001 = .command .sreset := by decide
theorem test_decode_crcClr : decode 0b00100000 = .command .crcClr := by decide
theorem test_decode_crcByte : decode 0b00100001 = .command .crcByte := by decide
theorem test_decode_crcBuf : decode 0b00100010 = .command .crcBuf := by decide
theorem test_decode_cobsEnc : decode 0b01000000 = .command .cobsEnc := by decide
theorem test_decode_cobsDec : decode 0b01000001 = .command .cobsDec := by decide
theorem test_decode_i2cStartw : decode 0b01100000 = .command .i2cStartw := by decide
theorem test_decode_i2cStartr : decode 0b01100001 = .command .i2cStartr := by decide
theorem test_decode_i2cWrite : decode 0b01100010 = .command .i2cWrite := by decide
theorem test_decode_i2cRead_nack : decode 0b01100100 = .command (.i2cRead false) := by decide
theorem test_decode_i2cRead_ack : decode 0b01100101 = .command (.i2cRead true) := by decide
theorem test_decode_i2cStop : decode 0b01100110 = .command .i2cStop := by decide
theorem test_decode_i2cReadn : decode 0b01100111 = .command .i2cReadn := by decide
theorem test_decode_i2cWriten : decode 0b01101000 = .command .i2cWriten := by decide
theorem test_decode_owiReset : decode 0b10000000 = .command .owiReset := by decide
theorem test_decode_owiWbit : decode 0b10000001 = .command .owiWbit := by decide
theorem test_decode_owiRbit : decode 0b10000010 = .command .owiRbit := by decide
theorem test_decode_owiWbyte : decode 0b10000011 = .command .owiWbyte := by decide
theorem test_decode_owiRbyte : decode 0b10000100 = .command .owiRbyte := by decide
theorem test_decode_owiSfirst : decode 0b10000101 = .command .owiSfirst := by decide
theorem test_decode_owiSnext : decode 0b10000110 = .command .owiSnext := by decide
theorem test_decode_hole_in_i2c : decode 0b01100011 = .illegalCommand 0x63 := by decide
theorem test_decode_unit_without_commands : decode 0b10100000 = .illegalCommand 0xA0 := by decide
theorem test_decode_table_word : decodeTableWord 8 0x65 = some (.i2cRead true) ∧ decodeTableWord 8 0x63 = none := by decide

/-! ### Small states -/

/-- The next state an outcome answers. -/
def answerOf (o : Host.Outcome State Fault Refusal) : Option State :=
  match o with
  | .next t => some t
  | .fault _ => none
  | .refused _ => none

/-- What the command `i` leaves, seen through `f`. -/
def after {α : Type} (i : Instr) (s : State) (f : State → α) : Option α := (answerOf (exec i s)).map f

/-- What one step leaves, seen through `f`. -/
def afterStep {α : Type} (s : State) (f : State → α) : Option α := (answerOf (step s)).map f

/-- An I2C answer: the start succeeded, or the byte was acknowledged. -/
def yes : I2cReply := ⟨true, true, 0x00⟩

/-- An I2C answer: the start failed, or the byte was not acknowledged. -/
def no : I2cReply := ⟨true, false, 0x00⟩

/-- An I2C answer: a byte was received. -/
def got (b : Byte) : I2cReply := ⟨true, true, b⟩

/-- The environment does not end the phase. -/
def pending : I2cReply := ⟨false, false, 0x00⟩

/-- An idle block with an I2C address and these answers to come. -/
def i2cWith (addr : BitVec 7) (replies : List I2cReply) : State :=
  { State.reset with i2cAddr := addr, i2cScript := replies }

/-- The same with a transaction open in direction `dir`. -/
def openWith (dir : Bool) (replies : List I2cReply) : State :=
  { State.reset with
    i2cAddr := 0x63, i2cOpen := true, i2cDir := dir, i2cHeld := true, i2cCode := .addrAcked
    i2cScript := replies, trace := [.i2cStart false true] }

/-- An idle block with these 1-Wire samples to come. -/
def sampled (levels : List Bool) : State := { State.reset with owiScript := levels }

/-- The ROMs of 95 section 2.6. -/
def romA : Vector Byte 8 := #v[0x28, 0x01, 0x00, 0x00, 0x00, 0x00, 0x00, 0x29]
def romB : Vector Byte 8 := #v[0x28, 0x02, 0x00, 0x00, 0x00, 0x00, 0x00, 0x70]
def romC : Vector Byte 8 := #v[0x10, 0x01, 0x00, 0x00, 0x00, 0x00, 0x00, 0xCC]
def romE : Vector Byte 8 := #v[0x10, 0x02, 0x00, 0x00, 0x00, 0x00, 0x00, 0x95]
def romX : Vector Byte 8 := #v[0x28, 0x01, 0x00, 0x00, 0x00, 0x00, 0x00, 0x00]

/-! ### Control and the host interface -/

/-- CT1. -/
theorem test_nop_clears_error :
    after .nop { State.reset with result := .eI2cNack } (fun t => (t.resultByte, t.statusByte)) = some (0x00, 0x00) := by
  decide

/-- The state before CT4. -/
def beforeCT4 : State :=
  { State.reset with
    i2cOpen := true, i2cHeld := true, i2cCode := .addrAcked, i2cScript := [yes], trace := [.i2cStart false true]
    srchLd := 9, crc := 0x31C3, cmdOvr := true, len := 9 }

/-- CT4. -/
theorem test_sreset_closes_and_clears :
    after .sreset beforeCT4 (fun t => (t.i2cStatByte, t.srchLd, t.crc)) = some (0x00, 0x00, 0x0000) ∧
    after .sreset beforeCT4 (fun t => (t.statusByte, t.len, t.trace)) =
      some (0x00, 0x00, [.i2cStop, .i2cStart false true]) := by decide

/-- CT5: no bus activity. -/
theorem test_sreset_no_transaction :
    after .sreset { State.reset with result := .eLen } (fun t => (t.resultByte, t.trace)) = some (0x00, []) := by decide

/-- CT2, IC22. -/
theorem test_illegal_word_keeps_transaction :
    (answerOf (runWord 0x63 (openWith false []))).map (fun t => (t.resultByte, t.i2cStatByte)) =
    some (0x01, 0x13) := by decide

/-- CT6: a write to CMD while the reset pulse runs is lost. -/
theorem test_cmd_write_while_busy :
    afterStep { State.reset with
        seq := .run 0x80 (.slot [.wait 500] false .pulse), host := [⟨some 0, .write 1 0x000 0x00⟩] }
      (fun t => (t.seq, t.cmdOvr)) = some (.run 0x80 (.slot [.wait 500] false .pulse), true) := by decide

/-- CT9. -/
theorem test_len_write_while_busy :
    afterStep { State.reset with
        len := 5, seq := .run 0x80 (.slot [.wait 500] false .pulse), host := [⟨some 0, .write 1 0x004 0x09⟩] }
      (fun t => (t.len, t.accErr)) = some (0x05, true) := by decide

/-- CT10. -/
theorem test_reserved_write_while_busy :
    afterStep { State.reset with
        seq := .run 0x80 (.slot [.wait 500] false .pulse), host := [⟨some 0, .write 1 0x00E 0xFF⟩] }
      (fun t => (t.cmdOvr, t.accErr)) = some (false, false) := by decide

/-- CT13: STATUS is exact while a command runs. -/
theorem test_status_read_while_busy :
    afterStep { State.reset with
        seq := .run 0x80 (.slot [.wait 500] false .pulse), host := [⟨some 0, .read 1 0x001⟩] }
      (fun t => t.reads) = some [(0x001, 0x01)] := by decide

/-- CT7: a 1 written to CMD_OVR clears it, and ACC_ERR stays. -/
theorem test_status_write_one_clears :
    afterStep { State.reset with cmdOvr := true, accErr := true, host := [⟨none, .write 1 0x001 0x04⟩] }
      (fun t => (t.cmdOvr, t.accErr)) = some (false, true) := by decide

/-- CR23: CRC is little-endian, and a write to one byte leaves the other. -/
theorem test_crc_register_bytes :
    afterStep { State.reset with crc := 0x31C3, host := [⟨none, .read 1 0x006⟩] } (fun t => t.reads) =
      some [(0x006, 0xC3)] ∧
    afterStep { State.reset with crc := 0x31C3, host := [⟨none, .write 1 0x007 0x12⟩] } (fun t => t.crc) =
      some 0x12C3 := by decide

/-- The command placed by `withFetchWord` is the one the next step runs. -/
theorem test_placed_word_runs :
    afterStep ({ State.reset with data := 0x01 }.withFetchWord 8 0x21) (fun t => (t.crc, t.host)) =
      some (0x1021, []) := by decide

/-! ### CRC-16 -/

/-- CR15. -/
theorem test_crcClr : after .crcClr { State.reset with crc := 0x31C3 } (fun t => t.crc) = some 0x0000 := by decide

/-- CR16. -/
theorem test_crcByte : after .crcByte { State.reset with data := 0x01 } (fun t => t.crc) = some 0x1021 := by decide

/-- CR18. -/
theorem test_crcByte_preset :
    after .crcByte { State.reset with crc := 0x31C3, data := 0x31 } (fun t => t.crc) = some 0xC300 := by decide

/-- CR20: a checksum continued across commands. -/
theorem test_crcBuf_continues :
    after .crcBuf { State.reset.storeRaw 0 [0x36, 0x37, 0x38, 0x39] with crc := 0x546C, len := 4 } (fun t => t.crc) =
      some 0x31C3 := by decide +kernel

/-- CR21. -/
theorem test_crcBuf_empty :
    after .crcBuf { State.reset with crc := 0x1234 } (fun t => (t.crc, t.resultByte)) = some (0x1234, 0x00) := by
  decide

/-! ### COBS -/

/-- C-E9. -/
theorem test_cobsEnc :
    after .cobsEnc { State.reset.storeRaw 0 [0x01, 0x02, 0x00, 0x03] with len := 4 }
      (fun t => (t.frameSpan 6, t.flen, t.resultByte)) =
    some ([0x03, 0x01, 0x02, 0x02, 0x03, 0x00], 0x06, 0x00) := by decide +kernel

/-- C-E14. -/
theorem test_cobsEnc_too_long :
    after .cobsEnc { State.reset with len := 254, flen := 0x77 } (fun t => (t.mem, t.flen, t.resultByte)) =
    some ([], 0x77, 0x02) := by decide

/-- C-D6. -/
theorem test_cobsDec :
    after .cobsDec (State.reset.storeFrame 0 [0x03, 0x01, 0x02, 0x02, 0x03, 0x00])
      (fun t => (t.rawSpan 4, t.len, t.flen, t.resultByte)) =
    some ([0x01, 0x02, 0x00, 0x03], 0x04, 0x06, 0x00) := by decide +kernel

/-- C-D8. -/
theorem test_cobsDec_truncated :
    after .cobsDec (State.reset.storeFrame 0 [0x03, 0x05, 0x00])
      (fun t => (t.rawSpan 1, t.len, t.flen, t.resultByte)) = some ([0x05], 0x01, 0x03, 0x11) := by decide +kernel

/-! ### I2C -/

/-- IC2. -/
theorem test_i2cStartw :
    after .i2cStartw (i2cWith 0x63 [yes, yes]) (fun t => (t.i2cStatByte, t.resultByte, t.trace)) =
    some (0x13, 0x00, [.i2cSend 0xC6 true, .i2cStart false true]) := by decide

/-- IC1. -/
theorem test_i2cStartw_fails :
    after .i2cStartw (i2cWith 0x63 [no, yes]) (fun t => (t.i2cStatByte, t.resultByte, t.trace)) =
    some (0x06, 0x20, [.i2cStop, .i2cStart false false]) := by decide

/-- IC3. -/
theorem test_i2cStartr_nack :
    after .i2cStartr (i2cWith 0x63 [yes, no, yes]) (fun t => (t.i2cStatByte, t.resultByte, t.trace)) =
    some (0x25, 0x21, [.i2cStop, .i2cSend 0xC7 false, .i2cStart false true]) := by decide

/-- IC5. -/
theorem test_i2cWrite :
    after .i2cWrite (openWith false [yes]) (fun t => (t.i2cStatByte, t.resultByte, t.trace.head?)) =
    some (0x14, 0x00, some (.i2cSend 0x00 true)) := by decide

/-- IC10. -/
theorem test_i2cWrite_in_read :
    after .i2cWrite (openWith true []) (fun t => (t.i2cStatByte, t.resultByte, t.trace)) =
    some (0x33, 0x22, [.i2cStart false true]) := by decide

/-- IC8. -/
theorem test_i2cRead_ack :
    after (.i2cRead true) (openWith true [got 0xAA]) (fun t => (t.data, t.i2cStatByte, t.trace.head?)) =
    some (0xAA, 0x34, some (.i2cRecv 0xAA true)) := by decide

/-- IC9. -/
theorem test_i2cRead_nack :
    after (.i2cRead false) (openWith true [got 0x55]) (fun t => (t.data, t.i2cStatByte, t.trace.head?)) =
    some (0x55, 0x35, some (.i2cRecv 0x55 false)) := by decide

/-- IC11. -/
theorem test_i2cStop :
    after .i2cStop (openWith true [yes]) (fun t => (t.i2cOpen, t.i2cDir, t.resultByte, t.trace.head?)) =
    some (false, true, 0x00, some .i2cStop) := by decide

/-- IC12: no second stop. -/
theorem test_i2cStop_closed :
    after .i2cStop State.reset (fun t => (t.resultByte, t.trace)) = some (0x00, []) := by decide

/-- IC19. -/
theorem test_i2cReadn :
    after .i2cReadn { i2cWith 0x63 [yes, yes, got 0x01, got 0x32, got 0x31, yes] with len := 3 }
      (fun t => (t.rawSpan 3, t.i2cStatByte, t.resultByte, t.trace)) =
    some ([0x01, 0x32, 0x31], 0x25, 0x00,
      [.i2cStop, .i2cRecv 0x31 false, .i2cRecv 0x32 true, .i2cRecv 0x01 true, .i2cSend 0xC7 true,
        .i2cStart false true]) := by decide +kernel

/-- IC18. -/
theorem test_i2cReadn_no_length :
    after .i2cReadn (i2cWith 0x63 []) (fun t => (t.resultByte, t.trace)) = some (0x02, []) := by decide

/-- IC15. -/
theorem test_i2cWriten_nack :
    after .i2cWriten { (i2cWith 0x64 [yes, yes, yes, no, yes]).storeRaw 0 [0x01, 0x02, 0x03] with len := 3 }
      (fun t => (t.i2cStatByte, t.resultByte, t.trace)) =
    some (0x05, 0x21,
      [.i2cStop, .i2cSend 0x02 false, .i2cSend 0x01 true, .i2cSend 0xC8 true, .i2cStart false true]) := by
  decide +kernel

/-- IC17. -/
theorem test_i2cWriten_probe :
    after .i2cWriten (i2cWith 0x64 [yes, yes, yes]) (fun t => (t.i2cStatByte, t.resultByte)) = some (0x03, 0x00) := by
  decide

/-- R172: the command stays busy while the environment holds a phase. -/
theorem test_i2c_phase_pending :
    after .i2cStartw (i2cWith 0x63 [pending, yes, yes]) (fun t => (t.busy, t.trace, t.i2cScript)) =
    some (true, [], [yes, yes]) := by decide

/-! ### 1-Wire -/

/-- O1. -/
theorem test_owiReset_present :
    after .owiReset (sampled [false]) (fun t => (t.resultByte, waited t.trace, t.owiDrive)) =
    some (0x00, 800, false) := by decide +kernel

/-- O2. -/
theorem test_owiReset_absent :
    after .owiReset (sampled [true]) (fun t => (t.resultByte, waited t.trace)) = some (0x30, 800) := by decide +kernel

/-- O5. -/
theorem test_owiWbit_zero :
    after .owiWbit { State.reset with data := 0xFE } (fun t => (t.data, t.trace)) =
    some (0xFE, [.owiWait 10, .owiRelease, .owiWait 80, .owiLow]) := by decide +kernel

/-- O6. -/
theorem test_owiRbit_one :
    after .owiRbit (sampled [true]) (fun t => (t.data, t.trace)) =
    some (0x01, [.owiWait 78, .owiSample true, .owiWait 10, .owiRelease, .owiWait 2, .owiLow]) := by decide +kernel

/-- O7. -/
theorem test_owiRbit_zero :
    after .owiRbit { sampled [false] with data := 0xFF } (fun t => t.data) = some 0x00 := by decide +kernel

/-- O9: the low times in time order are those of 1 1 0 0 1 1 0 0. -/
theorem test_owiWbyte :
    after .owiWbyte { State.reset with data := 0x33 }
      (fun t => t.trace.reverse.filter (fun e => e == .owiWait 8 || e == .owiWait 80)) =
    some [.owiWait 8, .owiWait 8, .owiWait 80, .owiWait 80, .owiWait 8, .owiWait 8, .owiWait 80, .owiWait 80] := by
  decide +kernel

/-- O10. -/
theorem test_owiRbyte :
    after .owiRbyte (sampled [true, false, true, false, false, false, false, false])
      (fun t => (t.data, waited t.trace)) = some (0x05, 720) := by decide +kernel

/-! ### Discovery -/

/-- Q1, Q6, Q9. -/
theorem test_crc8 :
    crc8 [0x28, 0x01, 0x00, 0x00, 0x00, 0x00, 0x00] = 0x29 ∧ crc8 [0x28, 0xFF, 0x4B, 0x01, 0x17, 0x04, 0x00] = 0x55 ∧
    crc8 [0x80] = 0x8C := by decide +kernel

/-- Four entries of the table of R222: T[0x01], T[0x10], T[0x80], T[0xFF]. -/
theorem test_crc8_table :
    crc8Update 0x00 0x01 = 0x5E ∧ crc8Update 0x00 0x10 = 0x9D ∧ crc8Update 0x00 0x80 = 0x8C ∧
    crc8Update 0x00 0xFF = 0x35 := by decide +kernel

/-- What a search call leaves. -/
def found (devs : List (Vector Byte 8)) (first : Bool) (s : State) : Option (Byte × Vector Byte 8 × Byte × Byte × Bool) :=
  (answerOf (searchCall devs first s)).map (fun t => (t.resultByte, t.rom, t.srchLd, t.srchLfd, t.ldf))

/-- S1.1. -/
theorem test_owiSfirst : found [romA, romB, romC] true State.reset = some (0x00, romC, 4, 4, false) := by
  decide +kernel

/-- S6.1. -/
theorem test_owiSfirst_bad_crc : found [romX] true State.reset = some (0x32, romX, 0, 0, false) := by decide +kernel

/-- S2.2: the replayed zero at bit 4 is recorded again (90 C1). -/
theorem test_owiSnext_replays :
    found [romC, romE, romA] false { State.reset with rom := romE, srchLd := 9, srchLfd := 4 } =
    some (0x00, romC, 4, 4, false) := by decide +kernel

/-- S1.4. -/
theorem test_owiSnext_last :
    found [romA, romB, romC] false { State.reset with rom := romA, srchLfd := 4, ldf := true } =
    some (0x34, romA, 0, 0, false) := by decide +kernel

/-! ### States that meet the hypotheses of the obligations -/

/-- A block that runs `owi.reset`. -/
def running : State := { State.reset with seq := .run 0x80 (.slot [.wait 500] false .pulse) }

/-- A block that waits for the stop of `i2c.stop`, and the environment does not end it. -/
def waiting : State := { openWith false [pending] with seq := .run 0x66 .i2cStop }

theorem reset_ready : State.reset.ready := ⟨rfl, rfl⟩

theorem witness_DecodeAndEncodeAgree : decode 0x65 = .command (.i2cRead true) := by decide

theorem witness_DecodeFollowsTheOpcodeMap :
    (0x02 : Byte) ∉ ([0x00, 0x01, 0x20, 0x21, 0x22, 0x40, 0x41, 0x60, 0x61, 0x62, 0x64, 0x65, 0x66, 0x67, 0x68,
      0x80, 0x81, 0x82, 0x83, 0x84, 0x85, 0x86] : List Byte) := by decide

theorem witness_StepRunsTheDecodedCommand :
    (∃ s : State, s.seq = .idle ∧ s.resetLine = false ∧ s.host = [⟨none, .write 1 0x000 0x21⟩] ∧
      decode 0x21 = .command .crcByte) ∧
    (∃ s : State, s.seq = .idle ∧ s.resetLine = false ∧ s.host = [⟨some 3, .write 1 0x000 0x63⟩] ∧
      decode 0x63 = .illegalCommand 0x63) ∧
    (running.seq = .run 0x80 (.slot [.wait 500] false .pulse) ∧ running.resetLine = false ∧
      running.hostDue = false ∧ decode 0x80 = .command .owiReset) ∧
    (∃ s : State, s.seq = .run 0x63 .first ∧ s.resetLine = false ∧ s.hostDue = false ∧
      decode 0x63 = .illegalCommand 0x63) ∧
    (State.reset.seq = .idle ∧ State.reset.host = []) ∧
    ({ running with host := [⟨some 0, .assertReset⟩] }.seq ≠ .idle ∧
      { running with host := [⟨some 0, .assertReset⟩] }.host = [⟨some 0, .assertReset⟩]) ∧
    ({ running with resetLine := true }.seq ≠ .idle ∧ { running with resetLine := true }.resetLine = true ∧
      { running with resetLine := true }.host = []) :=
  ⟨⟨{ State.reset with host := [⟨none, .write 1 0x000 0x21⟩] }, rfl, rfl, rfl, by decide⟩,
    ⟨{ State.reset with host := [⟨some 3, .write 1 0x000 0x63⟩] }, rfl, rfl, rfl, by decide⟩,
    ⟨rfl, rfl, rfl, by decide⟩, ⟨{ State.reset with seq := .run 0x63 .first }, rfl, rfl, rfl, by decide⟩, ⟨rfl, rfl⟩,
    ⟨by decide, rfl⟩, by decide, rfl, rfl⟩

theorem witness_ResetLeavesTheResetValues : (0 : Nat) < 8 ∧ (7 : Nat) < 8 := by decide

theorem witness_HardwareResetFromAnyState :
    inBuffer 0x017 = false ∧ inBuffer 0x0FF = false ∧ inBuffer 0x100 = true ∧ inBuffer 0x2FF = true ∧
    inBuffer 0x300 = false := by decide

theorem witness_IdleReadsFollowTheRegisterMap :
    State.reset.busy = false ∧ State.reset.resetLine = false ∧ (7 : Nat) < 8 ∧ (255 : Nat) < 256 := by decide

theorem witness_BusyReadsAreExactOrFree :
    running.busy = true ∧ running.resetLine = false ∧ reserved 0x00E = true ∧ reserved 0x00F = true ∧
    reserved 0x00D = false ∧ reserved 0x010 = false ∧ reserved 0x017 = false ∧ reserved 0x018 = true ∧
    reserved 0x0FF = true ∧ reserved 0x100 = false ∧ reserved 0x2FF = false ∧ reserved 0x300 = true := by decide

theorem witness_ReadsHaveNoSideEffect :
    ∃ t : State, hostAction (.read 1 0x3FF) State.reset = .next t := ⟨_, rfl⟩

theorem witness_BusyWritesOnlySetFlags : running.busy = true ∧ running.resetLine = false := by decide

theorem witness_IdleWritesFollowTheRegisterMap : State.reset.busy = false ∧ State.reset.resetLine = false := by decide

theorem witness_AccessesWithNoMeaningStop :
    { State.reset with resetLine := true }.resetLine = true ∧ State.reset.resetLine = false ∧ (2 : Nat) ≠ 1 ∧
    0x400 ≤ 0x400 := by decide

theorem witness_UnfinishedPhaseKeepsTheCommandBusy :
    waiting.seq = .run 0x66 .i2cStop ∧ waiting.undisturbed = true ∧ awaitsPhase .i2cStop .i2cStop = true ∧
    waiting.nextReply = none := by decide

theorem witness_ResultIsWrittenOnlyAtCompletion :
    ∃ t : State, exec .i2cStop waiting = .next t ∧ t.seq ≠ .idle := ⟨_, rfl, by decide⟩

theorem witness_ready_commands :
    State.reset.ready ∧ (i2cWith 0x63 [yes]).ready ∧ (openWith true []).ready ∧ (sampled [true]).ready ∧
    { State.reset with host := [hostR 0x001] }.ready := ⟨⟨rfl, rfl⟩, ⟨rfl, rfl⟩, ⟨rfl, rfl⟩, ⟨rfl, rfl⟩, rfl, rfl⟩

theorem witness_IllegalWordsComplete : State.reset.ready ∧ decode 0xFF = .illegalCommand 0xFF :=
  ⟨reset_ready, by decide⟩

theorem witness_SresetCompletes :
    State.reset.i2cOpen = false ∧ (openWith false [yes]).ready ∧ (openWith false [yes]).i2cOpen = true ∧
    (openWith false [yes]).nextReply = some (yes, openWith false []) := ⟨rfl, ⟨rfl, rfl⟩, rfl, rfl⟩

theorem witness_CrcFrame : ∃ t : State, exec .crcBuf State.reset = .next t := ⟨_, rfl⟩

theorem witness_CobsEncCompletes :
    State.reset.ready ∧ { State.reset with len := 254 }.ready ∧ 253 < { State.reset with len := 254 }.len.toNat ∧
    { State.reset with len := 253 }.ready ∧ { State.reset with len := 253 }.len.toNat ≤ 253 :=
  ⟨reset_ready, ⟨rfl, rfl⟩, by decide, ⟨rfl, rfl⟩, by decide⟩

theorem witness_CobsEncodingHasOneZero :
    (List.replicate 253 (0x01 : Byte)).length ≤ 253 ∧ ([] : List Byte).length ≤ 253 := by decide +kernel

theorem witness_CobsDecodeOutcomes :
    (fun _ => 0x00 : Nat → Byte) 0 = 0x00 ∧ (fun _ => 0x01 : Nat → Byte) 0 ≠ 0x00 ∧
    252 < (cobsDecode (fun _ => 0x01)).out.length := by decide +kernel

theorem witness_FirstCodeByteFFNeverDecodes : (fun _ => 0xFF : Nat → Byte) 0 = 0xFF := rfl

theorem witness_CobsDecodeInvertsEncode :
    ([0x01, 0x00] : List Byte).length ≤ 253 ∧
    ∀ i, (h : i < (cobsEncode [0x01, 0x00]).length) →
      (fun i => (cobsEncode [0x01, 0x00])[i]?.getD 0xEE) i = (cobsEncode [0x01, 0x00])[i] := by
  refine ⟨by decide, fun i h => ?_⟩
  show (cobsEncode [0x01, 0x00])[i]?.getD 0xEE = _
  rw [List.getElem?_eq_getElem h]
  rfl

theorem witness_CobsEncThenDecRestoresRaw :
    { State.reset with len := 253 }.ready ∧ { State.reset with len := 253 }.len.toNat ≤ 253 :=
  ⟨⟨rfl, rfl⟩, by decide⟩

theorem witness_CobsFrame :
    (∃ t : State, exec .cobsEnc State.reset = .next t) ∧ ∃ t : State, exec .cobsDec State.reset = .next t :=
  ⟨⟨_, rfl⟩, ⟨_, rfl⟩⟩

theorem witness_I2cStartCommandsComplete :
    (i2cWith 0x63 [no, yes]).ready ∧
    (i2cWith 0x63 [no, yes]).nextReply = some (no, i2cWith 0x63 [yes]) ∧ no.ok = false ∧
    (i2cWith 0x63 [yes, no, yes]).nextReply = some (yes, i2cWith 0x63 [no, yes]) ∧
    (i2cWith 0x63 [no, yes]).nextReply = some (no, i2cWith 0x63 [yes]) ∧
    (i2cWith 0x63 [yes]).nextReply = some (yes, i2cWith 0x63 []) ∧ yes.ok = true :=
  ⟨⟨rfl, rfl⟩, rfl, rfl, rfl, rfl, rfl, rfl⟩

theorem witness_I2cWriteCompletes :
    State.reset.i2cOpen = false ∧ (openWith true []).i2cDir = true ∧ (openWith false [no, yes]).ready ∧
    (openWith false [no, yes]).i2cOpen = true ∧ (openWith false [no, yes]).i2cDir = false ∧
    (openWith false [no, yes]).nextReply = some (no, openWith false [yes]) ∧
    (openWith false [yes]).nextReply = some (yes, openWith false []) :=
  ⟨rfl, rfl, ⟨rfl, rfl⟩, rfl, rfl, rfl, rfl⟩

theorem witness_I2cReadCompletes :
    (openWith false []).i2cDir = false ∧ (openWith true [got 0xFF]).ready ∧ (openWith true [got 0xFF]).i2cOpen = true ∧
    (openWith true [got 0xFF]).i2cDir = true ∧
    (openWith true [got 0xFF]).nextReply = some (got 0xFF, openWith true []) := ⟨rfl, ⟨rfl, rfl⟩, rfl, rfl, rfl⟩

theorem witness_I2cStopCompletes :
    State.reset.i2cOpen = false ∧ (openWith true [yes]).ready ∧ (openWith true [yes]).i2cOpen = true ∧
    (openWith true [yes]).nextReply = some (yes, openWith true []) := ⟨rfl, ⟨rfl, rfl⟩, rfl, rfl⟩

/-- An idle block with LEN = 1 and these answers to come. -/
def oneByte (replies : List I2cReply) : State := { i2cWith 0x63 replies with len := 1 }

theorem witness_I2cReadnCompletes :
    State.reset.len = 0 ∧ (oneByte [yes, yes, got 0x7E, yes]).ready ∧ (oneByte [yes, yes, got 0x7E, yes]).len ≠ 0 ∧
    (oneByte [yes, yes, got 0x7E, yes]).nextReply = some (yes, oneByte [yes, got 0x7E, yes]) ∧
    (oneByte [yes, got 0x7E, yes]).nextReply = some (yes, oneByte [got 0x7E, yes]) ∧
    (oneByte [got 0x7E, yes]).replies 1 = some ([got 0x7E], oneByte [yes]) ∧
    (oneByte [yes]).nextReply = some (yes, oneByte []) ∧
    (oneByte [yes, no, yes]).nextReply = some (yes, oneByte [no, yes]) ∧
    (oneByte [no, yes]).nextReply = some (no, oneByte [yes]) :=
  ⟨rfl, ⟨rfl, rfl⟩, by decide, rfl, rfl, rfl, rfl, rfl, rfl⟩

theorem witness_I2cWritenCompletes :
    (oneByte [yes, yes, yes, yes]).ready ∧
    (oneByte [yes, yes, yes, yes]).nextReply = some (yes, oneByte [yes, yes, yes]) ∧
    (oneByte [yes, yes, yes]).nextReply = some (yes, oneByte [yes, yes]) ∧
    (oneByte [yes, yes]).replies 1 = some ([yes], oneByte [yes]) ∧ (∀ r ∈ [yes], r.ok = true) ∧
    (oneByte [no, yes]).replies 0 = some ([], oneByte [no, yes]) ∧ 0 < (oneByte [no, yes]).len.toNat ∧
    (oneByte [no, yes]).nextReply = some (no, oneByte [yes]) ∧ (oneByte [yes]).nextReply = some (yes, oneByte []) :=
  ⟨⟨rfl, rfl⟩, rfl, rfl, rfl, by decide, rfl, by decide, rfl, rfl⟩

theorem witness_I2cFrame :
    ∃ t : State, exec .i2cReadn (oneByte [yes, yes, got 0x7E, yes]) = .next t ∧ (oneByte [yes]).seq = .idle :=
  ⟨_, rfl, rfl⟩

/-- In a failure path after a failed repeated start, in a data phase, and idle with a transaction open. -/
theorem witness_EveryTransactionGetsOneStop :
    { openWith false [yes] with
      seq := .run 0x60 (.i2cFail .eI2cStart), trace := [.i2cStart true false, .i2cStart false true] }.busOk ∧
    waiting.busOk ∧ (openWith false []).busOk ∧ (∃ t, step waiting = .next t) := by
  refine ⟨⟨rfl, .inl ?_⟩, ⟨rfl, rfl, ?_⟩, ⟨rfl, ?_⟩, ⟨_, rfl⟩⟩ <;> decide

theorem witness_OwiResetCompletes :
    (sampled [true]).ready ∧ (sampled [true]).sampleLine = (true, sampled []) := ⟨⟨rfl, rfl⟩, rfl⟩

theorem witness_OwiBitCommandsComplete :
    { State.reset with data := 0x01 }.data.getLsbD 0 = true ∧ { State.reset with data := 0xFE }.data.getLsbD 0 = false ∧
    (sampled [false]).sampleLine = (false, sampled []) := ⟨by decide, by decide, rfl⟩

theorem witness_OwiByteCommandsComplete :
    (sampled [true, false, true, false, false, false, false, false]).nextSamples 8 =
      ([true, false, true, false, false, false, false, false], sampled []) := rfl

theorem witness_OwiFrame : ∃ t : State, exec .owiReset (sampled [false]) = .next t := ⟨_, rfl⟩

theorem witness_LineIsReleasedBetweenCommands :
    { running with seq := .run 0x80 (.slot [.release] false .pulse), owiDrive := true }.lineOk ∧
    State.reset.lineOk ∧ State.reset.busy = false ∧ (∃ t, step running = .next t) := ⟨rfl, rfl, rfl, ⟨_, rfl⟩⟩

theorem witness_SearchesComplete :
    State.reset.ready ∧ { State.reset with ldf := true }.ready ∧ (sampled [true]).sampleAt 0 = true ∧
    (sampled [false]).sampleAt 0 = false := ⟨reset_ready, ⟨rfl, rfl⟩, rfl, rfl⟩

/-- A line on which no device answers at bit number 64 only. -/
def abortAt64 : State := sampled (false :: (List.replicate 126 false ++ [true, true]))

/-- No device answers: at bit number 1, and at bit number 64. -/
theorem witness_abortsAt : (sampled [false, true, true]).abortsAt 1 ∧ abortAt64.abortsAt 64 := by
  have h : ∀ m < 64, 1 ≤ m → ¬(abortAt64.sampleAt (2 * m - 1) = true ∧ abortAt64.sampleAt (2 * m) = true) := by
    decide +kernel
  refine ⟨⟨by decide, by decide, ⟨rfl, rfl⟩, fun m h1 h2 => absurd h2 (by omega)⟩, ?_⟩
  exact ⟨by decide, by decide, ⟨by decide +kernel, by decide +kernel⟩, fun m h1 h2 => h m h2 h1⟩

/-- A line on which the devices disagree at every bit number, and no search aborts. -/
def stuckLow : State := sampled (List.replicate 129 false)

theorem witness_noAbort : stuckLow.ready ∧ stuckLow.sampleAt 0 = false ∧ ¬∃ n, stuckLow.abortsAt n := by
  have h : ∀ m < 65, ¬(stuckLow.sampleAt (2 * m - 1) = true ∧ stuckLow.sampleAt (2 * m) = true) := by decide +kernel
  exact ⟨⟨rfl, rfl⟩, rfl, fun ⟨n, _, h2, h3, _⟩ => h n (by omega) h3⟩

theorem witness_SnextAfterLastDevice :
    { State.reset with ldf := true }.ready ∧ { State.reset with ldf := true }.ldf = true := ⟨⟨rfl, rfl⟩, rfl⟩

theorem witness_FailedSearchResetsTheSession :
    ∃ t : State, exec .owiSnext { State.reset with ldf := true } = .next t ∧ t.seq = .idle ∧ t.result ≠ .ok :=
  ⟨_, rfl, by decide, by decide⟩

/-- An abort at bit number 1 (S9), and no presence (S5). -/
theorem witness_FailedSearch_results :
    after .owiSfirst (sampled [false, true, true]) (fun t => (t.seq, t.result)) = some (.idle, .eOwiNoDev) ∧
    after .owiSfirst (sampled [true]) (fun t => (t.seq, t.result)) = some (.idle, .eOwiNoPres) := by decide +kernel

theorem witness_SearchFrame : ∃ t : State, exec .owiSnext { State.reset with ldf := true } = .next t := ⟨_, rfl⟩

theorem witness_DiscoveryRegistersStayLegal :
    { State.reset with
      srchLd := 64, srchLfd := 8, seq := .run 0x86 (.slot [] true (.searchCmp 64 64 0x00 false)) }.discoveryOk ∧
    { State.reset with ldf := true }.discoveryOk ∧ (∃ t, step State.reset = .next t) := by
  refine ⟨⟨by decide, by decide, by decide, ?_⟩, ⟨by decide, by decide, by decide, trivial⟩, ⟨_, rfl⟩⟩
  exact ⟨by decide, by decide, by decide⟩

theorem witness_OtherCommandsKeepTheDiscoveryState :
    Instr.owiReset ≠ .owiSfirst ∧ Instr.owiReset ≠ .owiSnext ∧ Instr.owiReset ≠ .sreset ∧
    ∃ t : State, exec .owiReset (sampled [false]) = .next t := ⟨by decide, by decide, by decide, _, rfl⟩

/-- A, B and C are valid ROM addresses, and they differ. -/
theorem test_roms : romValid romA = true ∧ romValid romB = true ∧ romValid romC = true := by decide +kernel

theorem test_roms_differ : romA ≠ romB ∧ romA ≠ romC ∧ romB ≠ romC := by decide +kernel

theorem witness_SearchFindsAConnectedDevice :
    [romA] ≠ [] ∧ (∀ rom ∈ [romA], romValid rom = true) ∧ State.reset.ready ∧ State.reset.ldf = false :=
  ⟨List.cons_ne_nil _ _, List.forall_mem_singleton.2 test_roms.1, reset_ready, rfl⟩

theorem witness_SessionFindsEveryDeviceOnce :
    [romA, romB, romC] ≠ [] ∧ [romA, romB, romC].Nodup ∧ (∀ rom ∈ [romA, romB, romC], romValid rom = true) ∧
    State.reset.ready := by
  refine ⟨List.cons_ne_nil _ _, ?_, ?_, reset_ready⟩
  · simp [test_roms_differ]
  · simp [test_roms]

theorem witness_EmptyBusHasNoPresence : State.reset.ready ∧ State.reset.ldf = false := ⟨reset_ready, rfl⟩

theorem witness_InvalidDeviceFailsTheSearch :
    crc8 (romX.toList.take 7) ≠ romByteOf romX 7 ∧ State.reset.ready ∧ State.reset.ldf = false :=
  ⟨by decide +kernel, reset_ready, rfl⟩

/-- The defaults, and the ends of the legal ranges, are legal (R9). -/
theorem test_params_legal :
    Params.default.legal = true ∧ { Params.default with tRstEnd := 600, tMsr := 7 }.legal = true ∧
    { Params.default with tRstEnd := 800, tMsr := 15 }.legal = true := by decide

/-- One value outside each range, and one break of each constraint (R9). -/
theorem test_params_ill_formed :
    { Params.default with tRstEnd := 599 }.legal = false ∧ { Params.default with tRstEnd := 801 }.legal = false ∧
    { Params.default with tMsr := 6 }.legal = false ∧ { Params.default with tMsr := 16 }.legal = false ∧
    { Params.default with tPds := 300 }.legal = false ∧ { Params.default with tW0l := 90 }.legal = false ∧
    { Params.default with tRl := 12 }.legal = false ∧ { Params.default with tW0l := 5, tSlot := 12 }.legal = false := by
  decide

theorem witness_OwiCommandDurations :
    State.reset.ready ∧ State.reset.params.legal = true ∧ State.reset.params.tW1l ≤ State.reset.params.tSlot ∧
    State.reset.params = Params.default := ⟨reset_ready, by decide, by decide, rfl⟩

theorem witness_MemoryAndParametersAreKept :
    { State.reset with mem := [(0x100, 0x31), (0x2FF, 0x00)] }.memoryOk ∧
    ∃ t : State, step { State.reset with mem := [(0x100, 0x31), (0x2FF, 0x00)] } = .next t := ⟨rfl, _, rfl⟩

/-- A key outside the buffers, and keys out of order, are not canonical. -/
theorem test_memory_not_canonical :
    Memory.wf [(0x0FF, 0x00)] = false ∧ Memory.wf [(0x101, 0x00), (0x100, 0x00)] = false := by decide

end Sys2Proof.Tests
end

section
/-! SUPPORT. Every step keeps the buffer memory in its canonical form and leaves the parameters alone; the state
after reset meets the invariants. -/

namespace Sys2Proof.Machine

/-! ### What a step keeps of the memory and the parameters (R9, R34, R35) -/

/-- From `s` to `t` the buffer memory keeps its canonical form and the parameters stay. -/
structure KeepsMemoryAndParams (s t : State) : Prop where
  memoryOk : s.memoryOk → t.memoryOk
  params : t.params = s.params

namespace KeepsMemoryAndParams

theorem of_mem {s t : State} (hmem : t.mem = s.mem) (hparams : t.params = s.params) : KeepsMemoryAndParams s t :=
  ⟨fun hs => by rwa [State.memoryOk, hmem], hparams⟩

theorem refl (s : State) : KeepsMemoryAndParams s s := ⟨id, rfl⟩

theorem trans {s t u : State} (h : KeepsMemoryAndParams s t) (h' : KeepsMemoryAndParams t u) :
    KeepsMemoryAndParams s u :=
  ⟨fun hs => h'.memoryOk (h.memoryOk hs), h'.params.trans h.params⟩

end KeepsMemoryAndParams

/-! ### The points of the commands -/

/-- No command writes the parameters. -/
theorem onlyWrites_params {i : Instr} {s t : State} (h : onlyWrites i s t) : t.params = s.params := by
  cases i <;> simp only [onlyWrites] at h <;> rw [h]

/-- Only `cobs.enc`, `cobs.dec` and `i2c.readn` write the buffers. -/
theorem onlyWrites_mem {i : Instr} {s t : State} (h : onlyWrites i s t) (henc : i ≠ .cobsEnc) (hdec : i ≠ .cobsDec)
    (hreadn : i ≠ .i2cReadn) : t.mem = s.mem := by
  cases i
  case cobsEnc => exact absurd rfl henc
  case cobsDec => exact absurd rfl hdec
  case i2cReadn => exact absurd rfl hreadn
  all_goals simp only [onlyWrites] at h; rw [h]

/-- A point of `cobs.enc` stores a run of FRAME at most (R141). -/
theorem cobsEncBody_memoryOk {p : Progress} {s t : State} {nx : Next} (hs : s.memoryOk)
    (h : cobsEncBody p s = some (t, nx)) : t.memoryOk := by
  unfold cobsEncBody at h
  split at h
  · split at h <;> cases h <;> exact hs
  · split at h <;> cases h
    · exact hs
    · exact storeFrame_memoryOk s _ _ hs
  · cases h

theorem storeDecoding_memoryOk (d : Decoding) {s : State} (hs : s.memoryOk) : (storeDecoding d s).1.memoryOk :=
  storeRaw_memoryOk s 0 d.out hs

/-- A point of `cobs.dec` stores a run of RAW at most (R144). -/
theorem cobsDecBody_memoryOk {p : Progress} {s t : State} {nx : Next} (hs : s.memoryOk)
    (h : cobsDecBody p s = some (t, nx)) : t.memoryOk := by
  unfold cobsDecBody at h
  split at h
  · split at h <;> cases h
    · exact storeDecoding_memoryOk _ hs
    · exact hs
  · split at h <;> cases h
    · exact hs
    · exact storeDecoding_memoryOk _ hs
  · cases h

/-- A point of `i2c.readn` stores one byte of RAW at most (R170). -/
theorem i2cReadnBody_memoryOk {p : Progress} {s t : State} {nx : Next} (hs : s.memoryOk)
    (h : i2cReadnBody p s = some (t, nx)) : t.memoryOk := by
  unfold i2cReadnBody at h
  split at h
  · split at h <;> cases h <;> exact hs
  · obtain ⟨_, _, ⟨-, rfl⟩ | ⟨-, rfl⟩⟩ := of_startPoint h <;> exact hs
  · obtain ⟨_, _, h | ⟨-, rfl⟩⟩ := of_addrPoint h
    · cases h; exact hs
    · exact hs
  · rename_i k
    cases hp : s.i2cRecvPhase (s.readnAck k) with
    | none => simp [hp] at h
    | some q =>
      obtain ⟨b, s1⟩ := q
      obtain ⟨_, _, rfl⟩ := of_i2cRecvPhase hp
      simp only [hp, Option.bind_eq_bind, Option.bind_some, Option.pure_def, Option.some.injEq, Prod.mk.injEq] at h
      obtain ⟨rfl, -⟩ := h
      exact setRaw_memoryOk _ k b hs
  · obtain ⟨_, _, -, rfl⟩ := of_i2cClosePoint h
    exact hs
  · obtain ⟨_, _, -, rfl⟩ := of_i2cFailPoint h
    exact hs
  · cases h

/-- A point of a command keeps the canonical form: three commands store bytes, the others write no memory. -/
theorem bodyOf_memoryOk {i : Instr} {p : Progress} {s t : State} {nx : Next} (hs : s.memoryOk)
    (h : bodyOf i p s = some (t, nx)) : t.memoryOk := by
  by_cases henc : i = .cobsEnc
  · subst henc; exact cobsEncBody_memoryOk hs h
  by_cases hdec : i = .cobsDec
  · subst hdec; exact cobsDecBody_memoryOk hs h
  by_cases hreadn : i = .i2cReadn
  · subst hreadn; exact i2cReadnBody_memoryOk hs h
  rwa [State.memoryOk, onlyWrites_mem (bodyOf_writes _ _ _ _ _ h) henc hdec hreadn]

theorem bodyOf_keeps {i : Instr} {p : Progress} {s t : State} {nx : Next} (h : bodyOf i p s = some (t, nx)) :
    KeepsMemoryAndParams s t :=
  ⟨fun hs => bodyOf_memoryOk hs h, onlyWrites_params (bodyOf_writes _ _ _ _ _ h)⟩

theorem illegalBody_keeps {p : Progress} {s t : State} {nx : Next} (h : illegalBody p s = some (t, nx)) :
    KeepsMemoryAndParams s t := by
  unfold illegalBody at h
  split at h <;> cases h
  exact .refl s

/-! ### Runs, host accesses and steps -/

/-- A run keeps what each of its points keeps. -/
theorem runBody_keeps {body : Body} (hbody : ∀ p s t nx, body p s = some (t, nx) → KeepsMemoryAndParams s t)
    (n : Nat) (s : State) : KeepsMemoryAndParams s (runBody body n s) :=
  runBody_rel KeepsMemoryAndParams body .refl (fun _ _ _ => .trans)
    (hseq := fun _ _ => .of_mem rfl rfl)
    (hdone := fun _ _ => .of_mem rfl rfl)
    (hpass := fun s => .of_mem (passPoint_mem s) (passPoint_params s))
    (hwait := fun s => .of_mem (waitPoint_mem s) (waitPoint_params s))
    (hbody := hbody) n s

theorem setBufferByte_keeps (s : State) (off : Nat) (v : Byte) : KeepsMemoryAndParams s (s.setBufferByte off v) :=
  ⟨setBufferByte_memoryOk s off v, setBufferByte_params s off v⟩

/-- A write to an idle block changes one register or one byte of a buffer (R61, R64). -/
theorem poke_keeps (s : State) (off : Nat) (v : Byte) : KeepsMemoryAndParams s (s.poke off v) := by
  unfold State.poke
  split
  case h_6 => exact setBufferByte_keeps s _ v
  all_goals exact .of_mem rfl rfl

theorem hostWrite_keeps (s : State) (off : Nat) (v : Byte) : KeepsMemoryAndParams s (s.hostWrite off v) := by
  unfold State.hostWrite
  split
  · exact .of_mem rfl rfl
  · split
    · exact .refl s
    · split
      · exact .of_mem rfl rfl
      · exact poke_keeps s off v

/-- Hardware reset empties the memory, which is canonical, and keeps the parameters (R281). -/
theorem hardwareReset_keeps (s : State) (b : Bool) :
    KeepsMemoryAndParams s { s.hardwareReset with resetLine := b } :=
  ⟨fun _ => rfl, rfl⟩

/-- Every step keeps the canonical memory and the parameters: the invariant of `step_inv` is to be so related to the
state the step starts from. -/
theorem step_keeps {s t : State} (h : step s = .next t) : KeepsMemoryAndParams s t :=
  step_inv (KeepsMemoryAndParams s)
    (hhost := fun _ _ hs => hs.trans (.of_mem rfl rfl))
    (hread := fun _ _ hs => hs.trans (.of_mem rfl rfl))
    (hwrite := fun u off v hs => hs.trans (hostWrite_keeps u off v))
    (hovr := fun _ hs => hs.trans (.of_mem rfl rfl))
    (hbegin := fun u w hs => hs.trans (.of_mem (begin_mem u w) (begin_params u w)))
    (hreset := fun u b hs => hs.trans (hardwareReset_keeps u b))
    (hrun := fun _ u hs => hs.trans (runBody_keeps (fun _ _ _ _ => bodyOf_keeps) _ u))
    (hillegal := fun u hs => hs.trans (runBody_keeps (fun _ _ _ _ => illegalBody_keeps) _ u))
    (.refl s) h

/-- Settles O58: each part of a step stores bytes by `setBufferByte` only, and none writes the parameters. -/
theorem memoryAndParametersAreKept : Obligations.MemoryAndParametersAreKept :=
  ⟨fun _ _ hs h => (step_keeps h).memoryOk hs, fun _ _ h => (step_keeps h).params⟩

/-! ### The state after reset (R41, R281) -/

theorem reset_memoryOk : State.reset.memoryOk := rfl

/-- SRCH_LD, SRCH_LFD and LDF are 0, and no command holds a bit number. -/
theorem reset_discoveryOk : State.reset.discoveryOk := ⟨by decide, by decide, fun _ => rfl, trivial⟩

theorem reset_lineOk : State.reset.lineOk := rfl

/-- The lines are released, OPEN is 0 and the trace is empty. -/
theorem reset_busOk : State.reset.busOk := ⟨rfl, rfl⟩

/-- The parameters are legal in exactly the ranges, and under exactly the constraints, of R9. -/
theorem params_legal_iff (p : Params) :
    p.legal = true ↔
      600 ≤ p.tRstEnd ∧ p.tRstEnd ≤ 800 ∧ 7 ≤ p.tMsr ∧ p.tMsr ≤ 15 ∧ p.tRstl + p.tPds < p.tRstEnd ∧
        p.tW0l < p.tSlot ∧ p.tRl < p.tMsr ∧ p.tMsr < p.tSlot :=
  decide_eq_true_iff

theorem reset_params_legal : State.reset.params.legal = true := by decide

/-- Settles O59: the base case of the four invariants, and the defaults of R9. -/
theorem resetMeetsTheInvariants : Obligations.ResetMeetsTheInvariants :=
  ⟨reset_memoryOk, reset_discoveryOk, reset_lineOk, reset_busOk, rfl, reset_params_legal, params_legal_iff⟩

end Sys2Proof.Machine
end

section
/-! SUPPORT. Every step keeps the discovery registers, and the bit numbers a running search holds, legal. -/

namespace Sys2Proof.Machine

/-! ### Where the commands without 1-Wire slots go -/

/-- The command runs 1-Wire slots or a reset pulse (R192 to R194). -/
def usesLine (i : Instr) : Bool :=
  match i with
  | .owiReset | .owiWbit | .owiRbit | .owiWbyte | .owiRbyte | .owiSfirst | .owiSnext => true
  | _ => false

/-- The command does not go on to a 1-Wire slot or reset pulse. -/
def Next.noSlot (nx : Next) : Prop :=
  match nx with
  | .goto (.slot _ _ _) => False
  | _ => True

/-- The stop of `sreset`, after which everything is cleared (R113). -/
theorem of_sresetBody_stop {s t : State} {nx : Next} (h : sresetBody .i2cStop s = some (t, nx)) :
    ∃ s1, s.i2cStopPhase = some s1 ∧ t = s1.softClear ∧ nx = .goto .last := by
  simp only [sresetBody, Option.bind_eq_bind, Option.bind_eq_some_iff, Option.pure_def, Option.some.injEq,
    Prod.mk.injEq] at h
  obtain ⟨s1, hs1, rfl, rfl⟩ := h
  exact ⟨s1, hs1, rfl, rfl⟩

/-- The byte that `i2c.read` receives, after which it ends (R168). -/
theorem of_i2cReadBody_recv {a : Bool} {k : Nat} {s t : State} {nx : Next}
    (h : i2cReadBody a (.i2cRecv k) s = some (t, nx)) :
    ∃ b s1, s.i2cRecvPhase a = some (b, s1) ∧ t = { s1 with data := b, i2cCode := recvCode a } ∧
      nx = .complete .ok := by
  simp only [i2cReadBody, Option.bind_eq_bind, Option.bind_eq_some_iff, Option.pure_def, finish,
    Option.some.injEq, Prod.mk.injEq] at h
  obtain ⟨⟨b, s1⟩, hs1, rfl, rfl⟩ := h
  exact ⟨b, s1, hs1, rfl, rfl⟩

/-- A byte that `i2c.readn` receives, after which it goes on to the next or to its stop (R170). -/
theorem of_i2cReadnBody_recv {k : Nat} {s t : State} {nx : Next}
    (h : i2cReadnBody (.i2cRecv k) s = some (t, nx)) :
    ∃ b s1, s.i2cRecvPhase (s.readnAck k) = some (b, s1) ∧
      t = { s1.setRaw k b with i2cCode := recvCode (s.readnAck k) } ∧
      nx = .goto (if k + 1 < s.lenNat then .i2cRecv (k + 1) else .i2cStop) := by
  simp only [i2cReadnBody, Option.bind_eq_bind, Option.bind_eq_some_iff, Option.pure_def,
    Option.some.injEq, Prod.mk.injEq] at h
  obtain ⟨⟨b, s1⟩, hs1, rfl, rfl⟩ := h
  exact ⟨b, s1, hs1, rfl, rfl⟩

theorem startPoint_noSlot {dir : Bool} {s t : State} {nx : Next} (h : startPoint dir s = some (t, nx)) :
    nx.noSlot := by
  obtain ⟨_, _, ⟨rfl, -⟩ | ⟨rfl, -⟩⟩ := of_startPoint h <;> trivial

theorem addrPoint_noSlot {dir : Bool} {after : State → State × Next} {s t : State} {nx : Next}
    (h : addrPoint dir after s = some (t, nx)) (hafter : ∀ u, (after u).2.noSlot) : nx.noSlot := by
  obtain ⟨_, _, h | ⟨rfl, -⟩⟩ := of_addrPoint h
  · rw [show nx = _ from congrArg Prod.snd h]
    exact hafter _
  · trivial

theorem sendPoint_noSlot {b : Byte} {after : State → State × Next} {s t : State} {nx : Next}
    (h : sendPoint b after s = some (t, nx)) (hafter : ∀ u, (after u).2.noSlot) : nx.noSlot := by
  obtain ⟨_, _, h | ⟨rfl, -⟩⟩ := of_sendPoint h
  · rw [show nx = _ from congrArg Prod.snd h]
    exact hafter _
  · trivial

theorem i2cFailPoint_noSlot {e : Result} {s t : State} {nx : Next} (h : i2cFailPoint e s = some (t, nx)) :
    nx.noSlot := by
  obtain ⟨_, _, rfl, -⟩ := of_i2cFailPoint h
  trivial

theorem i2cClosePoint_noSlot {s t : State} {nx : Next} (h : i2cClosePoint s = some (t, nx)) : nx.noSlot := by
  obtain ⟨_, _, rfl, -⟩ := of_i2cClosePoint h
  trivial

theorem writenNext_noSlot (k : Nat) (s : State) : (writenNext k s).2.noSlot := by
  unfold writenNext
  split <;> trivial

/-- A command of another unit never enters a slot. -/
theorem bodyOf_noSlot {i : Instr} {p : Progress} {s t : State} {nx : Next} (hi : usesLine i = false)
    (h : bodyOf i p s = some (t, nx)) : nx.noSlot := by
  cases i <;> simp only [bodyOf] at h
  case nop | crcClr | crcByte =>
    simp only [nopBody, crcClrBody, crcByteBody] at h
    split at h <;> cases h
    trivial
  case sreset =>
    unfold sresetBody at h
    split at h
    · split at h <;> cases h <;> trivial
    · obtain ⟨_, -, -, rfl⟩ := of_sresetBody_stop h
      trivial
    · cases h; trivial
    · cases h
  case crcBuf =>
    unfold crcBufBody at h
    split at h
    · cases h; trivial
    · split at h <;> cases h <;> trivial
    · cases h
  case cobsEnc | cobsDec =>
    simp only [cobsEncBody, cobsDecBody] at h
    split at h
    · split at h <;> cases h <;> trivial
    · split at h <;> cases h <;> trivial
    · cases h
  case i2cStartw | i2cStartr =>
    simp only [i2cStartwBody, i2cStartrBody] at h
    split at h
    · cases h; trivial
    · exact startPoint_noSlot h
    · exact addrPoint_noSlot h (fun _ => trivial)
    · exact i2cFailPoint_noSlot h
    · cases h
  case i2cWrite =>
    unfold i2cWriteBody at h
    split at h
    · split at h <;> cases h <;> trivial
    · exact sendPoint_noSlot h (fun _ => trivial)
    · exact i2cFailPoint_noSlot h
    · cases h
  case i2cRead a =>
    unfold i2cReadBody at h
    split at h
    · split at h <;> cases h <;> trivial
    · obtain ⟨_, _, -, -, rfl⟩ := of_i2cReadBody_recv (k := 0) h
      trivial
    · cases h
  case i2cStop =>
    unfold i2cStopBody at h
    split at h
    · split at h <;> cases h <;> trivial
    · exact i2cClosePoint_noSlot h
    · cases h
  case i2cReadn =>
    unfold i2cReadnBody at h
    split at h
    · split at h <;> cases h <;> trivial
    · exact startPoint_noSlot h
    · exact addrPoint_noSlot h (fun _ => trivial)
    · obtain ⟨_, _, -, -, rfl⟩ := of_i2cReadnBody_recv h
      split <;> trivial
    · exact i2cClosePoint_noSlot h
    · exact i2cFailPoint_noSlot h
    · cases h
  case i2cWriten =>
    unfold i2cWritenBody at h
    split at h
    · cases h; trivial
    · exact startPoint_noSlot h
    · exact addrPoint_noSlot h (writenNext_noSlot 0)
    · exact sendPoint_noSlot h (writenNext_noSlot _)
    · exact i2cClosePoint_noSlot h
    · exact i2cFailPoint_noSlot h
    · cases h
  all_goals cases hi

/-! ### What a point of a command keeps of the discovery registers (R31, R224, R226) -/

/-- The bit numbers held at the point a command goes on to are legal. -/
def Next.legal (nx : Next) : Prop :=
  match nx with
  | .goto (.slot _ _ job) => job.legal
  | _ => True

theorem Next.noSlot.legal {nx : Next} (h : nx.noSlot) : nx.legal := by
  unfold Next.legal
  split
  · exact h.elim
  · trivial

theorem slotOrEnd.legal {ok : Prop} {nx : Next} (h : slotOrEnd ok nx) (hok : ok) : nx.legal := by
  obtain ⟨_, _, rfl, hjob, -⟩ | ⟨_, rfl⟩ := h
  · exact hjob hok
  · trivial

/-- The sequencer at a point is legal exactly if going on to that point is. -/
theorem seq_run_legal_iff (c : Byte) (p : Progress) : (Seq.run c p).legal ↔ (Next.goto p).legal := by
  cases p <;> rfl

theorem discoveryOk_iff (s : State) : s.discoveryOk ↔ registersLegal s ∧ s.seq.legal := by
  simp only [State.discoveryOk, registersLegal, and_assoc]

/-- Equal discovery registers are legal together. -/
theorem registersLegal_of_sameDiscovery {s t : State} (h : sameDiscovery s t) (hs : registersLegal s) :
    registersLegal t := by
  obtain ⟨hld, hlfd, hldf, -⟩ := h
  rwa [registersLegal, hld, hlfd, hldf]

/-- Only `sreset` and the search commands write the discovery registers. -/
theorem onlyWrites_sameDiscovery {i : Instr} {s t : State} (h : onlyWrites i s t) (hsreset : i ≠ .sreset)
    (hfirst : i ≠ .owiSfirst) (hnext : i ≠ .owiSnext) : sameDiscovery s t := by
  cases i
  case sreset => exact absurd rfl hsreset
  case owiSfirst => exact absurd rfl hfirst
  case owiSnext => exact absurd rfl hnext
  all_goals simp only [onlyWrites] at h; rw [h]; exact ⟨rfl, rfl, rfl, rfl, rfl⟩

/-- A point of a command keeps the discovery registers legal, and goes to legal bit numbers only. -/
def LegalPoint (s t : State) (nx : Next) : Prop := (registersLegal s → registersLegal t) ∧ nx.legal

theorem SearchPoint.legalPoint {ok : Prop} {s t : State} {nx : Next} (h : SearchPoint ok s t nx) (hok : ok) :
    LegalPoint s t nx := by
  obtain ⟨-, hregisters, hnext⟩ := h
  exact ⟨hregisters hok, hnext.legal hok⟩

theorem DataPoint.legalPoint {s t : State} {nx : Next} (h : DataPoint s t nx) : LegalPoint s t nx := by
  obtain ⟨ht, hnext⟩ := h
  refine ⟨fun hs => ?_, hnext.legal trivial⟩
  rw [ht]
  exact hs

theorem LegalPoint.of_same {s t : State} {nx : Next} (h : t = s ∧ slotOrEnd True nx) : LegalPoint s t nx := by
  obtain ⟨rfl, hnext⟩ := h
  exact ⟨id, hnext.legal trivial⟩

/-- A slot or reset pulse entered at the start of a command. -/
theorem enterSlot_legalPoint {ops : List LineOp} {job : OwiJob} {s t : State} {nx : Next}
    (h : enterSlot ops job s = (t, nx)) (hjob : job.legal) : LegalPoint s t nx := by
  cases h
  exact ⟨id, hjob⟩

theorem lineOp_registersLegal {s : State} (op : LineOp) (got : Bool) (hs : registersLegal s) :
    registersLegal (s.lineOp op got).2 := by
  obtain ⟨_, _, _, -, h⟩ := lineOp_spec s op got
  rw [h]
  exact hs

/-- A 1-Wire command keeps legal what its start and its slot ends keep: a line action moves no register. -/
theorem owiBody_legalPoint {start : State → State × Next}
    {back : OwiJob → Bool → State → Option (State × Next)} {p : Progress} {s t : State} {nx : Next}
    (h : owiBody start back p s = some (t, nx)) (hp : (Next.goto p).legal)
    (hstart : ∀ s t nx, start s = (t, nx) → LegalPoint s t nx)
    (hback : ∀ job got s t nx, job.legal → back job got s = some (t, nx) → LegalPoint s t nx) :
    LegalPoint s t nx := by
  rcases of_owiBody h with ⟨-, h⟩ | ⟨op, todo, got, job, rfl, rfl, rfl⟩ | ⟨got, job, rfl, h⟩
  · exact hstart _ _ _ h
  · exact ⟨lineOp_registersLegal op got, hp⟩
  · exact hback _ _ _ _ _ hp h

/-- `sreset` leaves the discovery registers as they are, or clears them (R113). -/
theorem sresetBody_registersLegal {p : Progress} {s t : State} {nx : Next} (h : sresetBody p s = some (t, nx))
    (hs : registersLegal s) : registersLegal t := by
  have hclear (u : State) : registersLegal u.softClear := registersLegal_resetSearch u
  unfold sresetBody at h
  split at h
  · split at h <;> cases h
    · exact hs
    · exact hclear s
  · obtain ⟨s1, -, rfl, -⟩ := of_sresetBody_stop h
    exact hclear s1
  · cases h; exact hs
  · cases h

/-- Every point of every command. -/
theorem bodyOf_legalPoint {i : Instr} {p : Progress} {s t : State} {nx : Next} (hp : (Next.goto p).legal)
    (h : bodyOf i p s = some (t, nx)) : LegalPoint s t nx := by
  cases i
  case sreset => exact ⟨sresetBody_registersLegal h, (bodyOf_noSlot rfl h).legal⟩
  case owiSfirst =>
    exact owiBody_legalPoint h hp (fun _ _ _ h => (owiSfirstStart_point h).legalPoint trivial)
      (fun _ _ _ _ _ hjob h => (searchBack_point h).legalPoint hjob)
  case owiSnext =>
    exact owiBody_legalPoint h hp (fun _ _ _ h => (searchStart_point h).legalPoint trivial)
      (fun _ _ _ _ _ hjob h => (searchBack_point h).legalPoint hjob)
  case owiReset =>
    exact owiBody_legalPoint h hp (fun _ _ _ h => enterSlot_legalPoint h trivial)
      (fun _ _ _ _ _ _ h => .of_same (owiResetBack_point h))
  case owiWbit =>
    exact owiBody_legalPoint h hp (fun _ _ _ h => enterSlot_legalPoint h trivial)
      (fun _ _ _ _ _ _ h => .of_same (owiWbitBack_point h))
  case owiWbyte =>
    exact owiBody_legalPoint h hp (fun _ _ _ h => enterSlot_legalPoint h trivial)
      (fun _ _ _ _ _ _ h => .of_same (owiWbyteBack_point h))
  case owiRbit =>
    exact owiBody_legalPoint h hp (fun _ _ _ h => enterSlot_legalPoint h trivial)
      (fun _ _ _ _ _ _ h => (owiRbitBack_point h).legalPoint)
  case owiRbyte =>
    exact owiBody_legalPoint h hp (fun _ _ _ h => enterSlot_legalPoint h trivial)
      (fun _ _ _ _ _ _ h => (owiRbyteBack_point h).legalPoint)
  all_goals
    exact ⟨registersLegal_of_sameDiscovery (onlyWrites_sameDiscovery (bodyOf_writes _ _ _ _ _ h)
      nofun nofun nofun), (bodyOf_noSlot rfl h).legal⟩

theorem illegalBody_legalPoint {p : Progress} {s t : State} {nx : Next} (h : illegalBody p s = some (t, nx)) :
    LegalPoint s t nx := by
  unfold illegalBody at h
  split at h <;> cases h
  exact ⟨id, trivial⟩

/-! ### Runs, host accesses and steps -/

/-- A run of legal points keeps the discovery invariant. -/
theorem runBody_discoveryOk {body : Body}
    (hbody : ∀ p s t nx, (Next.goto p).legal → body p s = some (t, nx) → LegalPoint s t nx) (n : Nat) (s : State)
    (hs : s.discoveryOk) : (runBody body n s).discoveryOk := by
  have point {c p u t nx} (hseq : u.seq = .run c p) (hu : u.discoveryOk) (h : body p u = some (t, nx)) :
      registersLegal t ∧ nx.legal := by
    obtain ⟨hregisters, hlegal⟩ := (discoveryOk_iff u).1 hu
    rw [hseq, seq_run_legal_iff] at hlegal
    obtain ⟨hkeeps, hnext⟩ := hbody p u t nx hlegal h
    exact ⟨hkeeps hregisters, hnext⟩
  refine runBody_inv State.discoveryOk body ?_ ?_ ?_ ?_ n s hs
  · intro u hu
    simpa [State.discoveryOk] using hu
  · intro u hu
    simpa [State.discoveryOk] using hu
  · intro c p u t p' hseq hu h
    obtain ⟨hregisters, hnext⟩ := point hseq hu h
    exact (discoveryOk_iff _).2 ⟨hregisters, (seq_run_legal_iff c p').2 hnext⟩
  · intro c p u t r hseq hu h
    exact (discoveryOk_iff _).2 ⟨(point hseq hu h).1, trivial⟩

theorem begin_discoveryOk {s : State} (w : Byte) (hs : s.discoveryOk) : (s.begin w).discoveryOk := by
  obtain ⟨hregisters, -⟩ := (discoveryOk_iff s).1 hs
  cases hseq : s.seq with
  | idle =>
    rw [begin_idle w hseq]
    exact (discoveryOk_iff _).2 ⟨hregisters, trivial⟩
  | run c p => rwa [begin_running w hseq]

/-- The host can write no discovery register (R31, R61). -/
theorem poke_discoveryOk {s : State} (off : Nat) (v : Byte) (hs : s.discoveryOk) : (s.poke off v).discoveryOk := by
  unfold State.poke
  split
  case h_6 => simpa [State.discoveryOk] using hs
  all_goals exact hs

theorem hostWrite_discoveryOk {s : State} (off : Nat) (v : Byte) (hs : s.discoveryOk) :
    (s.hostWrite off v).discoveryOk := by
  unfold State.hostWrite
  split
  · exact hs
  · split
    · exact hs
    · split
      · exact hs
      · exact poke_discoveryOk off v hs

/-- Settles O51: each point of a running command keeps the registers and its bit numbers legal, and the host can
only clear them by a reset. -/
theorem discoveryRegistersStayLegal : Obligations.DiscoveryRegistersStayLegal :=
  fun _ _ hs h => step_inv State.discoveryOk
    (hhost := fun _ _ hs => hs)
    (hread := fun _ _ hs => hs)
    (hwrite := fun _ off v => hostWrite_discoveryOk off v)
    (hovr := fun _ hs => hs)
    (hbegin := fun _ w => begin_discoveryOk w)
    (hreset := fun _ _ _ => reset_discoveryOk)
    (hrun := fun _ => runBody_discoveryOk (fun _ _ _ _ => bodyOf_legalPoint) _)
    (hillegal := runBody_discoveryOk (fun _ _ _ _ _ => illegalBody_legalPoint) _)
    hs h

end Sys2Proof.Machine
end

section
/-! SUPPORT. RESULT and the status registers: RESULT is written at completion only, and what the host reads of the
status registers, after reset and in every state. -/

namespace Sys2Proof.Machine

/-! ### RESULT (R23, R110) -/

/-- No point of a command writes RESULT: that is left to `State.complete`. -/
theorem onlyWrites_result {i : Instr} {s t : State} (h : onlyWrites i s t) : t.result = s.result := by
  cases i <;> simp only [onlyWrites] at h <;> rw [h]

/-- A run whose points leave RESULT alone leaves it alone until it completes. -/
theorem runBody_result_of_running {body : Body} (hbody : ∀ p s t nx, body p s = some (t, nx) → t.result = s.result)
    (n : Nat) (s : State) : (runBody body n s).seq ≠ .idle → (runBody body n s).result = s.result := by
  refine runBody_inv (fun u => u.seq ≠ .idle → u.result = s.result) body ?_ ?_ ?_ ?_ n s (fun _ => rfl)
  · intro u hu
    simpa using hu
  · intro u hu
    simpa using hu
  · intro c p u t p' hseq hu h _
    exact (hbody p u t _ h).trans (hu (by simp [hseq]))
  · intro c p u t r _ _ _ hrunning
    exact absurd rfl hrunning

/-- Settles O14: no point of a command writes RESULT, and completion leaves the sequencer IDLE. -/
theorem resultIsWrittenOnlyAtCompletion : Obligations.ResultIsWrittenOnlyAtCompletion := by
  intro i s t h hrunning
  rw [of_exec_next h] at hrunning ⊢
  have hrun := runBody_result_of_running
    (fun p u v nx hpoint => onlyWrites_result (bodyOf_writes i p u v nx hpoint)) _ _ hrunning
  rw [hrun, begin_result]

/-! ### The status registers (R22, R28, R29, R31) -/

@[simp] theorem peek_status (s : State) : s.peek 0x001 = s.statusByte := rfl
@[simp] theorem peek_result (s : State) : s.peek 0x002 = s.result.code := rfl
@[simp] theorem peek_i2cAddr (s : State) : s.peek 0x008 = s.i2cAddrByte := rfl
@[simp] theorem peek_i2cStat (s : State) : s.peek 0x009 = s.i2cStatByte := rfl
@[simp] theorem peek_srchFlags (s : State) : s.peek 0x00C = s.srchFlagsByte := rfl

theorem busy_iff (s : State) : s.busy = true ↔ s.seq ≠ .idle := by
  cases h : s.seq <;> simp [State.busy, h]

theorem err_iff (s : State) : s.err = true ↔ s.result.code ≠ 0x00 := by
  simp [State.err, State.resultByte]

/-- The bits of STATUS. -/
theorem statusByte_bits (s : State) :
    s.statusByte.getLsbD 0 = s.busy ∧ s.statusByte.getLsbD 1 = s.err ∧ s.statusByte.getLsbD 2 = s.cmdOvr ∧
    s.statusByte.getLsbD 3 = s.accErr ∧ s.statusByte.extractLsb' 4 4 = 0 := by
  unfold State.statusByte
  generalize s.busy = busy, s.err = err, s.cmdOvr = ovr, s.accErr = acc
  revert busy err ovr acc
  decide

/-- The bits of I2C_ADDR. -/
theorem i2cAddrByte_bits (s : State) :
    s.i2cAddrByte.extractLsb' 0 7 = s.i2cAddr ∧ s.i2cAddrByte.getLsbD 7 = false := by
  unfold State.i2cAddrByte
  exact ⟨BitVec.extractLsb'_append_eq_right, by rw [BitVec.getLsbD_append]; rfl⟩

/-- The bits of I2C_STAT. -/
theorem i2cStatByte_bits (s : State) :
    s.i2cStatByte.extractLsb' 0 3 = s.i2cCode.code ∧ s.i2cStatByte.getLsbD 3 = false ∧
    s.i2cStatByte.getLsbD 4 = s.i2cOpen ∧ s.i2cStatByte.getLsbD 5 = s.i2cDir ∧
    s.i2cStatByte.extractLsb' 6 2 = 0 := by
  unfold State.i2cStatByte
  generalize s.i2cCode.code = code, s.i2cOpen = opened, s.i2cDir = dir
  revert code opened dir
  decide

/-- The bits of SRCH_FLAGS. -/
theorem srchFlagsByte_bits (s : State) :
    s.srchFlagsByte.getLsbD 0 = s.ldf ∧ s.srchFlagsByte.extractLsb' 1 7 = 0 := by
  unfold State.srchFlagsByte
  cases s.ldf <;> decide

/-- Settles O11: the bits of each status register, and the numbers of R251 and R29 as `Result.code` and
`I2cCode.code` list them. -/
theorem statusRegistersShowTheirFields : Obligations.StatusRegistersShowTheirFields := by
  refine ⟨rfl, rfl, fun s => ?_⟩
  obtain ⟨hbusy, herr, hovr, hacc, hreserved⟩ := statusByte_bits s
  rw [peek_status, peek_result, peek_i2cAddr, peek_i2cStat, peek_srchFlags]
  refine ⟨rfl, ⟨hbusy, busy_iff s, ?_, hovr, hacc, hreserved⟩, i2cAddrByte_bits s, i2cStatByte_bits s,
    srchFlagsByte_bits s⟩
  rw [herr, err_iff]

/-! ### The values after reset (R41) -/

theorem reset_romByte {k : Nat} (hk : k < 8) : State.reset.romByte k = 0x00 := by
  simp [State.reset, State.romByte, romByteOf, hk]

/-- Settles O4: every register by its field of `State.reset`; the buffers have no cell. -/
theorem resetLeavesTheResetValues : Obligations.ResetLeavesTheResetValues :=
  ⟨rfl, rfl, rfl, rfl, rfl, rfl, rfl, rfl, rfl, rfl, rfl, rfl, rfl, fun _ => reset_romByte, fun _ => rfl, rfl, rfl⟩

end Sys2Proof.Machine
end

section
/-! SUPPORT. The host's accesses: which of them reach the register space, and what a one-byte read returns and a
one-byte write stores there, by the register map. -/

namespace Sys2Proof.Machine

/-! ### Which accesses reach the register space (R60, R62, R281) -/

section Access

variable {s : State} (access : State → Host.Outcome State Fault Refusal)

theorem hostAccess_in_reset (width off : Nat) (h : s.resetLine = true) :
    hostAccess s width off access = .refused .accessInReset := if_pos h

theorem hostAccess_bad_width {width : Nat} (off : Nat) (h : s.resetLine = false) (hwidth : width ≠ 1) :
    hostAccess s width off access = .refused .accessWidth := by
  simp [hostAccess, accessWidthOk, h, hwidth]

theorem hostAccess_bad_offset {off : Nat} (h : s.resetLine = false) (hoff : 0x400 ≤ off) :
    hostAccess s 1 off access = .fault .noSuchOffset := by
  simp [hostAccess, accessWidthOk, accessOffsetOk, Config.offsets, h, Nat.not_lt.2 hoff]

theorem hostAccess_one_byte {off : Nat} (h : s.resetLine = false) (hoff : off < 0x400) :
    hostAccess s 1 off access = access s := by
  simp [hostAccess, accessWidthOk, accessOffsetOk, Config.offsets, h, hoff]

end Access

theorem hostAction_read_eq (s : State) (width off : Nat) :
    hostAction (.read width off) s = hostAccess s width off (fun s => .next (s.hostRead off)) := rfl

theorem hostAction_write_eq (s : State) (width off : Nat) (v : Byte) :
    hostAction (.write width off v) s =
      hostAccess s width off (fun s => if off = offCmd then commandWrite v s else .next (s.hostWrite off v)) := rfl

theorem hostAction_read {s : State} {off : Nat} (h : s.resetLine = false) (hoff : off < 0x400) :
    hostAction (.read 1 off) s = .next (s.hostRead off) := by
  rw [hostAction_read_eq, hostAccess_one_byte _ h hoff]

theorem hostAction_write {s : State} {off : Nat} (v : Byte) (h : s.resetLine = false) (hoff : off < 0x400)
    (hcmd : off ≠ offCmd) : hostAction (.write 1 off v) s = .next (s.hostWrite off v) := by
  rw [hostAction_write_eq, hostAccess_one_byte _ h hoff, if_neg hcmd]

/-- Settles O12: the three checks of an access, in the order the model makes them. -/
theorem accessesWithNoMeaningStop : Obligations.AccessesWithNoMeaningStop := by
  intro s width off v
  rw [hostAction_read_eq, hostAction_write_eq]
  refine ⟨fun h => ?_, fun h hwidth => ?_, fun h hwidth hoff => ?_⟩
  · exact ⟨hostAccess_in_reset _ width off h, hostAccess_in_reset _ width off h⟩
  · exact ⟨hostAccess_bad_width _ off h hwidth, hostAccess_bad_width _ off h hwidth⟩
  · subst hwidth
    exact ⟨hostAccess_bad_offset _ h hoff, hostAccess_bad_offset _ h hoff⟩

/-! ### What a read leaves unchanged (R65) -/

/-- A read writes the record of reads and the count of free values only. -/
theorem of_hostAction_read {s t : State} {width off : Nat} (h : hostAction (.read width off) s = .next t) :
    t = { s with reads := t.reads, draws := t.draws } := by
  rw [hostAction_read_eq] at h
  cases (of_hostAccess_next h).2
  rfl

/-- Settles O8: a read writes two fields, and neither is a state of the block. -/
theorem readsHaveNoSideEffect : Obligations.ReadsHaveNoSideEffect := by
  intro s t width off h
  rw [of_hostAction_read h]
  simp [sameMisuse, sameOperands, sameI2c, sameDiscovery]

/-! ### The areas of the register space (R61, R64) -/

theorem inBuffer_iff (off : Nat) : inBuffer off = true ↔ 0x100 ≤ off ∧ off ≤ 0x2FF := by
  simp only [inBuffer, inRaw, inFrame, Bool.or_eq_true, decide_eq_true_eq]
  unfold rawBase frameBase Config.bufferSize
  omega

theorem inBuffer_eq_false_iff (off : Nat) : inBuffer off = false ↔ off < 0x100 ∨ 0x2FF < off := by
  rw [← Bool.not_eq_true, inBuffer_iff]
  omega

theorem reserved_iff (off : Nat) :
    reserved off = true ↔ (0x00E ≤ off ∧ off ≤ 0x00F) ∨ (0x018 ≤ off ∧ off ≤ 0x0FF) ∨ 0x300 ≤ off :=
  decide_eq_true_iff

theorem inBuffer_of_reserved {off : Nat} (h : reserved off = true) : inBuffer off = false := by
  rw [reserved_iff] at h
  rw [inBuffer_eq_false_iff]
  omega

theorem exactWhileBusy_iff (off : Nat) :
    exactWhileBusy off = true ↔ off = 0x001 ∨ off = 0x002 ∨ reserved off = true := by
  simp [exactWhileBusy, offStatus, offResult, or_assoc]

theorem exactWhileBusy_eq_false_iff (off : Nat) :
    exactWhileBusy off = false ↔ off ≠ 0x001 ∧ off ≠ 0x002 ∧ reserved off = false := by
  rw [← Bool.not_eq_true, exactWhileBusy_iff]
  simp

/-! ### The byte at an offset -/

/-- The map gives no register at these offsets: they are bytes of a buffer or read 0. -/
theorem peek_of_no_register (s : State) {off : Nat} (h : inBuffer off = true ∨ reserved off = true) :
    s.peek off = if inBuffer off then s.bufferByte off else 0x00 := by
  unfold State.peek
  split
  case h_23 => rfl
  all_goals exact absurd h (by decide)

theorem peek_buffer (s : State) {off : Nat} (h : inBuffer off = true) : s.peek off = s.bufferByte off := by
  rw [peek_of_no_register s (.inl h), if_pos h]

theorem peek_reserved (s : State) {off : Nat} (h : reserved off = true) : s.peek off = 0x00 := by
  simp [peek_of_no_register s (.inr h), inBuffer_of_reserved h]

theorem romByte_eq (s : State) {k : Nat} (hk : k < 8) : s.romByte k = s.rom[k] := by
  simp [State.romByte, romByteOf, hk]

theorem peek_rom (s : State) {k : Nat} (hk : k < 8) : s.peek (0x010 + k) = s.rom[k] := by
  rw [← romByte_eq s hk]
  interval_cases k <;> rfl

theorem crcLo_eq_extractLsb' (s : State) : s.crcLo = s.crc.extractLsb' 0 8 :=
  BitVec.setWidth_eq_extractLsb' (by decide)

theorem crcHi_eq_extractLsb' (s : State) : s.crcHi = s.crc.extractLsb' 8 8 :=
  BitVec.setWidth_ushiftRight_eq_extractLsb

theorem i2cAddrByte_eq_setWidth (s : State) : s.i2cAddrByte = s.i2cAddr.setWidth 8 :=
  (BitVec.setWidth_eq_append (by decide)).symm

/-! ### Reads (R61, R64, R72) -/

/-- A read that the spec gives a value: any on an idle block, and the exact ones while a command runs. -/
theorem hostAction_read_exact {s : State} {off : Nat} {v : Byte} (hline : s.resetLine = false) (hoff : off < 0x400)
    (hexact : s.busy = false ∨ exactWhileBusy off = true) (hv : s.peek off = v) :
    hostAction (.read 1 off) s = .next { s with reads := (off, v) :: s.reads } := by
  have hguard : (s.busy && !exactWhileBusy off) = false := by
    rcases hexact with h | h <;> simp [h]
  simp [hostAction_read hline hoff, State.hostRead, State.readValue, hguard, hv]

/-- A read that the spec gives no value while a command runs (93 U2). -/
theorem hostAction_read_free {s : State} {off : Nat} (hline : s.resetLine = false) (hoff : off < 0x400)
    (hbusy : s.busy = true) (hfree : exactWhileBusy off = false) :
    hostAction (.read 1 off) s =
      .next { s with reads := (off, Config.busyByte s.draws) :: s.reads, draws := s.draws + 1 } := by
  simp [hostAction_read hline hoff, State.hostRead, State.readValue, hbusy, hfree]

/-- Settles O6: each read of an idle block is exact, so it is `State.peek` at each offset. -/
theorem idleReadsFollowTheRegisterMap : Obligations.IdleReadsFollowTheRegisterMap := by
  intro s hbusy hline reads
  have read {off : Nat} {v : Byte} (hoff : off < 0x400) (hv : s.peek off = v) : reads off v :=
    hostAction_read_exact hline hoff (.inl hbusy) hv
  refine ⟨read (by decide) rfl, read (by decide) rfl, read (by decide) rfl, read (by decide) rfl,
    read (by decide) rfl, read (by decide) rfl, read (by decide) (crcLo_eq_extractLsb' s),
    read (by decide) (crcHi_eq_extractLsb' s), read (by decide) (i2cAddrByte_eq_setWidth s), read (by decide) rfl,
    read (by decide) rfl, read (by decide) rfl, read (by decide) rfl, read (by decide) rfl, ?rom, ?raw, ?frame,
    ?reserved⟩
  case rom => exact fun k hk => read (by omega) (peek_rom s hk)
  case raw => exact fun i hi => read (by omega) (peek_buffer s (inBuffer_raw hi))
  case frame => exact fun i hi => read (by omega) (peek_buffer s (inBuffer_frame hi))
  case reserved => exact fun off hoff => read (by omega) (peek_reserved s ((reserved_iff off).2 (by omega)))

/-- Settles O7: STATUS, RESULT and the reserved offsets are the exact reads while a command runs. -/
theorem busyReadsAreExactOrFree : Obligations.BusyReadsAreExactOrFree := by
  intro s hbusy hline
  refine ⟨?status, ?result, fun off hoff => ?reserved, fun off hoff => ?free⟩
  case status => exact hostAction_read_exact hline (by decide) (.inr rfl) rfl
  case result => exact hostAction_read_exact hline (by decide) (.inr rfl) rfl
  case reserved =>
    have hres : reserved off = true := (reserved_iff off).2 (by omega)
    exact hostAction_read_exact hline (by omega) (.inr ((exactWhileBusy_iff off).2 (.inr (.inr hres))))
      (peek_reserved s hres)
  case free =>
    have hres : reserved off = false := by
      rw [← Bool.not_eq_true, reserved_iff]
      omega
    exact hostAction_read_free hline (by omega) hbusy
      ((exactWhileBusy_eq_false_iff off).2 ⟨by omega, by omega, hres⟩)

/-! ### Writes to an idle block (R61, R64) -/

/-- The offsets of the registers that take the value written (R61): CMD and STATUS are written apart. -/
def writableRegisters : List Nat := [0x003, 0x004, 0x006, 0x007, 0x008]

theorem mem_writableRegisters (off : Nat) :
    off ∈ writableRegisters ↔ off = 0x003 ∨ off = 0x004 ∨ off = 0x006 ∨ off = 0x007 ∨ off = 0x008 := by
  simp [writableRegisters]

/-- At an offset with no writable register a write reaches the buffers, or nothing. -/
theorem poke_of_no_register (s : State) {off : Nat} (v : Byte) (h : off ∉ writableRegisters) :
    s.poke off v = s.setBufferByte off v := by
  unfold State.poke
  split
  case h_6 => rfl
  all_goals exact absurd (by decide) h

theorem setBufferByte_outside (s : State) {off : Nat} (v : Byte) (h : inBuffer off = false) :
    s.setBufferByte off v = s := by
  simp [State.setBufferByte, h]

/-- Read-only registers and reserved offsets ignore the write, CMD and STATUS being no case of `State.poke`. -/
theorem poke_ignored (s : State) {off : Nat} (v : Byte) (h : off ∉ writableRegisters)
    (hbuffer : inBuffer off = false) : s.poke off v = s := by
  rw [poke_of_no_register s v h, setBufferByte_outside s v hbuffer]

theorem poke_reserved (s : State) {off : Nat} (v : Byte) (h : reserved off = true) : s.poke off v = s := by
  refine poke_ignored s v ?_ (inBuffer_of_reserved h)
  rw [reserved_iff] at h
  rw [mem_writableRegisters]
  omega

theorem hostWrite_idle {s : State} {off : Nat} (v : Byte) (hbusy : s.busy = false) (hstatus : off ≠ offStatus) :
    s.hostWrite off v = s.poke off v := by
  cases hres : reserved off with
  | true => simp [State.hostWrite, hstatus, hres, poke_reserved s v hres]
  | false => simp [State.hostWrite, hstatus, hres, hbusy]

theorem hostAction_write_idle {s : State} {off : Nat} (v : Byte) (hbusy : s.busy = false)
    (hline : s.resetLine = false) (hoff : 0x002 ≤ off ∧ off < 0x400) :
    hostAction (.write 1 off v) s = .next (s.poke off v) := by
  have hcmd : off ≠ offCmd := by unfold offCmd; omega
  have hstatus : off ≠ offStatus := by unfold offStatus; omega
  rw [hostAction_write v hline hoff.2 hcmd, hostWrite_idle v hbusy hstatus]

/-- Settles O10: but for STATUS a write to an idle block is `State.poke`, which writes one register, one byte of a
buffer, or nothing. -/
theorem idleWritesFollowTheRegisterMap : Obligations.IdleWritesFollowTheRegisterMap := by
  intro s v hbusy hline
  have write {off : Nat} (hoff : 0x002 ≤ off ∧ off < 0x400) :
      hostAction (.write 1 off v) s = .next (s.poke off v) := hostAction_write_idle v hbusy hline hoff
  refine ⟨?status, write (by decide), write (by decide), ?crcLo, ?crcHi, write (by decide), fun off hoff => ?ignored,
    fun off hoff => ?buffer⟩
  case status => exact hostAction_write v hline (by decide) (by decide)
  case crcLo =>
    rw [← crcHi_eq_extractLsb']
    exact write (by decide)
  case crcHi =>
    rw [← crcLo_eq_extractLsb']
    exact write (by decide)
  case ignored =>
    have hregister : off ∉ writableRegisters := by rw [mem_writableRegisters]; omega
    rw [write (by omega), poke_ignored s v hregister ((inBuffer_eq_false_iff off).2 (by omega))]
  case buffer =>
    have hregister : off ∉ writableRegisters := by rw [mem_writableRegisters]; omega
    refine ⟨s.setBufferByte off v, ?_, setBufferByte_spec s off v,
      bufferByte_setBufferByte_same s v ((inBuffer_iff off).2 hoff),
      fun other hother => bufferByte_setBufferByte_other s v hother⟩
    rw [write (by omega), poke_of_no_register s v hregister]

end Sys2Proof.Machine
end

section
/-! SUPPORT. The decoder and the encoder of command words: they undo each other, and the words that encode no
command are the illegal ones. -/

namespace Sys2Proof

/-! ### The fields of a word (R90) -/

theorem ofNat_wordUnit (w : Byte) : BitVec.ofNat 3 (wordUnit w) = w.extractLsb' 5 3 := by
  rw [wordUnit, BitVec.toNat_ushiftRight, BitVec.extractLsb']

theorem ofNat_wordOp (w : Byte) : BitVec.ofNat 5 (wordOp w) = w.extractLsb' 0 5 := by
  have hmask : wordOp w = w.toNat % 2 ^ 5 := Nat.and_two_pow_sub_one_eq_mod w.toNat 5
  apply BitVec.eq_of_toNat_eq
  simp [hmask]

/-- A word is its fields U and OP. -/
theorem cmd8_wordUnit_wordOp (w : Byte) : cmd8 (BitVec.ofNat 3 (wordUnit w)) (BitVec.ofNat 5 (wordOp w)) = w := by
  rw [ofNat_wordUnit, ofNat_wordOp]
  exact (BitVec.extractLsb'_append_extractLsb'_eq_extractLsb' rfl).trans BitVec.extractLsb'_eq_self

/-! ### Decoding and encoding (R92, R93, R95) -/

/-- What the decoder can answer: the word itself as illegal, or a command with that word. -/
theorem decode_cases (w : Byte) :
    decode w = .illegalCommand w ∨ ∃ i, decode w = .command i ∧ encode i = w := by
  have hword := cmd8_wordUnit_wordOp w
  generalize hd : decode w = d
  unfold decode at hd
  split at hd
  case h_23 => exact .inl hd.symm
  all_goals
    rename_i hunit hop
    rw [hunit, hop] at hword
    subst hword
    exact .inr ⟨_, hd.symm, rfl⟩

@[simp] theorem decode_encode (i : Instr) : decode (encode i) = .command i := by
  cases i
  case i2cRead ack => cases ack <;> rfl
  all_goals rfl

theorem encode_of_decode {w : Byte} {i : Instr} (h : decode w = .command i) : encode i = w := by
  obtain hillegal | ⟨j, hj, hw⟩ := decode_cases w
  · cases hillegal.symm.trans h
  · cases hj.symm.trans h
    exact hw

theorem decode_eq_illegalCommand {w : Byte} (h : ∀ i, encode i ≠ w) : decode w = .illegalCommand w :=
  (decode_cases w).resolve_right fun ⟨i, _, hi⟩ => h i hi

/-- The words of the opcode map. -/
def legalWords : List Byte :=
  [0x00, 0x01, 0x20, 0x21, 0x22, 0x40, 0x41, 0x60, 0x61, 0x62, 0x64, 0x65, 0x66, 0x67, 0x68, 0x80, 0x81, 0x82, 0x83,
    0x84, 0x85, 0x86]

theorem encode_mem_legalWords (i : Instr) : encode i ∈ legalWords := by
  cases i
  case i2cRead ack => cases ack <;> decide
  all_goals decide

/-- Settles O2: the round trip by the commands, the converse by what the decoder can answer. -/
theorem decodeAndEncodeAgree : Obligations.DecodeAndEncodeAgree :=
  ⟨decode_encode, fun _ _ => encode_of_decode⟩

/-- Settles O1: each legal word is the encoding of its command, and no command has a word outside the map. -/
theorem decodeFollowsTheOpcodeMap : Obligations.DecodeFollowsTheOpcodeMap := by
  refine ⟨decode_encode .nop, decode_encode .sreset, decode_encode .crcClr, decode_encode .crcByte,
    decode_encode .crcBuf, decode_encode .cobsEnc, decode_encode .cobsDec, decode_encode .i2cStartw,
    decode_encode .i2cStartr, decode_encode .i2cWrite, decode_encode (.i2cRead false), decode_encode (.i2cRead true),
    decode_encode .i2cStop, decode_encode .i2cReadn, decode_encode .i2cWriten, decode_encode .owiReset,
    decode_encode .owiWbit, decode_encode .owiRbit, decode_encode .owiWbyte, decode_encode .owiRbyte,
    decode_encode .owiSfirst, decode_encode .owiSnext, fun w (hw : w ∉ legalWords) => ?_⟩
  have hnotEncoded (i : Instr) : encode i ≠ w := fun h => hw (h ▸ encode_mem_legalWords i)
  exact decode_eq_illegalCommand hnotEncoded

end Sys2Proof
end

section
/-! SUPPORT. The sequencer and the control commands: whose turn a step is, what a host write to CMD and the other
writes do while a command runs, and the runs of `nop`, `sreset` and the illegal command. -/

namespace Sys2Proof.Machine

/-! ### Whose turn a step is (R70, R110, R281, R283) -/

theorem runWord_of_command {w : Byte} {i : Instr} (s : State) (h : decode w = .command i) :
    runWord w s = exec i s := by
  simp [runWord, h]

theorem runWord_of_illegal {w : Byte} (s : State) (h : decode w = .illegalCommand w) :
    runWord w s = execIllegal w s := by
  simp [runWord, h]

theorem hostTurn_nil {s : State} (h : s.host = []) : hostTurn s = .next s := by
  simp [hostTurn, h]

theorem hostTurn_cons {s : State} {e : HostEvent} {rest : List HostEvent} (h : s.host = e :: rest) :
    hostTurn s = hostAction e.action { s with host := rest } := by
  simp [hostTurn, h]

theorem step_idle {s : State} (h : s.seq = .idle) : step s = hostTurn s := by
  simp [step, takeTurn, h]

/-- A running command goes on, unless a host action is due or reset is asserted. -/
theorem step_running {s : State} {c : Byte} {p : Progress} (h : s.seq = .run c p) (hline : s.resetLine = false)
    (hdue : s.hostDue = false) : step s = runWord c s := by
  simp [step, takeTurn, h, hline, hdue]

/-- The host's turn comes while a command runs when its action is due or reset is asserted. -/
theorem step_interrupted {s : State} (h : s.seq ≠ .idle) (hturn : s.hostDue = true ∨ s.resetLine = true) :
    step s = hostTurn s := by
  cases hseq : s.seq with
  | idle => exact absurd hseq h
  | run c p => simp [step, takeTurn, hseq, hturn]

theorem hostDue_of_after {s : State} {e : HostEvent} {rest : List HostEvent} (h : s.host = e :: rest)
    (hafter : e.after = some 0) : s.hostDue = true := by
  simp [State.hostDue, h, hafter]

/-! ### Host writes to CMD (R110, R111) -/

theorem busy_of_idle {s : State} (h : s.seq = .idle) : s.busy = false := by
  simp [State.busy, h]

theorem hostAction_write_cmd {s : State} (v : Byte) (h : s.resetLine = false) :
    hostAction (.write 1 offCmd v) s = commandWrite v s := by
  rw [hostAction_write_eq, hostAccess_one_byte _ h (by decide), if_pos rfl]

theorem commandWrite_idle {s : State} (v : Byte) (h : s.seq = .idle) : commandWrite v s = runWord v s := by
  simp [commandWrite, busy_of_idle h]

theorem commandWrite_busy {s : State} (v : Byte) (h : s.busy = true) :
    commandWrite v s = .next { s with cmdOvr := true } := if_pos h

/-- A host write to CMD that stands next on an idle block runs its word. -/
theorem step_command {s : State} {after : Option Nat} {rest : List HostEvent} {w : Byte} (hseq : s.seq = .idle)
    (hline : s.resetLine = false) (hhost : s.host = { after := after, action := .write 1 offCmd w } :: rest) :
    step s = runWord w { s with host := rest } := by
  rw [step_idle hseq, hostTurn_cons hhost]
  exact (hostAction_write_cmd (s := { s with host := rest }) w hline).trans (commandWrite_idle w hseq)

/-- Settles O3: whose turn it is, then the host's first action or the word of the command. -/
theorem stepRunsTheDecodedCommand : Obligations.StepRunsTheDecodedCommand := by
  refine ⟨?command, ?running, ?waiting, ?action, ?inReset⟩
  case command =>
    intro s after rest w hseq hline hhost
    rw [step_command hseq hline hhost]
    exact ⟨fun i => runWord_of_command _, runWord_of_illegal _⟩
  case running =>
    intro s c p hseq hline hdue
    rw [step_running hseq hline hdue]
    exact ⟨fun i => runWord_of_command s, runWord_of_illegal s⟩
  case waiting =>
    intro s hseq hhost
    rw [step_idle hseq, hostTurn_nil hhost]
  case action =>
    intro s e rest hhost
    rw [← hostTurn_cons hhost]
    exact ⟨step_idle, fun hseq hturn => step_interrupted hseq (hturn.imp_left (hostDue_of_after hhost))⟩
  case inReset =>
    intro s hseq hline hhost
    rw [step_interrupted hseq (.inr hline), hostTurn_nil hhost]

/-! ### The other host writes while a command runs (R22, R64, R72) -/

theorem hostWrite_status (s : State) (v : Byte) : s.hostWrite offStatus v = s.clearStatus v := if_pos rfl

theorem hostWrite_reserved (s : State) {off : Nat} (v : Byte) (h : reserved off = true) : s.hostWrite off v = s := by
  have hstatus : off ≠ offStatus := by
    rintro rfl
    exact absurd h (by decide)
  simp [State.hostWrite, hstatus, h]

theorem hostWrite_busy {s : State} {off : Nat} (v : Byte) (hbusy : s.busy = true) (hstatus : off ≠ offStatus)
    (hres : reserved off = false) : s.hostWrite off v = { s with accErr := true } := by
  simp [State.hostWrite, hstatus, hres, hbusy]

/-- Settles O9: a write to CMD is discarded, and the others are `State.hostWrite` on a busy block. -/
theorem busyWritesOnlySetFlags : Obligations.BusyWritesOnlySetFlags := by
  intro s v hbusy hline
  refine ⟨?cmd, ?status, fun off hoff => ?reserved, fun off hoff => ?other⟩
  case cmd => exact (hostAction_write_cmd v hline).trans (commandWrite_busy v hbusy)
  case status =>
    rw [hostAction_write v hline (by decide) (by decide)]
    exact congrArg _ (hostWrite_status s v)
  case reserved =>
    have hres : reserved off = true := (reserved_iff off).2 (by omega)
    rw [hostAction_write v hline (by omega) (by unfold offCmd; omega), hostWrite_reserved s v hres]
  case other =>
    have hres : reserved off = false := by
      rw [← Bool.not_eq_true, reserved_iff]
      omega
    rw [hostAction_write v hline (by omega) (by unfold offCmd; omega),
      hostWrite_busy v hbusy (by unfold offStatus; omega) hres]

/-! ### Commands on an idle block (R110) -/

/-- `exec_of_ends` for the pseudocode of any word, the illegal command included. -/
theorem runCommand_of_ends {body : Body} {w : Byte} {s t : State} {k : Nat} (hs : s.ready)
    (h : Ends body w k .first s t) (hk : k ≤ Config.burst) : runCommand w body s = .next t := by
  have hrun := h hs.2 (Config.burst - k)
  rw [Nat.sub_add_cancel hk] at hrun
  rw [runCommand, begin_idle w hs.1]
  exact congrArg _ hrun

/-- Completion brings the sequencer back to IDLE: against an idle state only RESULT is new. -/
theorem at_complete {s : State} (c : Byte) (p : Progress) (r : Result) (h : s.seq = .idle) :
    (s.at c p).complete r = { s with result := r } := by
  simp [State.at, State.complete, h]

/-- A last point that writes nothing: the command leaves `s`, whose sequencer is idle, with the new RESULT. -/
theorem ends_at {body : Body} {c : Byte} {p : Progress} {s : State} {r : Result} (hseq : s.seq = .idle)
    (hb : body p (s.at c p) = some (s.at c p, .complete r)) : Ends body c 1 p s { s with result := r } := by
  rw [← at_complete c p r hseq]
  exact ends_one hb

/-! ### `nop` and the illegal command (R112, R114) -/

/-- Settles O15: the one point of `nop` is `finish()`. -/
theorem nopCompletes : Obligations.NopCompletes :=
  ⟨rfl, fun _ hs => exec_of_ends hs (ends_at hs.1 rfl) (by decide)⟩

/-- Settles O16: the one point of the illegal command raises E_ILLEGAL. -/
theorem illegalWordsComplete : Obligations.IllegalWordsComplete := by
  intro s w hs hw
  rw [runWord_of_illegal s hw]
  exact runCommand_of_ends hs (ends_at hs.1 rfl) (by decide)

/-! ### `sreset` (R113) -/

/-- With no transaction open everything is cleared at once. -/
theorem leads_sreset_clear {c : Byte} {s : State} (hopen : s.i2cOpen = false) :
    Leads sresetBody c 1 .first s .last s.softClear :=
  leads_one rfl (if_neg (ne_true_of_eq_false hopen))

/-- With a transaction open its stop comes first. -/
theorem leads_sreset_open {c : Byte} {s : State} (hopen : s.i2cOpen = true) :
    Leads sresetBody c 1 .first s .i2cStop s :=
  leads_one rfl (if_pos hopen)

/-- The stop releases the bus, and everything is cleared after it. -/
theorem leads_sreset_stop {c : Byte} {s s1 : State} {r : I2cReply} (h : s.nextReply = some (r, s1)) :
    Leads sresetBody c 1 .i2cStop s .last { s1.softClear with i2cHeld := false, trace := .i2cStop :: s1.trace } := by
  refine leads_one (show s1.host = s.host from nextReply_host h) ?_
  rw [sresetBody, i2cStopPhase_of (at_nextReply h _ _)]
  rfl

theorem exec_sreset_closed {s : State} (hs : s.ready) (hopen : s.i2cOpen = false) :
    exec .sreset s = .next { s.softClear with result := .ok } :=
  exec_of_ends hs ((leads_sreset_clear hopen).ends (ends_at hs.1 rfl)) (by decide)

theorem exec_sreset_open {s s1 : State} {r : I2cReply} (hs : s.ready) (hopen : s.i2cOpen = true)
    (h : s.nextReply = some (r, s1)) :
    exec .sreset s =
      .next { s1.softClear with result := .ok, i2cHeld := false, trace := .i2cStop :: s.trace } := by
  have hrun := (leads_sreset_open (c := encode .sreset) hopen).trans (leads_sreset_stop h)
  obtain ⟨script, draws, rfl⟩ := of_nextReply h
  exact exec_of_ends hs (hrun.ends (ends_at hs.1 rfl)) (by decide)

/-- Settles O17: `State.softClear` clears every register and flag, after the stop where a transaction is open. -/
theorem sresetCompletes : Obligations.SresetCompletes :=
  ⟨rfl, fun _ hs => ⟨exec_sreset_closed hs, fun hopen _ _ h => exec_sreset_open hs hopen h⟩⟩

end Sys2Proof.Machine
end

section
/-! SUPPORT. The CRC-16 unit: one shift and one byte update as linear maps over GF(2), the residue of a checksum, the
runs of the three CRC commands and what they leave alone. -/

namespace Sys2Proof.Machine

/-! ### One shift (R120) -/

/-- What a shift adds to the shifted register: the polynomial if the top bit was 1. -/
def crc16Feedback (top : Bool) : Half := if top then Config.crc16Poly else 0

theorem crc16Feedback_xor (a b : Bool) : crc16Feedback (a ^^ b) = crc16Feedback a ^^^ crc16Feedback b := by
  cases a <;> cases b <;> decide

theorem crc16Shift_eq_xor (c : Half) : crc16Shift c = c <<< 1 ^^^ crc16Feedback (c.getLsbD 15) := by
  unfold crc16Shift crc16Feedback
  split
  · rfl
  · exact (BitVec.xor_zero).symm

theorem crc16Shift_of_top_clear {c : Half} (h : c.getLsbD 15 = false) : crc16Shift c = c <<< 1 :=
  if_neg (ne_true_of_eq_false h)

/-- The shift with the top bit read as the sign bit. -/
theorem crc16Shift_eq_msb : crc16Shift = fun c => if c.msb then (c <<< 1) ^^^ 0x1021#16 else c <<< 1 := by
  funext c
  rw [BitVec.msb_eq_getLsbD_last]
  rfl

theorem crc16Shift_xor (c d : Half) : crc16Shift (c ^^^ d) = crc16Shift c ^^^ crc16Shift d := by
  simp only [crc16Shift_eq_xor, BitVec.getLsbD_xor, BitVec.shiftLeft_xor_distrib, crc16Feedback_xor]
  ac_rfl

/-! ### Several shifts, and the byte update (R120, R125 (a)) -/

theorem repeat_crc16Shift_xor (n : Nat) (c d : Half) :
    Nat.repeat crc16Shift n (c ^^^ d) = Nat.repeat crc16Shift n c ^^^ Nat.repeat crc16Shift n d := by
  induction n with
  | zero => rfl
  | succ n ih => simp only [Nat.repeat, ih, crc16Shift_xor]

/-- Up to eight shifts of a byte at the bottom of the register never meet a 1 at the top. -/
theorem repeat_crc16Shift_setWidth (b : Byte) {n : Nat} (hn : n ≤ 8) :
    Nat.repeat crc16Shift n (b.setWidth 16) = b.setWidth 16 <<< n := by
  induction n with
  | zero => exact (BitVec.shiftLeft_zero _).symm
  | succ n ih =>
    have htop : (b.setWidth 16 <<< n).getLsbD 15 = false := by
      rw [BitVec.getLsbD_shiftLeft, BitVec.getLsbD_setWidth, BitVec.getLsbD_of_ge b (15 - n) (by omega)]
      simp
    rw [Nat.repeat, ih (by omega), crc16Shift_of_top_clear htop, BitVec.shiftLeft_add]

theorem crc16Update_xor (c d : Half) (a b : Byte) :
    crc16Update (c ^^^ d) (a ^^^ b) = crc16Update c a ^^^ crc16Update d b := by
  unfold crc16Update
  rw [← repeat_crc16Shift_xor, BitVec.setWidth_xor, BitVec.shiftLeft_xor_distrib]
  ac_rfl

theorem crc16Update_zero : crc16Update 0x0000 0x00 = 0x0000 := by decide

/-- The byte enters at the top: it is the high byte of what the shifts start from. -/
theorem crc16Update_eq_append (c : Half) (b : Byte) :
    crc16Update c b = Nat.repeat crc16Shift 8 (c ^^^ (b ++ 0#8 : BitVec (8 + 8))) := by
  have htop : (b ++ 0#8 : BitVec (8 + 8)) = b.setWidth 16 <<< 8 := by
    rw [← BitVec.setWidth_eq (b ++ 0#8), BitVec.setWidth_append_eq_shiftLeft_setWidth_or]
    simp
  rw [htop, crc16Update]

/-! ### Byte sequences (R121, R125) -/

@[simp] theorem crc16From_nil (c : Half) : crc16From c [] = c := rfl

@[simp] theorem crc16From_cons (c : Half) (b : Byte) (l : List Byte) :
    crc16From c (b :: l) = crc16From (crc16Update c b) l := rfl

theorem crc16From_append (c : Half) (l m : List Byte) : crc16From c (l ++ m) = crc16From (crc16From c l) m :=
  List.foldl_append

theorem crc16_append (l m : List Byte) : crc16 (l ++ m) = crc16From (crc16 l) m := crc16From_append _ l m

theorem crc16From_zeros (n : Nat) : crc16From 0x0000 (List.replicate n 0x00) = 0x0000 := by
  induction n with
  | zero => rfl
  | succ n ih => rw [List.replicate_succ, crc16From_cons, crc16Update_zero, ih]

/-- A register without its high byte is its low byte. -/
theorem xor_high_byte (c : Half) :
    c ^^^ (c.extractLsb' 8 8).setWidth 16 <<< 8 = (c.extractLsb' 0 8).setWidth 16 := by
  refine BitVec.eq_of_getLsbD_eq fun i hi => ?_
  by_cases h8 : i < 8
  · simp [h8, hi]
  · have hhigh : i - 8 < 8 := by omega
    have hindex : 8 + (i - 8) = i := by omega
    simp [h8, hi, hhigh, hindex]

/-- The high byte of the register is cancelled by an equal byte: the low byte moves up, through eight shifts
with nothing at the top. -/
theorem crc16Update_high_byte (c : Half) :
    crc16Update c (c.extractLsb' 8 8) = (c.extractLsb' 0 8).setWidth 16 <<< 8 := by
  rw [crc16Update, xor_high_byte, repeat_crc16Shift_setWidth _ le_rfl]

/-- A register that holds just the byte to come, at the top, is cancelled by it. -/
theorem crc16Update_shifted_byte (b : Byte) : crc16Update (b.setWidth 16 <<< 8) b = 0x0000 := by
  rw [crc16Update, BitVec.xor_self]
  decide

theorem crc16From_own_bytes (c : Half) : crc16From c [c.extractLsb' 8 8, c.extractLsb' 0 8] = 0x0000 := by
  rw [crc16From_cons, crc16Update_high_byte, crc16From_cons, crc16Update_shifted_byte, crc16From_nil]

/-- Settles O22: a shift is linear, so eight of them and the entry of the byte are. -/
theorem crcUpdateIsLinear : Obligations.CrcUpdateIsLinear :=
  ⟨crc16Update_xor, crc16Update_zero, crc16From_zeros⟩

/-- Settles O23: each byte of the checksum cancels the register byte that it meets at the top. -/
theorem crcResidueIsZero : Obligations.CrcResidueIsZero := by
  intro bytes
  rw [crc16_append, crc16From_own_bytes]

/-- Settles O21: the nine updates, evaluated. -/
theorem crcCheckValue : Obligations.CrcCheckValue := ⟨by decide +kernel, rfl⟩

/-! ### The runs of the commands (R122, R123, R124) -/

/-- The last point of a CRC command: CRC takes its new value, and the command is done. -/
theorem ends_crc {body : Body} {c : Byte} {p : Progress} {s : State} {v : Half} (hseq : s.seq = .idle)
    (hb : body p (s.at c p) = some (finish { s.at c p with crc := v })) :
    Ends body c 1 p s { s with result := .ok, crc := v } := by
  rw [← at_complete (s := { s with crc := v }) c p .ok hseq]
  exact ends_one hb

theorem exec_crcClr {s : State} (hs : s.ready) : exec .crcClr s = .next { s with result := .ok, crc := 0x0000 } :=
  exec_of_ends hs (ends_crc hs.1 rfl) (by decide)

theorem exec_crcByte {s : State} (hs : s.ready) :
    exec .crcByte s = .next { s with result := .ok, crc := crc16Update s.crc s.data } :=
  exec_of_ends hs (ends_crc hs.1 rfl) (by decide)

/-- `n` passes of the loop of `crc.buf` take the register over RAW[0..n-1]. -/
theorem leads_crcLoop (c : Byte) (s : State) (v : Half) {n : Nat} (hn : n ≤ s.lenNat) :
    Leads crcBufBody c n (.crcLoop 0 v) s (.crcLoop n (crc16From v ((List.range n).map s.rawAt))) s := by
  induction n with
  | zero => exact .refl _ _ _ _
  | succ n ih =>
    have hpass : Leads crcBufBody c 1 (.crcLoop n (crc16From v ((List.range n).map s.rawAt))) s
        (.crcLoop (n + 1) (crc16From v ((List.range (n + 1)).map s.rawAt))) s := by
      rw [List.range_succ, List.map_append, crc16From_append]
      exact leads_one rfl (if_pos hn)
    have hrun := (ih (by omega)).trans hpass
    rwa [Nat.add_comm 1 n] at hrun

theorem exec_crcBuf {s : State} (hs : s.ready) :
    exec .crcBuf s = .next { s with
      result := .ok, crc := crc16From s.crc ((List.range s.lenNat).map s.rawAt) } := by
  have hfirst : Leads crcBufBody (encode .crcBuf) 1 .first s (.crcLoop 0 s.crc) s := leads_one rfl rfl
  have hlast := ends_crc (body := crcBufBody) (c := encode .crcBuf)
    (p := .crcLoop s.lenNat (crc16From s.crc ((List.range s.lenNat).map s.rawAt))) hs.1 (if_neg (Nat.lt_irrefl _))
  have hlen : s.lenNat < 256 := s.len.isLt
  exact exec_of_ends hs ((hfirst.trans (leads_crcLoop _ s s.crc le_rfl)).ends hlast) (by unfold Config.burst; omega)

/-- Settles O18: the one point of `crc.clr`. -/
theorem crcClrCompletes : Obligations.CrcClrCompletes := ⟨rfl, fun _ => exec_crcClr⟩

/-- Settles O19: the one point of `crc.byte`, with the eight shifts of its update written out. -/
theorem crcByteCompletes : Obligations.CrcByteCompletes := by
  refine ⟨rfl, fun s hs => ?_⟩
  rw [exec_crcByte hs, crc16Update_eq_append, crc16Shift_eq_msb]
  rfl

/-- Settles O20: `crc.buf` reads CRC, goes through its loop LEN times and writes CRC. -/
theorem crcBufCompletes : Obligations.CrcBufCompletes := ⟨rfl, fun _ => exec_crcBuf⟩

/-! ### What the commands leave alone (R122, R123, R124) -/

/-- From `s` to `t` only CRC, RESULT, the sequencer, the host's queue and the answers that the I2C environment used up
may have changed. -/
def onlyCrcRun (s t : State) : Prop :=
  t = { s with
    crc := t.crc, result := t.result, seq := t.seq, host := t.host, i2cScript := t.i2cScript, draws := t.draws }

theorem onlyCrcRun.trans {s t u : State} (h : onlyCrcRun s t) (h' : onlyCrcRun t u) : onlyCrcRun s u := by
  unfold onlyCrcRun at *
  rw [h', h]

theorem onlyWrites_onlyCrcRun {i : Instr} (hi : i = .crcClr ∨ i = .crcByte ∨ i = .crcBuf) {s t : State}
    (h : onlyWrites i s t) : onlyCrcRun s t := by
  have hcrc : t = { s with crc := t.crc } := by
    obtain rfl | rfl | rfl := hi <;> exact h
  unfold onlyCrcRun
  rw [hcrc]

theorem exec_onlyCrcRun {i : Instr} (hi : i = .crcClr ∨ i = .crcByte ∨ i = .crcBuf) {s t : State}
    (h : exec i s = .next t) : onlyCrcRun s t :=
  exec_rel onlyCrcRun i (hrefl := fun _ => rfl) (htrans := fun _ _ _ => .trans) (hseq := fun _ _ => rfl)
    (hdone := fun _ _ => rfl) (hhost := fun _ _ => rfl) (hwait := fun _ _ _ => rfl)
    (hwrites := fun _ _ => onlyWrites_onlyCrcRun hi) h

/-- Settles O24: every point of the three commands writes CRC only, and completion RESULT. -/
theorem crcFrame : Obligations.CrcFrame := by
  intro i s t hi h
  rw [exec_onlyCrcRun hi h]
  exact ⟨rfl, rfl, rfl, rfl, ⟨rfl, rfl, rfl, rfl⟩, ⟨rfl, rfl, rfl, rfl, rfl⟩, ⟨rfl, rfl⟩, ⟨rfl, rfl, rfl, rfl⟩,
    fun _ _ => rfl, rfl, rfl⟩

end Sys2Proof.Machine
end

section
/-! SUPPORT. The COBS codec: the encoding in closed form, the decoder on an encoding, and what the decoder's loop keeps
on any frame. -/

namespace Sys2Proof.Machine

/-! ### The encoding in closed form (R140) -/

/-- The code byte that stands before the bytes `l` in an encoding: the distance to their first zero, or to their end. -/
def cobsCode : List Byte → Byte
  | [] => 1
  | b :: l => if b = 0x00 then 1 else cobsCode l + 1

/-- The bytes of an encoding after its first code byte, without the terminating zero: each zero of the input is
replaced by the code byte of what follows it. -/
def cobsBody : List Byte → List Byte
  | [] => []
  | b :: l => (if b = 0x00 then cobsCode l else b) :: cobsBody l

theorem cobsCode_cons_zero (l : List Byte) : cobsCode (0x00 :: l) = 1 := rfl

theorem cobsCode_cons_nonzero {b : Byte} (hb : b ≠ 0x00) (l : List Byte) : cobsCode (b :: l) = cobsCode l + 1 :=
  if_neg hb

theorem cobsBody_cons_zero (l : List Byte) : cobsBody (0x00 :: l) = cobsCode l :: cobsBody l := rfl

theorem cobsBody_cons_nonzero {b : Byte} (hb : b ≠ 0x00) (l : List Byte) : cobsBody (b :: l) = b :: cobsBody l := by
  rw [cobsBody, if_neg hb]

/-- The variables of `cobs_encode` after the input bytes `l` (R140). -/
def encVars (l : List Byte) : EncVars := l.foldl encStep encInit

theorem encFinish_encVars (l : List Byte) : encFinish (encVars l) = cobsEncode l := rfl

theorem encVars_append (l : List Byte) (b : Byte) : encVars (l ++ [b]) = encStep (encVars l) b := by
  simp [encVars]

theorem encStep_zero (v : EncVars) :
    encStep v 0x00 = { out := v.out.set v.codeIdx v.code ++ [0x00], codeIdx := v.out.length, code := 1 } :=
  if_pos rfl

theorem encStep_nonzero (v : EncVars) {b : Byte} (hb : b ≠ 0x00) :
    encStep v b = { v with out := v.out ++ [b], code := v.code + 1 } := if_neg hb

/-- The code index points at a byte already written. -/
theorem encStep_codeIdx_lt {v : EncVars} (b : Byte) (h : v.codeIdx < v.out.length) :
    (encStep v b).codeIdx < (encStep v b).out.length := by
  by_cases hb : b = 0x00
  · rw [hb, encStep_zero]
    simp
  · simpa [encStep_nonzero v hb] using Nat.lt_succ_of_lt h

theorem encVars_codeIdx_lt (l : List Byte) : (encVars l).codeIdx < (encVars l).out.length :=
  List.foldlRecOn l encStep (motive := fun v => v.codeIdx < v.out.length) (by decide)
    fun _ hv b _ => encStep_codeIdx_lt b hv

/-- From any variables of `cobs_encode`, the bytes `l` to come finish the open code byte and add their body. -/
theorem encFinish_foldl (l : List Byte) {v : EncVars} (h : v.codeIdx < v.out.length) :
    encFinish (l.foldl encStep v) = v.out.set v.codeIdx (v.code + (cobsCode l - 1)) ++ (cobsBody l ++ [0x00]) := by
  induction l generalizing v with
  | nil => simp [encFinish, cobsCode, cobsBody]
  | cons b l ih =>
    rw [List.foldl_cons, ih (encStep_codeIdx_lt b h)]
    by_cases hb : b = 0x00
    · rw [hb, encStep_zero, cobsBody_cons_zero, cobsCode_cons_zero, sub_self]
      simp [List.set_append_right]
    · rw [encStep_nonzero v hb, cobsCode_cons_nonzero hb, cobsBody_cons_nonzero hb, List.set_append_left _ _ h]
      simp [add_assoc]

theorem cobsEncode_eq (l : List Byte) : cobsEncode l = cobsCode l :: (cobsBody l ++ [0x00]) := by
  rw [cobsEncode, encFinish_foldl l (by decide)]
  simp [encInit]

@[simp] theorem cobsBody_length (l : List Byte) : (cobsBody l).length = l.length := by
  induction l with
  | nil => rfl
  | cons b l ih => simp [cobsBody, ih]

@[simp] theorem cobsEncode_length (l : List Byte) : (cobsEncode l).length = l.length + 2 := by
  simp [cobsEncode_eq]

theorem cobsCode_bounds {l : List Byte} (h : l.length ≤ 254) :
    1 ≤ (cobsCode l).toNat ∧ (cobsCode l).toNat ≤ l.length + 1 := by
  induction l with
  | nil => decide
  | cons b l ih =>
    rw [List.length_cons] at h ⊢
    have hl := ih (by omega)
    unfold cobsCode
    split
    · exact ⟨le_rfl, by simp⟩
    · rw [BitVec.toNat_add_of_lt (by simp; omega)]
      simp
      omega

theorem cobsCode_ne_zero {l : List Byte} (h : l.length ≤ 254) : cobsCode l ≠ 0x00 := by
  intro h0
  have hl := (cobsCode_bounds h).1
  simp [h0] at hl

theorem cobsBody_ne_zero {l : List Byte} (h : l.length ≤ 254) : ∀ b ∈ cobsBody l, b ≠ 0x00 := by
  induction l with
  | nil => simp [cobsBody]
  | cons b l ih =>
    rw [List.length_cons] at h
    rw [cobsBody, List.forall_mem_cons]
    refine ⟨?_, ih (by omega)⟩
    split
    · exact cobsCode_ne_zero (by omega)
    · assumption

/-- Settles O26: the code byte and the body hold no zero, and the terminating zero follows them. -/
theorem cobsEncodingHasOneZero : Obligations.CobsEncodingHasOneZero := by
  intro bytes hlen
  refine ⟨cobsEncode_length bytes, cobsCode bytes :: cobsBody bytes, cobsEncode_eq bytes, ?_⟩
  rw [List.forall_mem_cons]
  exact ⟨cobsCode_ne_zero (by omega), cobsBody_ne_zero (by omega)⟩

/-! ### One pass of the decoder (R143) -/

theorem decStep_end_ok {v : DecVars} (hcnt : v.cnt = 0) : decStep 0x00 v = .done ⟨.ok, v.out, v.i + 1⟩ := by
  rw [decStep, if_pos rfl, if_pos hcnt]

theorem decStep_code {b : Byte} {v : DecVars} (hb : b ≠ 0x00) (hout : v.out.length ≠ 253) (hcnt : v.cnt = 0) :
    decStep b v = .again { i := v.i + 1, cnt := b - 1, out := v.out ++ [0x00] } := by
  rw [decStep, if_neg hb, Config.cobsMaxIn, if_neg hout, if_pos hcnt]

theorem decStep_data {b : Byte} {v : DecVars} (hb : b ≠ 0x00) (hout : v.out.length ≠ 253) (hcnt : v.cnt ≠ 0) :
    decStep b v = .again { i := v.i + 1, cnt := v.cnt - 1, out := v.out ++ [b] } := by
  rw [decStep, if_neg hb, Config.cobsMaxIn, if_neg hout, if_neg hcnt]

/-- A pass that goes on has met a code byte or a data byte, and there was room. -/
theorem of_decStep_again {b : Byte} {v v' : DecVars} (h : decStep b v = .again v') :
    b ≠ 0x00 ∧ v.out.length ≠ 253 ∧
    ((v.cnt = 0 ∧ v' = { i := v.i + 1, cnt := b - 1, out := v.out ++ [0x00] }) ∨
      (v.cnt ≠ 0 ∧ v' = { i := v.i + 1, cnt := v.cnt - 1, out := v.out ++ [b] })) := by
  unfold decStep at h
  split at h
  · split at h <;> cases h
  · split at h
    · cases h
    · split at h <;> cases h
      · exact ⟨‹_›, ‹_›, .inl ⟨‹_›, rfl⟩⟩
      · exact ⟨‹_›, ‹_›, .inr ⟨‹_›, rfl⟩⟩

theorem decStep_again_out_length {b : Byte} {v v' : DecVars} (h : decStep b v = .again v') :
    v'.out.length = v.out.length + 1 := by
  obtain ⟨-, -, ⟨-, rfl⟩ | ⟨-, rfl⟩⟩ := of_decStep_again h <;> exact List.length_append

/-- A pass that ends has met a zero, or there was no room. -/
theorem of_decStep_done {b : Byte} {v : DecVars} {d : Decoding} (h : decStep b v = .done d) :
    (b = 0x00 ∧ ((v.cnt = 0 ∧ d = ⟨.ok, v.out, v.i + 1⟩) ∨ (v.cnt ≠ 0 ∧ d = ⟨.eCobsTrunc, v.out, v.i + 1⟩))) ∨
    (b ≠ 0x00 ∧ v.out.length = 253 ∧ d = ⟨.eCobsOvf, v.out, 0⟩) := by
  unfold decStep at h
  split at h
  · split at h <;> cases h
    · exact .inl ⟨‹_›, .inl ⟨‹_›, rfl⟩⟩
    · exact .inl ⟨‹_›, .inr ⟨‹_›, rfl⟩⟩
  · split at h
    · cases h
      exact .inr ⟨‹_›, ‹_›, rfl⟩
    · split at h <;> cases h

theorem decLoop_again {F : Nat → Byte} {n : Nat} {v v' : DecVars} (h : decStep (F v.i) v = .again v') :
    decLoop F (n + 1) v = decLoop F n v' := by
  simp only [decLoop, h]

theorem decLoop_done {F : Nat → Byte} {n : Nat} {v : DecVars} {d : Decoding} (h : decStep (F v.i) v = .done d) :
    decLoop F (n + 1) v = d := by
  simp only [decLoop, h]

theorem cobsDecode_zero {F : Nat → Byte} (h : F 0 = 0x00) : cobsDecode F = ⟨.eCobsEmpty, [], 0⟩ := if_pos h

theorem cobsDecode_nonzero {F : Nat → Byte} (h : F 0 ≠ 0x00) :
    cobsDecode F = decLoop F Config.bufferSize (decInit (F 0)) := if_neg h

/-! ### Bytes of a frame -/

/-- F[i .. i+n-1], in index order. -/
def frameBytes (F : Nat → Byte) (i n : Nat) : List Byte := (List.range' i n).map F

theorem range_map (F : Nat → Byte) (n : Nat) : (List.range n).map F = frameBytes F 0 n := by
  rw [frameBytes, List.range_eq_range']

theorem frameBytes_succ (F : Nat → Byte) (i n : Nat) : frameBytes F i (n + 1) = F i :: frameBytes F (i + 1) n := rfl

theorem frameBytes_succ_last (F : Nat → Byte) (i n : Nat) :
    frameBytes F i (n + 1) = frameBytes F i n ++ [F (i + n)] := by
  simp [frameBytes, List.range'_concat]

/-! ### The decoder on an encoding (R145) -/

/-- From the code byte of `l` on, over the body of `l` and a zero, the loop puts out `l`. -/
theorem decLoop_cobsBody {F : Nat → Byte} {l : List Byte} {n : Nat} {v : DecVars}
    (hframe : frameBytes F v.i (l.length + 1) = cobsBody l ++ [0x00]) (hcnt : v.cnt = cobsCode l - 1)
    (hroom : v.out.length + l.length ≤ 253) :
    decLoop F (n + l.length + 1) v = ⟨.ok, v.out ++ l, v.i + l.length + 1⟩ := by
  induction l generalizing v with
  | nil =>
    have hzero : F v.i = 0x00 := List.singleton_inj.1 hframe
    rw [decLoop_done (by rw [hzero]; exact decStep_end_ok hcnt), List.append_nil]
    rfl
  | cons b l ih =>
    rw [List.length_cons] at hroom hframe ⊢
    rw [frameBytes_succ] at hframe
    have hout : v.out.length ≠ 253 := by omega
    have hcode : cobsCode l ≠ 0x00 := cobsCode_ne_zero (by omega)
    by_cases hb : b = 0x00
    · rw [hb, cobsBody_cons_zero] at hframe
      obtain ⟨hbyte, hframe⟩ := List.cons.inj hframe
      have hcnt : v.cnt = 0 := by rw [hcnt, hb, cobsCode_cons_zero, sub_self]
      rw [decLoop_again (decStep_code (hbyte ▸ hcode) hout hcnt), ← Nat.add_assoc,
        ih hframe (by rw [hbyte]) (by simp; omega)]
      simp [hb, add_assoc, add_comm]
    · rw [cobsBody_cons_nonzero hb] at hframe
      obtain ⟨hbyte, hframe⟩ := List.cons.inj hframe
      have hcnt : v.cnt = cobsCode l := by rw [hcnt, cobsCode_cons_nonzero hb, add_sub_cancel_right]
      rw [decLoop_again (decStep_data (hbyte ▸ hb) hout (hcnt ▸ hcode)), ← Nat.add_assoc,
        ih hframe (by rw [hcnt]) (by simp; omega)]
      simp [add_assoc, add_comm, hbyte]

theorem cobsDecode_cobsEncode {F : Nat → Byte} {bytes : List Byte} (hlen : bytes.length ≤ 253)
    (hframe : frameBytes F 0 (bytes.length + 2) = cobsEncode bytes) :
    cobsDecode F = ⟨.ok, bytes, bytes.length + 2⟩ := by
  rw [frameBytes_succ, cobsEncode_eq] at hframe
  obtain ⟨hcode, hframe⟩ := List.cons.inj hframe
  obtain ⟨n, hn⟩ : ∃ n, Config.bufferSize = n + bytes.length + 1 :=
    ⟨255 - bytes.length, by unfold Config.bufferSize; omega⟩
  rw [cobsDecode_nonzero (hcode ▸ cobsCode_ne_zero (by omega)), hn,
    decLoop_cobsBody hframe (by rw [decInit, hcode]) (by simpa [decInit] using hlen)]
  simp only [decInit, List.nil_append, Decoding.mk.injEq, true_and]
  omega

/-- Settles O30: the loop puts out the input, by induction on it, from its code byte on. -/
theorem cobsDecodeInvertsEncode : Obligations.CobsDecodeInvertsEncode := by
  intro bytes F hlen hF
  refine cobsDecode_cobsEncode hlen (List.ext_getElem (by simp [frameBytes]) fun k hk hk' => ?_)
  simpa [frameBytes] using hF k hk'

/-! ### The decoder on any frame (R143) -/

/-- The encoder and the decoder in step: with the count to go added to its open code byte, the encoder's output
for the bytes out is the frame up to the read index. -/
def DecVars.inStep (F : Nat → Byte) (v : DecVars) : Prop :=
  (encVars v.out).out.set (encVars v.out).codeIdx ((encVars v.out).code + v.cnt) = frameBytes F 0 v.i

/-- What holds of the variables of `cobs_decode` at each pass of its loop over the frame `F`. -/
structure DecVars.loopOk (F : Nat → Byte) (v : DecVars) : Prop where
  index : v.i = v.out.length + 1
  room : v.out.length ≤ 253
  nonzero : ∀ i, 1 ≤ i → i ≤ v.out.length → F i ≠ 0x00
  bytes : ∀ k, (h : k < v.out.length) → v.out[k] = F (k + 1) ∨ v.out[k] = 0x00
  inStep : v.inStep F

theorem decInit_loopOk (F : Nat → Byte) : (decInit (F 0)).loopOk F where
  index := rfl
  room := by simp [decInit]
  nonzero i h1 h2 := absurd (h1.trans h2) (by simp [decInit])
  bytes k h := absurd h (by simp [decInit])
  inStep := by simp [DecVars.inStep, encVars, encInit, decInit, frameBytes]

/-- A code byte: the encoder closes its code byte at the zero put out, and opens the next. -/
theorem inStep_code {F : Nat → Byte} {v : DecVars} (h : v.inStep F) (hcnt : v.cnt = 0) :
    DecVars.inStep F { i := v.i + 1, cnt := F v.i - 1, out := v.out ++ [0x00] } := by
  simp only [DecVars.inStep, hcnt, add_zero] at h ⊢
  rw [encVars_append, encStep_zero, frameBytes_succ_last, ← h]
  simp [List.set_append_right]

/-- A data byte: the encoder counts it, and the count to go is one less. -/
theorem inStep_data {F : Nat → Byte} {v : DecVars} (h : v.inStep F) (hbyte : F v.i ≠ 0x00) :
    DecVars.inStep F { i := v.i + 1, cnt := v.cnt - 1, out := v.out ++ [F v.i] } := by
  have hcount : (encVars v.out).code + 1 + (v.cnt - 1) = (encVars v.out).code + v.cnt := by ring
  simp only [DecVars.inStep] at h ⊢
  rw [encVars_append, encStep_nonzero _ hbyte, frameBytes_succ_last, ← h,
    List.set_append_left _ _ (encVars_codeIdx_lt v.out), hcount, Nat.zero_add]

/-- With no count to go and a zero next, the frame is what the encoder finishes with. -/
theorem inStep_end {F : Nat → Byte} {v : DecVars} (h : v.inStep F) (hcnt : v.cnt = 0) (hbyte : F v.i = 0x00) :
    frameBytes F 0 (v.i + 1) = cobsEncode v.out := by
  simp only [DecVars.inStep, hcnt, add_zero] at h
  rw [frameBytes_succ_last, ← h, Nat.zero_add, hbyte, ← encFinish_encVars, encFinish]

/-- With one more byte out, the frame's or a 0, only the encoder is left to bring in step. -/
theorem DecVars.loopOk.push {F : Nat → Byte} {v : DecVars} (h : v.loopOk F) {b cnt : Byte} (hbyte : F v.i ≠ 0x00)
    (hout : v.out.length ≠ 253) (hb : b = F v.i ∨ b = 0x00)
    (hstep : DecVars.inStep F { i := v.i + 1, cnt := cnt, out := v.out ++ [b] }) :
    DecVars.loopOk F { i := v.i + 1, cnt := cnt, out := v.out ++ [b] } where
  index := by simp [h.index]
  room := by
    have := h.room
    simp
    omega
  nonzero i h1 h2 := by
    simp only [List.length_append, List.length_singleton] at h2
    obtain hlt | rfl : i ≤ v.out.length ∨ i = v.i := by rw [h.index]; omega
    · exact h.nonzero i h1 hlt
    · exact hbyte
  bytes k hk := by
    rw [List.getElem_append]
    split
    · exact h.bytes k ‹_›
    · obtain rfl : k = v.out.length := by simp at hk; omega
      simpa [h.index] using hb
  inStep := hstep

theorem decStep_again_loopOk {F : Nat → Byte} {v v' : DecVars} (h : v.loopOk F)
    (hstep : decStep (F v.i) v = .again v') : v'.loopOk F := by
  obtain ⟨hbyte, hout, ⟨hcnt, rfl⟩ | ⟨-, rfl⟩⟩ := of_decStep_again hstep
  · exact h.push hbyte hout (.inr rfl) (inStep_code h.inStep hcnt)
  · exact h.push hbyte hout (.inl rfl) (inStep_data h.inStep hbyte)

/-- What holds of the outcome of the loop of `cobs_decode` over the frame `F`. -/
structure Decoding.outcomeOk (F : Nat → Byte) (d : Decoding) : Prop where
  outcome :
    (d.code = .eCobsOvf ∧ d.out.length = 253 ∧ d.flen = 0 ∧ F 254 ≠ 0x00) ∨
    ((d.code = .ok ∨ d.code = .eCobsTrunc) ∧ d.flen = d.out.length + 2 ∧ F (d.out.length + 1) = 0x00 ∧
      (d.code = .ok → frameBytes F 0 d.flen = cobsEncode d.out))
  room : d.out.length ≤ 253
  nonzero : ∀ i, 1 ≤ i → i ≤ d.out.length → F i ≠ 0x00
  bytes : ∀ k, (h : k < d.out.length) → d.out[k] = F (k + 1) ∨ d.out[k] = 0x00

theorem decStep_done_outcomeOk {F : Nat → Byte} {v : DecVars} {d : Decoding} (h : v.loopOk F)
    (hstep : decStep (F v.i) v = .done d) : d.outcomeOk F := by
  obtain ⟨hbyte, ⟨hcnt, rfl⟩ | ⟨hcnt, rfl⟩⟩ | ⟨hbyte, hout, rfl⟩ := of_decStep_done hstep
  · refine ⟨.inr ⟨.inl rfl, ?_, ?_, fun _ => inStep_end h.inStep hcnt hbyte⟩, h.room, h.nonzero, h.bytes⟩
    · simp [h.index]
    · rwa [h.index] at hbyte
  · refine ⟨.inr ⟨.inr rfl, ?_, ?_, nofun⟩, h.room, h.nonzero, h.bytes⟩
    · simp [h.index]
    · rwa [h.index] at hbyte
  · rw [h.index, hout] at hbyte
    exact ⟨.inl ⟨rfl, hout, rfl, hbyte⟩, h.room, h.nonzero, h.bytes⟩

/-- Each pass that goes on puts out one byte, and at 253 bytes the loop ends: `n` passes are enough. -/
theorem decLoop_outcomeOk {F : Nat → Byte} {n : Nat} {v : DecVars} (h : v.loopOk F) (hn : 254 ≤ v.out.length + n) :
    (decLoop F n v).outcomeOk F := by
  induction n generalizing v with
  | zero => exact absurd h.room (by omega)
  | succ n ih =>
    cases hstep : decStep (F v.i) v with
    | done d =>
      rw [decLoop_done hstep]
      exact decStep_done_outcomeOk h hstep
    | again v' =>
      rw [decLoop_again hstep]
      have hout := decStep_again_out_length hstep
      exact ih (decStep_again_loopOk h hstep) (by omega)

theorem cobsDecode_outcomeOk {F : Nat → Byte} (h : F 0 ≠ 0x00) : (cobsDecode F).outcomeOk F := by
  rw [cobsDecode_nonzero h]
  exact decLoop_outcomeOk (decInit_loopOk F) (by unfold Config.bufferSize; omega)

theorem cobsDecode_bounds (F : Nat → Byte) : (cobsDecode F).out.length ≤ 253 ∧ (cobsDecode F).flen ≤ 255 := by
  by_cases h0 : F 0 = 0x00
  · simp [cobsDecode_zero h0]
  · have hd := cobsDecode_outcomeOk h0
    have hroom := hd.room
    obtain ⟨-, -, hflen, -⟩ | ⟨-, hflen, -⟩ := hd.outcome <;> omega

/-- Settles O28: the loop keeps the encoder in step with the decoder, so a frame that decodes is the encoding of
the bytes out; the converse is the decoder on an encoding. -/
theorem cobsDecodeOutcomes : Obligations.CobsDecodeOutcomes := by
  intro F d
  by_cases h0 : F 0 = 0x00
  · have hd : d = ⟨.eCobsEmpty, [], 0⟩ := cobsDecode_zero h0
    refine ⟨fun _ => hd, fun h => absurd h0 h, fun k hk => ?_⟩
    simp [hd] at hk
  · have hd : d.outcomeOk F := cobsDecode_outcomeOk h0
    refine ⟨fun h => absurd h h0, fun _ => ?_, hd.bytes⟩
    obtain ⟨hcode, hlen, hflen, hlast⟩ | ⟨hcode, hflen, hzero, hframe⟩ := hd.outcome
    · refine .inl ⟨hcode, hlen, hflen, fun i h1 h2 => ?_⟩
      obtain hlt | rfl : i ≤ d.out.length ∨ i = 254 := by omega
      · exact hd.nonzero i h1 hlt
      · exact hlast
    · refine .inr ⟨hcode, hd.room, hflen, hzero, hd.nonzero, ?_⟩
      rw [range_map]
      refine ⟨hframe, fun henc => ?_⟩
      rw [hflen] at henc
      exact congrArg Decoding.code (cobsDecode_cobsEncode hd.room henc)

/-- Settles O29: a frame that decodes begins with the code byte of the bytes out, which is at most 254. -/
theorem firstCodeByteFFNeverDecodes : Obligations.FirstCodeByteFFNeverDecodes := by
  intro F hF
  have hd : (cobsDecode F).outcomeOk F := cobsDecode_outcomeOk (by simp [hF])
  obtain ⟨hcode, -⟩ | ⟨hok | hcode, hflen, -, hframe⟩ := hd.outcome
  · exact .inr hcode
  · have hframe := hframe hok
    rw [hflen, frameBytes_succ, cobsEncode_eq, List.cons.injEq, hF] at hframe
    have hbound := (cobsCode_bounds (hd.room.trans (by decide))).2
    rw [← hframe.1] at hbound
    exact absurd (hbound.trans (Nat.succ_le_succ hd.room)) (by decide)
  · exact .inl hcode

end Sys2Proof.Machine
end

section
/-! SUPPORT. The runs of `cobs.enc` and `cobs.dec` on an idle block, one after the other, and what the two commands
leave alone in every state. -/

namespace Sys2Proof.Machine

/-! ### Spans of the buffers, and stores at a point of a command -/

@[simp] theorem rawSpan_length (s : State) (n : Nat) : (s.rawSpan n).length = n := rawFrom_length s 0 n

theorem rawFrom_succ_last (s : State) (i n : Nat) : s.rawFrom i (n + 1) = s.rawFrom i n ++ [s.rawAt (i + n)] := by
  induction n generalizing i with
  | zero => rfl
  | succ n ih =>
    rw [State.rawFrom, ih, Nat.add_right_comm]
    rfl

theorem frameFrom_eq_frameBytes (s : State) (i n : Nat) : s.frameFrom i n = frameBytes s.frameAt i n := by
  induction n generalizing i with
  | zero => rfl
  | succ n ih => rw [State.frameFrom, ih, frameBytes_succ]

theorem at_frameAt (s : State) (c : Byte) (p : Progress) : (s.at c p).frameAt = s.frameAt := rfl

theorem at_setRaw (s : State) (c : Byte) (p : Progress) (i : Nat) (b : Byte) :
    (s.at c p).setRaw i b = (s.setRaw i b).at c p := by
  unfold State.setRaw State.setBufferByte
  split
  · split <;> rfl
  · rfl

theorem at_setFrame (s : State) (c : Byte) (p : Progress) (i : Nat) (b : Byte) :
    (s.at c p).setFrame i b = (s.setFrame i b).at c p := by
  unfold State.setFrame State.setBufferByte
  split
  · split <;> rfl
  · rfl

theorem at_storeRaw (s : State) (c : Byte) (p : Progress) (i : Nat) (l : List Byte) :
    (s.at c p).storeRaw i l = (s.storeRaw i l).at c p := by
  induction l generalizing s i with
  | nil => rfl
  | cons b l ih => rw [State.storeRaw, at_setRaw, ih, State.storeRaw]

theorem at_storeFrame (s : State) (c : Byte) (p : Progress) (i : Nat) (l : List Byte) :
    (s.at c p).storeFrame i l = (s.storeFrame i l).at c p := by
  induction l generalizing s i with
  | nil => rfl
  | cons b l ih => rw [State.storeFrame, at_setFrame, ih, State.storeFrame]

/-! ### `cobs.enc` (R141) -/

/-- The block as `cobs.enc` leaves it: the encoding in FRAME, and its length in FLEN. -/
def State.encoded (s : State) : State :=
  { s.storeFrame 0 (cobsEncode (s.rawSpan s.lenNat)) with result := .ok, flen := BitVec.ofNat 8 (s.lenNat + 2) }

theorem cobsEncode_rawSpan_length (s : State) (n : Nat) : (cobsEncode (s.rawSpan n)).length = n + 2 := by
  rw [cobsEncode_length, rawSpan_length]

theorem encoded_spec (s : State) :
    s.encoded = { s with result := .ok, flen := s.encoded.flen, mem := s.encoded.mem } := by
  unfold State.encoded
  rw [storeFrame_spec]

theorem encoded_flen {s : State} (hlen : s.lenNat ≤ 253) : s.encoded.flen.toNat = s.lenNat + 2 :=
  (BitVec.toNat_ofNat _ _).trans (Nat.mod_eq_of_lt (by omega))

theorem encoded_frame {s : State} (hlen : s.lenNat ≤ 253) :
    frameBytes s.encoded.frameAt 0 (s.lenNat + 2) = cobsEncode (s.rawSpan s.lenNat) := by
  have hread := frameFrom_storeFrame s 0 (cobsEncode (s.rawSpan s.lenNat))
  rw [cobsEncode_rawSpan_length, frameFrom_eq_frameBytes] at hread
  exact hread (by unfold Config.bufferSize; omega)

theorem encoded_bufferByte_other (s : State) {off : Nat} (h : ¬(0x200 ≤ off ∧ off < 0x200 + (s.lenNat + 2))) :
    s.encoded.bufferByte off = s.bufferByte off := by
  refine bufferByte_storeFrame_other s 0 _ fun k hk => ?_
  rw [cobsEncode_rawSpan_length] at hk
  unfold frameBase
  omega

/-- `n` passes of the loop of `cobs.enc` take the encoder over RAW[0..n-1]. -/
theorem leads_encLoop (c : Byte) (s : State) {n : Nat} (hn : n ≤ s.lenNat) :
    Leads cobsEncBody c n (.encLoop 0 encInit) s (.encLoop n (encVars (s.rawSpan n))) s := by
  induction n with
  | zero => exact .refl _ _ _ _
  | succ n ih =>
    have hpass : Leads cobsEncBody c 1 (.encLoop n (encVars (s.rawSpan n))) s
        (.encLoop (n + 1) (encVars (s.rawSpan (n + 1)))) s := by
      rw [State.rawSpan, State.rawSpan, rawFrom_succ_last, encVars_append, Nat.zero_add]
      exact leads_one rfl (if_pos hn)
    have hrun := (ih (by omega)).trans hpass
    rwa [Nat.add_comm 1 n] at hrun

/-- With LEN bytes read the encoding is stored, and the command is done. -/
theorem ends_encLoop (c : Byte) {s : State} (hseq : s.seq = .idle) :
    Ends cobsEncBody c 1 (.encLoop s.lenNat (encVars (s.rawSpan s.lenNat))) s s.encoded := by
  have hdone := at_complete
    (s := { s.storeFrame 0 (cobsEncode (s.rawSpan s.lenNat)) with flen := BitVec.ofNat 8 (s.lenNat + 2) })
    c (.encLoop s.lenNat (encVars (s.rawSpan s.lenNat))) .ok ((storeFrame_seq _ _ _).trans hseq)
  rw [show s.encoded = _ from hdone.symm]
  refine ends_one ((if_neg (Nat.lt_irrefl s.lenNat)).trans ?_)
  rw [encFinish_encVars, cobsEncode_rawSpan_length, at_storeFrame]
  rfl

theorem exec_cobsEnc {s : State} (hs : s.ready) (hlen : s.lenNat ≤ 253) : exec .cobsEnc s = .next s.encoded := by
  have hfirst : Leads cobsEncBody (encode .cobsEnc) 1 .first s (.encLoop 0 encInit) s :=
    leads_one rfl (if_neg (Nat.not_lt.2 hlen))
  exact exec_of_ends hs ((hfirst.trans (leads_encLoop _ s le_rfl)).ends (ends_encLoop _ hs.1))
    (by unfold Config.burst; omega)

theorem exec_cobsEnc_tooLong {s : State} (hs : s.ready) (hlen : 253 < s.lenNat) :
    exec .cobsEnc s = .next { s with result := .eLen } :=
  exec_of_ends hs (ends_at hs.1 (if_pos hlen)) (by decide)

/-- Settles O25: LEN passes of the encoder over RAW, then its output stored in FRAME. -/
theorem cobsEncCompletes : Obligations.CobsEncCompletes :=
  ⟨rfl, fun s hs => ⟨exec_cobsEnc_tooLong hs, fun hlen => ⟨s.encoded, exec_cobsEnc hs hlen, encoded_spec s,
    encoded_flen hlen, (frameFrom_eq_frameBytes _ _ _).trans (encoded_frame hlen),
    fun _ => encoded_bufferByte_other s⟩⟩⟩

/-! ### `cobs.dec` (R144) -/

/-- The block as `cobs.dec` leaves it with what `cobs_decode` returned: the bytes out in RAW, their number in LEN. -/
def State.decoded (s : State) (d : Decoding) : State :=
  { s.storeRaw 0 d.out with
    result := d.code, len := BitVec.ofNat 8 d.out.length, flen := BitVec.ofNat 8 d.flen }

theorem decoded_spec (s : State) (d : Decoding) :
    s.decoded d =
      { s with result := d.code, len := (s.decoded d).len, flen := (s.decoded d).flen, mem := (s.decoded d).mem } := by
  unfold State.decoded
  rw [storeRaw_spec]

theorem decoded_len (s : State) {d : Decoding} (hout : d.out.length ≤ 253) :
    (s.decoded d).len.toNat = d.out.length :=
  (BitVec.toNat_ofNat _ _).trans (Nat.mod_eq_of_lt (by omega))

theorem decoded_flen (s : State) {d : Decoding} (hflen : d.flen ≤ 255) : (s.decoded d).flen.toNat = d.flen :=
  (BitVec.toNat_ofNat _ _).trans (Nat.mod_eq_of_lt (by omega))

theorem decoded_raw (s : State) {d : Decoding} (hout : d.out.length ≤ 253) :
    (s.decoded d).rawSpan d.out.length = d.out := by
  have hsame : (s.decoded d).rawFrom 0 d.out.length = (s.storeRaw 0 d.out).rawFrom 0 d.out.length :=
    rawFrom_congr 0 _ fun _ _ => rfl
  exact hsame.trans (rawFrom_storeRaw s 0 d.out (by unfold Config.bufferSize; omega))

theorem decoded_bufferByte_other (s : State) (d : Decoding) {off : Nat}
    (h : ¬(0x100 ≤ off ∧ off < 0x100 + d.out.length)) : (s.decoded d).bufferByte off = s.bufferByte off := by
  refine bufferByte_storeRaw_other s 0 _ fun k hk => ?_
  unfold rawBase
  omega

/-- The last point of `cobs.dec`: what was decoded is stored, and the command is done. -/
theorem ends_storeDecoding {c : Byte} {p : Progress} {s : State} {d : Decoding} (hseq : s.seq = .idle)
    (hb : cobsDecBody p (s.at c p) = some (storeDecoding d (s.at c p))) :
    Ends cobsDecBody c 1 p s (s.decoded d) := by
  have hdone := at_complete
    (s := { s.storeRaw 0 d.out with len := BitVec.ofNat 8 d.out.length, flen := BitVec.ofNat 8 d.flen })
    c p d.code ((storeRaw_seq _ _ _).trans hseq)
  rw [show s.decoded d = _ from hdone.symm]
  refine ends_one (hb.trans ?_)
  rw [storeDecoding, at_storeRaw]
  rfl

/-- The loop of `cobs.dec` ends with what the loop of `cobs_decode` gives on FRAME, in as many passes at most. -/
theorem ends_decLoop (c : Byte) {s : State} (hseq : s.seq = .idle) {n : Nat} {v : DecVars} (h : v.loopOk s.frameAt)
    (hn : 254 ≤ v.out.length + n) :
    ∃ k ≤ n, Ends cobsDecBody c k (.decLoop v) s (s.decoded (decLoop s.frameAt n v)) := by
  induction n generalizing v with
  | zero => exact absurd h.room (by omega)
  | succ n ih =>
    cases hstep : decStep (s.frameAt v.i) v with
    | done d =>
      rw [decLoop_done hstep]
      refine ⟨1, by omega, ends_storeDecoding hseq ?_⟩
      rw [cobsDecBody, at_frameAt, hstep]
    | again v' =>
      rw [decLoop_again hstep]
      have hout := decStep_again_out_length hstep
      obtain ⟨k, hk, hends⟩ := ih (decStep_again_loopOk h hstep) (by omega)
      refine ⟨k + 1, by omega, Leads.ends (leads_one rfl ?_) hends⟩
      rw [cobsDecBody, at_frameAt, hstep]

theorem exec_cobsDec {s : State} (hs : s.ready) :
    exec .cobsDec s = .next (s.decoded (cobsDecode s.frameAt)) := by
  by_cases h0 : s.frameAt 0 = 0x00
  · rw [cobsDecode_zero h0]
    exact exec_of_ends hs (ends_storeDecoding hs.1 (if_pos h0)) (by decide)
  · rw [cobsDecode_nonzero h0]
    obtain ⟨k, hk, hends⟩ := ends_decLoop (encode .cobsDec) hs.1 (n := Config.bufferSize) (decInit_loopOk s.frameAt)
      (by unfold Config.bufferSize; omega)
    have hfirst : Leads cobsDecBody (encode .cobsDec) 1 .first s (.decLoop (decInit (s.frameAt 0))) s :=
      leads_one rfl (if_neg h0)
    exact exec_of_ends hs (hfirst.ends hends) (by unfold Config.bufferSize at hk; unfold Config.burst; omega)

/-- Settles O27: the passes of `cobs_decode` over FRAME, then what it returned stored. -/
theorem cobsDecCompletes : Obligations.CobsDecCompletes := by
  refine ⟨rfl, fun s hs => ?_⟩
  obtain ⟨hout, hflen⟩ := cobsDecode_bounds s.frameAt
  exact ⟨s.decoded (cobsDecode s.frameAt), exec_cobsDec hs, decoded_spec s _, decoded_len s hout,
    decoded_flen s hflen, decoded_raw s hout, fun _ => decoded_bufferByte_other s _⟩

/-! ### `cobs.enc`, then `cobs.dec` (R145) -/

theorem encoded_ready {s : State} (hs : s.ready) : s.encoded.ready := by
  rw [encoded_spec]
  exact hs

theorem cobsDecode_encoded {s : State} (hlen : s.lenNat ≤ 253) :
    cobsDecode s.encoded.frameAt = ⟨.ok, s.rawSpan s.lenNat, s.lenNat + 2⟩ := by
  have hinverse := cobsDecode_cobsEncode (F := s.encoded.frameAt) (bytes := s.rawSpan s.lenNat)
  rw [rawSpan_length] at hinverse
  exact hinverse hlen (encoded_frame hlen)

/-- Settles O31: FRAME begins with the encoding of RAW[0..LEN-1], which the decoder inverts. -/
theorem cobsEncThenDecRestoresRaw : Obligations.CobsEncThenDecRestoresRaw := by
  intro s hs hlen
  have hdec := exec_cobsDec (encoded_ready hs)
  rw [cobsDecode_encoded hlen] at hdec
  have hout : (s.rawSpan s.lenNat).length ≤ 253 := by rwa [rawSpan_length]
  have hulen := decoded_len s.encoded (d := ⟨.ok, s.rawSpan s.lenNat, s.lenNat + 2⟩) hout
  have huraw := decoded_raw s.encoded (d := ⟨.ok, s.rawSpan s.lenNat, s.lenNat + 2⟩) hout
  rw [rawSpan_length] at hulen huraw
  exact ⟨_, _, exec_cobsEnc hs hlen, rfl, hdec, rfl, BitVec.eq_of_toNat_eq hulen,
    decoded_flen s.encoded (Nat.add_le_add_right hlen 2), huraw⟩

/-! ### What the commands leave alone (R141, R144) -/

/-- The bytes of a buffer where no point of a command writes are as before at the command's end. -/
theorem exec_sameBytes {q : Nat → Prop} {i : Instr}
    (hbody : ∀ p s t nx, bodyOf i p s = some (t, nx) → sameBytes q s t) {s t : State} (h : exec i s = .next t) :
    sameBytes q s t := by
  have of_mem : ∀ {u v : State}, v.mem = u.mem → v.epoch = u.epoch → sameBytes q u v := by
    intro u v hmem hepoch off _
    rw [State.bufferByte, hmem, hepoch, State.bufferByte]
  have htrans : ∀ a b c : State, sameBytes q a b → sameBytes q b c → sameBytes q a c :=
    fun _ _ _ h h' off hq => (h' off hq).trans (h off hq)
  rw [of_exec_next h]
  exact htrans _ _ _ (of_mem (begin_mem s _) (begin_epoch s _)) (runBody_rel (sameBytes q) _ (fun _ _ _ => rfl) htrans
    (fun _ _ _ _ => rfl) (fun _ _ _ _ => rfl) (fun u => of_mem (passPoint_mem u) (passPoint_epoch u))
    (fun u => of_mem (waitPoint_mem u) (waitPoint_epoch u)) hbody _ _)

/-- Bytes stored in RAW, of whatever number, leave every byte outside RAW alone. -/
theorem storeRaw_sameBytes (s : State) (i : Nat) (l : List Byte) :
    sameBytes (fun off => ¬(0x100 ≤ off ∧ off ≤ 0x1FF)) s (s.storeRaw i l) := by
  intro off hoff
  induction l generalizing s i with
  | nil => rfl
  | cons b l ih =>
    rw [State.storeRaw, ih]
    unfold State.setRaw
    split
    · exact bufferByte_setBufferByte_other _ _ (by unfold rawBase; unfold Config.bufferSize at *; omega)
    · rfl

/-- Bytes stored in FRAME, of whatever number, leave every byte outside FRAME alone. -/
theorem storeFrame_sameBytes (s : State) (i : Nat) (l : List Byte) :
    sameBytes (fun off => ¬(0x200 ≤ off ∧ off ≤ 0x2FF)) s (s.storeFrame i l) := by
  intro off hoff
  induction l generalizing s i with
  | nil => rfl
  | cons b l ih =>
    rw [State.storeFrame, ih]
    unfold State.setFrame
    split
    · exact bufferByte_setBufferByte_other _ _ (by unfold frameBase; unfold Config.bufferSize at *; omega)
    · rfl

/-- A point of `cobs.enc` writes bytes of FRAME at most. -/
theorem cobsEncBody_sameBytes {p : Progress} {s t : State} {nx : Next} (h : cobsEncBody p s = some (t, nx)) :
    sameBytes (fun off => ¬(0x200 ≤ off ∧ off ≤ 0x2FF)) s t := by
  unfold cobsEncBody at h
  split at h
  · split at h <;> cases h <;> exact fun _ _ => rfl
  · split at h <;> cases h
    · exact fun _ _ => rfl
    · exact storeFrame_sameBytes s _ _
  · cases h

/-- A point of `cobs.dec` writes bytes of RAW at most. -/
theorem cobsDecBody_sameBytes {p : Progress} {s t : State} {nx : Next} (h : cobsDecBody p s = some (t, nx)) :
    sameBytes (fun off => ¬(0x100 ≤ off ∧ off ≤ 0x1FF)) s t := by
  unfold cobsDecBody at h
  split at h
  · split at h <;> cases h
    · exact storeRaw_sameBytes s _ _
    · exact fun _ _ => rfl
  · split at h <;> cases h
    · exact fun _ _ => rfl
    · exact storeRaw_sameBytes s _ _
  · cases h

/-- From `s` to `t` only LEN, FLEN, the buffers, RESULT, the sequencer, the host's queue and the answers that the I2C
environment used up may have changed. -/
def onlyCobsRun (s t : State) : Prop :=
  t = { s with
    len := t.len, flen := t.flen, mem := t.mem
    result := t.result, seq := t.seq, host := t.host, i2cScript := t.i2cScript, draws := t.draws }

theorem onlyCobsRun.trans {s t u : State} (h : onlyCobsRun s t) (h' : onlyCobsRun t u) : onlyCobsRun s u := by
  unfold onlyCobsRun at *
  rw [h', h]

theorem onlyWrites_onlyCobsRun {i : Instr} (hi : i = .cobsEnc ∨ i = .cobsDec) {s t : State}
    (h : onlyWrites i s t) : onlyCobsRun s t := by
  unfold onlyCobsRun
  obtain rfl | rfl := hi <;> rw [onlyWrites] at h <;> rw [h]

theorem exec_onlyCobsRun {i : Instr} (hi : i = .cobsEnc ∨ i = .cobsDec) {s t : State}
    (h : exec i s = .next t) : onlyCobsRun s t :=
  exec_rel onlyCobsRun i (hrefl := fun _ => rfl) (htrans := fun _ _ _ => .trans) (hseq := fun _ _ => rfl)
    (hdone := fun _ _ => rfl) (hhost := fun _ _ => rfl) (hwait := fun _ _ _ => rfl)
    (hwrites := fun _ _ => onlyWrites_onlyCobsRun hi) h

theorem exec_cobsEnc_len {s t : State} (h : exec .cobsEnc s = .next t) : t.len = s.len :=
  exec_rel (fun s t => t.len = s.len) .cobsEnc (hrefl := fun _ => rfl) (htrans := fun _ _ _ h h' => h'.trans h)
    (hseq := fun _ _ => rfl) (hdone := fun _ _ => rfl) (hhost := fun _ _ => rfl) (hwait := fun _ _ _ => rfl)
    (hwrites := fun _ _ h => by rw [h]) h

/-- Settles O32: every point of the two commands writes its buffer, FLEN and, in `cobs.dec`, LEN only. -/
theorem cobsFrame : Obligations.CobsFrame := by
  intro i s t hi h
  have hlen : i = .cobsEnc → t.len = s.len := fun henc => exec_cobsEnc_len (henc ▸ h)
  have hbytes : sameBytes
      (fun off => if i = .cobsEnc then ¬(0x200 ≤ off ∧ off ≤ 0x2FF) else ¬(0x100 ≤ off ∧ off ≤ 0x1FF)) s t := by
    obtain rfl | rfl := hi
    · simpa using exec_sameBytes (i := .cobsEnc) (fun _ _ _ _ => cobsEncBody_sameBytes) h
    · simpa using exec_sameBytes (i := .cobsDec) (fun _ _ _ _ => cobsDecBody_sameBytes) h
  have hrun := exec_onlyCobsRun hi h
  refine ⟨?data, ?crc, ?i2cAddr, hlen, ?i2c, ?discovery, ?misuse, ?outside, hbytes, ?drive, ?trace⟩ <;> rw [hrun]
  case i2c => exact ⟨rfl, rfl, rfl, rfl⟩
  case discovery => exact ⟨rfl, rfl, rfl, rfl, rfl⟩
  case misuse => exact ⟨rfl, rfl⟩
  case outside => exact ⟨rfl, rfl, rfl, rfl⟩

end Sys2Proof.Machine
end

section
/-! SUPPORT. The release invariant of the I2C bus: what it asks of the point a command stands at, and that every point
of every command, every host action and so every step keeps it. -/

namespace Sys2Proof.Machine

/-! ### What the release invariant asks at a point (R163) -/

/-- No I2C phase is pending: the bus is in a transaction exactly while OPEN = 1. -/
def State.busSettled (s : State) : Prop :=
  s.i2cHeld = s.i2cOpen ∧ busView s.trace = some (if s.i2cOpen then .opened else .free)

/-- A transaction is open, and a byte or its stop is pending. -/
def State.busInTransaction (s : State) : Prop :=
  s.i2cHeld = true ∧ s.i2cOpen = true ∧ busView s.trace = some .opened

/-- The stop of a failure path is pending. -/
def State.busFailing (s : State) : Prop :=
  s.i2cHeld = true ∧ (busView s.trace = some .failed ∨ (busView s.trace = some .opened ∧ s.i2cOpen = true))

/-- What the release invariant asks of `t` where a command goes on to another point, or completes. -/
def Next.busOk (nx : Next) (t : State) : Prop :=
  match nx with
  | .goto (.i2cFail _) => t.busFailing
  | .goto .i2cAddr | .goto (.i2cSend _) | .goto (.i2cRecv _) | .goto .i2cStop => t.busInTransaction
  | _ => t.busSettled

theorem busOk_idle_iff {s : State} (hseq : s.seq = .idle) : s.busOk ↔ s.busSettled := by
  simp [State.busOk, State.busSettled, hseq]

theorem busOk_run_iff {s : State} {c : Byte} {p : Progress} (hseq : s.seq = .run c p) :
    s.busOk ↔ (Next.goto p).busOk s := by
  cases p <;> simp only [State.busOk, hseq] <;> rfl

/-- The invariant speaks of the sequencer, the lines, OPEN and the trace only. -/
theorem busOk_congr {s t : State} (hseq : t.seq = s.seq) (hheld : t.i2cHeld = s.i2cHeld)
    (hopen : t.i2cOpen = s.i2cOpen) (htrace : t.trace = s.trace) (hs : s.busOk) : t.busOk := by
  unfold State.busOk at *
  rwa [hseq, hheld, hopen, htrace]

theorem State.busInTransaction.settled {s : State} (hs : s.busInTransaction) : s.busSettled := by
  obtain ⟨hheld, hopen, hview⟩ := hs
  simp [State.busSettled, hheld, hopen, hview]

theorem State.busSettled.inTransaction {s : State} (hs : s.busSettled) (hopen : s.i2cOpen = true) :
    s.busInTransaction := by
  obtain ⟨hheld, hview⟩ := hs
  exact ⟨hheld.trans hopen, hopen, by simpa [hopen] using hview⟩

/-- In every state that meets the invariant no forbidden event has happened. -/
theorem State.busOk.busView_isSome {s : State} (hs : s.busOk) : (busView s.trace).isSome := by
  unfold State.busOk at hs
  split at hs
  · obtain ⟨-, hview | ⟨hview, -⟩⟩ := hs <;> simp [hview]
  all_goals simp [hs]

/-! ### Events on the I2C bus (R160, R163) -/

/-- A start is a repeated start exactly inside a transaction. -/
theorem busView_start {s : State} (hs : s.busSettled) (ok : Bool) :
    busView (.i2cStart s.i2cOpen ok :: s.trace) = some (if ok then .opened else .failed) := by
  obtain ⟨-, hview⟩ := hs
  cases hopen : s.i2cOpen <;> simp [busView, hview, hopen, busNext]

theorem busView_send {trace : List BusEvent} (h : busView trace = some .opened) (b : Byte) (ack : Bool) :
    busView (.i2cSend b ack :: trace) = some .opened := by
  simp [busView, h, busNext]

theorem busView_recv {trace : List BusEvent} (h : busView trace = some .opened) (b : Byte) (ack : Bool) :
    busView (.i2cRecv b ack :: trace) = some .opened := by
  simp [busView, h, busNext]

/-- A stop ends a transaction, or follows a failed start. -/
theorem busView_stop {trace : List BusEvent} (h : busView trace = some .opened ∨ busView trace = some .failed) :
    busView (.i2cStop :: trace) = some .free := by
  obtain h | h := h <;> simp [busView, h, busNext]

/-! ### The points of the I2C commands and of `sreset` (R164 to R171, R113) -/

section
variable {s t : State} {nx : Next}

theorem startPoint_busOk {dir : Bool} (hs : s.busSettled) (h : startPoint dir s = some (t, nx)) : nx.busOk t := by
  obtain ⟨_, _, ⟨rfl, rfl⟩ | ⟨rfl, rfl⟩⟩ := of_startPoint h
  · exact ⟨rfl, rfl, busView_start hs true⟩
  · exact ⟨rfl, .inl (busView_start hs false)⟩

/-- A byte sent leaves the transaction open: the command goes on in it, or to the stop of a failure path. -/
theorem sendPoint_busOk {b : Byte} {after : State → State × Next} (hs : s.busInTransaction)
    (hafter : ∀ u : State, u.busInTransaction → (after u).2.busOk (after u).1)
    (h : sendPoint b after s = some (t, nx)) : nx.busOk t := by
  obtain ⟨hheld, hopen, hview⟩ := hs
  obtain ⟨_, _, h | ⟨rfl, rfl⟩⟩ := of_sendPoint h
  · obtain ⟨rfl, rfl⟩ := Prod.mk.inj h
    exact hafter _ ⟨hheld, hopen, busView_send hview b true⟩
  · exact ⟨hheld, .inr ⟨busView_send hview b false, hopen⟩⟩

theorem addrPoint_busOk {dir : Bool} {after : State → State × Next} (hs : s.busInTransaction)
    (hafter : ∀ u : State, u.busInTransaction → (after u).2.busOk (after u).1)
    (h : addrPoint dir after s = some (t, nx)) : nx.busOk t := by
  obtain ⟨hheld, hopen, hview⟩ := hs
  obtain ⟨_, _, h | ⟨rfl, rfl⟩⟩ := of_addrPoint h
  · obtain ⟨rfl, rfl⟩ := Prod.mk.inj h
    exact hafter _ ⟨hheld, hopen, busView_send hview _ true⟩
  · exact ⟨hheld, .inr ⟨busView_send hview _ false, hopen⟩⟩

theorem i2cRecvPhase_busInTransaction {a : Bool} {b : Byte} (hs : s.busInTransaction)
    (h : s.i2cRecvPhase a = some (b, t)) : t.busInTransaction := by
  obtain ⟨hheld, hopen, hview⟩ := hs
  obtain ⟨_, _, rfl⟩ := of_i2cRecvPhase h
  exact ⟨hheld, hopen, busView_recv hview b a⟩

theorem i2cFailPoint_busOk {e : Result} (hs : s.busFailing) (h : i2cFailPoint e s = some (t, nx)) : nx.busOk t := by
  obtain ⟨-, hview⟩ := hs
  obtain ⟨_, _, rfl, rfl⟩ := of_i2cFailPoint h
  exact ⟨rfl, busView_stop (hview.symm.imp_left And.left)⟩

theorem i2cClosePoint_busOk (hs : s.busInTransaction) (h : i2cClosePoint s = some (t, nx)) : nx.busOk t := by
  obtain ⟨-, -, hview⟩ := hs
  obtain ⟨_, _, rfl, rfl⟩ := of_i2cClosePoint h
  exact ⟨rfl, busView_stop (.inl hview)⟩

theorem finish_busOk (hs : s.busInTransaction) : (finish s).2.busOk (finish s).1 := hs.settled

theorem writenNext_busOk (k : Nat) (hs : s.busInTransaction) : (writenNext k s).2.busOk (writenNext k s).1 := by
  unfold writenNext
  split <;> exact hs

/-- `sreset` stops an open transaction before it clears OPEN (R113). -/
theorem sresetBody_busOk {p : Progress} (hs : (Next.goto p).busOk s) (h : sresetBody p s = some (t, nx)) :
    nx.busOk t := by
  unfold sresetBody at h
  split at h
  · split at h
    case isTrue hopen => cases h; exact hs.inTransaction hopen
    case isFalse hopen =>
      cases h
      obtain ⟨hheld, hview⟩ := hs
      rw [Bool.not_eq_true] at hopen
      exact ⟨hheld.trans hopen, by simpa [hopen] using hview⟩
  · obtain ⟨s1, hstop, rfl, rfl⟩ := of_sresetBody_stop h
    obtain ⟨-, -, hview⟩ := hs
    obtain ⟨_, _, rfl⟩ := of_i2cStopPhase hstop
    exact ⟨rfl, busView_stop (.inl hview)⟩
  · cases h; exact hs
  · cases h

theorem i2cWriteBody_busOk {p : Progress} (hs : (Next.goto p).busOk s) (h : i2cWriteBody p s = some (t, nx)) :
    nx.busOk t := by
  unfold i2cWriteBody at h
  split at h
  · split at h
    case isTrue => cases h; exact hs
    case isFalse hclosed =>
      cases h
      obtain ⟨hopen, -⟩ : s.i2cOpen = true ∧ s.i2cDir = false := by simpa using hclosed
      exact hs.inTransaction hopen
  · exact sendPoint_busOk hs (fun _ => finish_busOk) h
  · exact i2cFailPoint_busOk hs h
  · cases h

theorem i2cReadBody_busOk {a : Bool} {p : Progress} (hs : (Next.goto p).busOk s)
    (h : i2cReadBody a p s = some (t, nx)) : nx.busOk t := by
  cases p
  case first =>
    simp only [i2cReadBody] at h
    split at h
    case isTrue => cases h; exact hs
    case isFalse hclosed =>
      cases h
      obtain ⟨hopen, -⟩ : s.i2cOpen = true ∧ s.i2cDir = true := by simpa using hclosed
      exact hs.inTransaction hopen
  case i2cRecv k =>
    obtain ⟨b, s1, hrecv, rfl, rfl⟩ := of_i2cReadBody_recv h
    exact (i2cRecvPhase_busInTransaction hs hrecv).settled
  all_goals cases h

theorem i2cStopBody_busOk {p : Progress} (hs : (Next.goto p).busOk s) (h : i2cStopBody p s = some (t, nx)) :
    nx.busOk t := by
  unfold i2cStopBody at h
  split at h
  · split at h
    case isTrue hopen => cases h; exact hs.inTransaction hopen
    case isFalse => cases h; exact hs
  · exact i2cClosePoint_busOk hs h
  · cases h

theorem i2cReadnBody_busOk {p : Progress} (hs : (Next.goto p).busOk s) (h : i2cReadnBody p s = some (t, nx)) :
    nx.busOk t := by
  unfold i2cReadnBody at h
  split at h
  · split at h <;> cases h <;> exact hs
  · exact startPoint_busOk hs h
  · exact addrPoint_busOk (after := fun u => (u, .goto (.i2cRecv 0))) hs (fun _ hu => hu) h
  · obtain ⟨b, s1, hrecv, rfl, rfl⟩ := of_i2cReadnBody_recv h
    have hs1 : s1.busInTransaction := i2cRecvPhase_busInTransaction hs hrecv
    rw [setRaw_spec]
    split <;> exact hs1
  · exact i2cClosePoint_busOk hs h
  · exact i2cFailPoint_busOk hs h
  · cases h

theorem i2cWritenBody_busOk {p : Progress} (hs : (Next.goto p).busOk s) (h : i2cWritenBody p s = some (t, nx)) :
    nx.busOk t := by
  unfold i2cWritenBody at h
  split at h
  · cases h; exact hs
  · exact startPoint_busOk hs h
  · exact addrPoint_busOk hs (fun _ => writenNext_busOk 0) h
  · exact sendPoint_busOk hs (fun _ => writenNext_busOk _) h
  · exact i2cClosePoint_busOk hs h
  · exact i2cFailPoint_busOk hs h
  · cases h

end

/-! ### The points of the other commands -/

/-- The command uses neither bus. -/
def usesNoBus (i : Instr) : Bool :=
  match i with
  | .nop | .crcClr | .crcByte | .crcBuf | .cobsEnc | .cobsDec => true
  | _ => false

/-- A command that uses no bus leaves the lines, OPEN and the trace alone, and has no I2C phase pending. -/
theorem bodyOf_busOk_of_usesNoBus {i : Instr} {p : Progress} {s t : State} {nx : Next} (hi : usesNoBus i = true)
    (hs : (Next.goto p).busOk s) (h : bodyOf i p s = some (t, nx)) : nx.busOk t := by
  cases i <;> simp only [bodyOf] at h
  case nop | crcClr | crcByte =>
    simp only [nopBody, crcClrBody, crcByteBody] at h
    split at h <;> cases h
    exact hs
  case crcBuf =>
    unfold crcBufBody at h
    split at h
    · cases h; exact hs
    · split at h <;> cases h <;> exact hs
    · cases h
  case cobsEnc =>
    unfold cobsEncBody at h
    split at h
    · split at h <;> cases h <;> exact hs
    · split at h <;> cases h
      · exact hs
      · rw [storeFrame_spec]; exact hs
    · cases h
  case cobsDec =>
    simp only [cobsDecBody, storeDecoding_spec] at h
    split at h
    · split at h <;> cases h <;> exact hs
    · split at h <;> cases h <;> exact hs
    · cases h
  all_goals cases hi

/-- What a 1-Wire command does where a slot starts or ends: nothing on the I2C bus. -/
def SilentPoint (s t : State) (nx : Next) : Prop :=
  (t.i2cHeld = s.i2cHeld ∧ t.i2cOpen = s.i2cOpen ∧ t.trace = s.trace) ∧ ∃ ok, slotOrEnd ok nx

theorem SearchPoint.silent {ok : Prop} {s t : State} {nx : Next} (h : SearchPoint ok s t nx) : SilentPoint s t nx := by
  obtain ⟨ht, -, hnext⟩ := h
  rw [onlyDiscovery] at ht
  exact ⟨by rw [ht]; exact ⟨rfl, rfl, rfl⟩, ok, hnext⟩

theorem DataPoint.silent {s t : State} {nx : Next} (h : DataPoint s t nx) : SilentPoint s t nx := by
  obtain ⟨ht, hnext⟩ := h
  exact ⟨by rw [ht]; exact ⟨rfl, rfl, rfl⟩, True, hnext⟩

theorem SilentPoint.of_same {s t : State} {nx : Next} (h : t = s ∧ slotOrEnd True nx) : SilentPoint s t nx := by
  obtain ⟨rfl, hnext⟩ := h
  exact ⟨⟨rfl, rfl, rfl⟩, True, hnext⟩

theorem enterSlot_silent {ops : List LineOp} {job : OwiJob} {s t : State} {nx : Next}
    (hops : ∀ d, driveAfter d ops = false) (h : enterSlot ops job s = (t, nx)) : SilentPoint s t nx := by
  cases h
  exact ⟨⟨rfl, rfl, rfl⟩, job.legal, .inl ⟨ops, job, rfl, id, hops⟩⟩

theorem SilentPoint.busOk {s t : State} {nx : Next} (h : SilentPoint s t nx) (hs : s.busSettled) : nx.busOk t := by
  obtain ⟨⟨hheld, hopen, htrace⟩, _, hnext⟩ := h
  have ht : t.busSettled := by rwa [State.busSettled, hheld, hopen, htrace]
  obtain ⟨_, _, rfl, -⟩ | ⟨_, rfl⟩ := hnext <;> exact ht

/-- A line action adds a 1-Wire event to the trace, which says nothing of the I2C bus. -/
theorem lineOp_busSettled {s : State} (op : LineOp) (got : Bool) (hs : s.busSettled) :
    (s.lineOp op got).2.busSettled := by
  obtain ⟨hheld, hview⟩ := hs
  obtain ⟨_, _, e, hquiet, h⟩ := lineOp_spec s op got
  rw [h]
  exact ⟨hheld, by simpa [busView, hquiet] using hview⟩

theorem owiBody_busOk {start : State → State × Next} {back : OwiJob → Bool → State → Option (State × Next)}
    {p : Progress} {s t : State} {nx : Next} (hs : (Next.goto p).busOk s)
    (h : owiBody start back p s = some (t, nx)) (hstart : ∀ s t nx, start s = (t, nx) → SilentPoint s t nx)
    (hback : ∀ job got s t nx, back job got s = some (t, nx) → SilentPoint s t nx) : nx.busOk t := by
  rcases of_owiBody h with ⟨rfl, hpoint⟩ | ⟨op, todo, got, job, rfl, rfl, rfl⟩ | ⟨got, job, rfl, hpoint⟩
  · exact (hstart _ _ _ hpoint).busOk hs
  · exact lineOp_busSettled op got hs
  · exact (hback _ _ _ _ _ hpoint).busOk hs

/-- Every point of every command keeps the release invariant. -/
theorem bodyOf_busOk {i : Instr} {p : Progress} {s t : State} {nx : Next} (hs : (Next.goto p).busOk s)
    (h : bodyOf i p s = some (t, nx)) : nx.busOk t := by
  cases i
  case sreset => exact sresetBody_busOk hs h
  case i2cStartw | i2cStartr =>
    simp only [bodyOf, i2cStartwBody, i2cStartrBody] at h
    split at h
    · cases h; exact hs
    · exact startPoint_busOk hs h
    · exact addrPoint_busOk hs (fun _ => finish_busOk) h
    · exact i2cFailPoint_busOk hs h
    · cases h
  case i2cWrite => exact i2cWriteBody_busOk hs h
  case i2cRead => exact i2cReadBody_busOk hs h
  case i2cStop => exact i2cStopBody_busOk hs h
  case i2cReadn => exact i2cReadnBody_busOk hs h
  case i2cWriten => exact i2cWritenBody_busOk hs h
  case owiReset =>
    exact owiBody_busOk hs h (fun _ _ _ => enterSlot_silent (driveAfter_resetPulse _))
      (fun _ _ _ _ _ h => .of_same (owiResetBack_point h))
  case owiWbit =>
    exact owiBody_busOk hs h (fun _ _ _ => enterSlot_silent (driveAfter_writeSlot _ · _))
      (fun _ _ _ _ _ h => .of_same (owiWbitBack_point h))
  case owiWbyte =>
    exact owiBody_busOk hs h (fun _ _ _ => enterSlot_silent (driveAfter_writeSlot _ · _))
      (fun _ _ _ _ _ h => .of_same (owiWbyteBack_point h))
  case owiRbit =>
    exact owiBody_busOk hs h (fun _ _ _ => enterSlot_silent (driveAfter_readSlot _))
      (fun _ _ _ _ _ h => (owiRbitBack_point h).silent)
  case owiRbyte =>
    exact owiBody_busOk hs h (fun _ _ _ => enterSlot_silent (driveAfter_readSlot _))
      (fun _ _ _ _ _ h => (owiRbyteBack_point h).silent)
  case owiSfirst =>
    exact owiBody_busOk hs h (fun _ _ _ h => (owiSfirstStart_point h).silent)
      (fun _ _ _ _ _ h => (searchBack_point h).silent)
  case owiSnext =>
    exact owiBody_busOk hs h (fun _ _ _ h => (searchStart_point h).silent)
      (fun _ _ _ _ _ h => (searchBack_point h).silent)
  all_goals exact bodyOf_busOk_of_usesNoBus rfl hs h

theorem illegalBody_busOk {p : Progress} {s t : State} {nx : Next} (hs : (Next.goto p).busOk s)
    (h : illegalBody p s = some (t, nx)) : nx.busOk t := by
  unfold illegalBody at h
  split at h <;> cases h
  exact hs

/-! ### Runs, host accesses and steps -/

/-- A run whose points keep the release invariant keeps it. -/
theorem runBody_busOk {body : Body}
    (hbody : ∀ p s t nx, (Next.goto p).busOk s → body p s = some (t, nx) → nx.busOk t) (n : Nat) (s : State)
    (hs : s.busOk) : (runBody body n s).busOk := by
  refine runBody_inv State.busOk body ?_ ?_ ?_ ?_ n s hs
  · intro u
    exact busOk_congr (passPoint_seq u) (passPoint_i2cHeld u) (passPoint_i2cOpen u) (passPoint_trace u)
  · intro u
    exact busOk_congr (waitPoint_seq u) (waitPoint_i2cHeld u) (waitPoint_i2cOpen u) (waitPoint_trace u)
  · intro c p u t p' hseq hu h
    have hnext := hbody p u t _ ((busOk_run_iff hseq).1 hu) h
    exact (busOk_run_iff (s := t.at c p') rfl).2 (by cases p' <;> exact hnext)
  · intro c p u t r hseq hu h
    exact (busOk_idle_iff (complete_seq t r)).2 (hbody p u t _ ((busOk_run_iff hseq).1 hu) h)

/-- The first point of a command asks what the idle block asks. -/
theorem begin_busOk {s : State} (w : Byte) (hs : s.busOk) : (s.begin w).busOk := by
  cases hseq : s.seq with
  | idle =>
    rw [begin_idle w hseq]
    exact (busOk_run_iff (p := .first) rfl).2 ((busOk_idle_iff hseq).1 hs)
  | run c p => rwa [begin_running w hseq]

/-- The host can write neither OPEN nor the lines (R29, R61). -/
theorem hostWrite_busOk {s : State} (off : Nat) (v : Byte) (hs : s.busOk) : (s.hostWrite off v).busOk := by
  have hpoke : (s.poke off v).busOk := by
    unfold State.poke
    split
    case h_6 => rw [setBufferByte_spec]; exact busOk_congr rfl rfl rfl rfl hs
    all_goals exact busOk_congr rfl rfl rfl rfl hs
  unfold State.hostWrite
  split
  · exact busOk_congr rfl rfl rfl rfl hs
  · split
    · exact hs
    · split
      · exact busOk_congr rfl rfl rfl rfl hs
      · exact hpoke

/-- A hardware reset frees the bus with no stop condition, whatever was pending (R281). -/
theorem hardwareReset_busOk {s : State} (b : Bool) (hs : s.busOk) :
    State.busOk { s.hardwareReset with resetLine := b } := by
  obtain ⟨v, hview⟩ := Option.isSome_iff_exists.1 hs.busView_isSome
  refine (busOk_idle_iff rfl).2 ⟨rfl, ?_⟩
  show busView (.hwReset :: s.trace) = some .free
  cases v <;> simp [busView, hview, busNext]

/-- Settles O40: each point of a running command keeps the invariant in the form that its next point asks, and the host
can change the bus by a reset only. -/
theorem everyTransactionGetsOneStop : Obligations.EveryTransactionGetsOneStop :=
  fun _ _ hs h => step_inv State.busOk
    (hhost := fun _ _ => busOk_congr rfl rfl rfl rfl)
    (hread := fun _ _ => busOk_congr rfl rfl rfl rfl)
    (hwrite := fun _ off v => hostWrite_busOk off v)
    (hovr := fun _ => busOk_congr rfl rfl rfl rfl)
    (hbegin := fun _ w => begin_busOk w)
    (hreset := fun _ b => hardwareReset_busOk b)
    (hrun := fun _ => runBody_busOk (fun _ _ _ _ => bodyOf_busOk) _)
    (hillegal := runBody_busOk (fun _ _ _ _ => illegalBody_busOk) _)
    hs h

end Sys2Proof.Machine
end

section
/-! SUPPORT. The single I2C commands on an idle block, for each answer of the environment, and a command whose phase the
environment does not end. -/

namespace Sys2Proof.Machine

/-! ### A phase that does not end (R172) -/

section
variable {s : State} (h : s.nextReply = none)
include h

theorem startPoint_waits (dir : Bool) : startPoint dir s = none := by
  simp [startPoint, State.i2cStartPhase, h]

theorem addrPoint_waits (dir : Bool) (after : State → State × Next) : addrPoint dir after s = none := by
  simp [addrPoint, State.i2cSendPhase, h]

theorem sendPoint_waits (b : Byte) (after : State → State × Next) : sendPoint b after s = none := by
  simp [sendPoint, State.i2cSendPhase, h]

theorem i2cRecvPhase_waits (a : Bool) : s.i2cRecvPhase a = none := by
  simp [State.i2cRecvPhase, h]

theorem i2cStopPhase_waits : s.i2cStopPhase = none := by
  simp [State.i2cStopPhase, h]

theorem i2cClosePoint_waits : i2cClosePoint s = none := by
  simp [i2cClosePoint, i2cStopPhase_waits h]

theorem i2cFailPoint_waits (e : Result) : i2cFailPoint e s = none := by
  simp [i2cFailPoint, i2cStopPhase_waits h]

/-- At each of its phases a command waits while the environment has no answer. -/
theorem bodyOf_waits {i : Instr} {p : Progress} (hp : awaitsPhase i p = true) : bodyOf i p s = none := by
  unfold awaitsPhase at hp
  split at hp
  case h_22 => cases hp
  all_goals
    simp only [bodyOf, sresetBody, i2cStartwBody, i2cStartrBody, i2cWriteBody, i2cReadBody, i2cStopBody, i2cReadnBody,
      i2cWritenBody, startPoint_waits h, addrPoint_waits h, sendPoint_waits h, i2cRecvPhase_waits h,
      i2cStopPhase_waits h, i2cClosePoint_waits h, i2cFailPoint_waits h, Option.bind_eq_bind, Option.bind_none]

end

/-- A command at a phase that the environment does not end uses up an answer of the environment, and does nothing
else. -/
theorem exec_waits {i : Instr} {s : State} {c : Byte} {p : Progress} (hseq : s.seq = .run c p)
    (hu : s.undisturbed = true) (hp : awaitsPhase i p = true) (h : s.nextReply = none) :
    exec i s = .next s.waitPoint := by
  rw [exec_eq, begin_running _ hseq]
  exact congrArg _ (runBody_wait (n := Config.burst - 1) hseq hu (bodyOf_waits h hp))

/-- Settles O13: the command is at its wait point again, one answer later. -/
theorem unfinishedPhaseKeepsTheCommandBusy : Obligations.UnfinishedPhaseKeepsTheCommandBusy := by
  intro i s c p hseq hu hp h
  refine ⟨s.waitPoint, exec_waits hseq hu hp h, ?_⟩
  obtain ⟨_, _, hwait⟩ := waitPoint_spec s
  rw [hwait]
  exact ⟨rfl, (busy_iff _).2 (by simp [hseq]), rfl, rfl, ⟨rfl, rfl⟩, ⟨rfl, rfl, rfl, rfl, rfl⟩, ⟨rfl, rfl, rfl, rfl⟩,
    ⟨rfl, rfl, rfl, rfl, rfl⟩, ⟨rfl, rfl, rfl, rfl⟩, rfl, rfl, rfl⟩

/-! ### StartPhase, a byte not acknowledged and the stop, on an idle block (R163, R164) -/

/-- A run that completes leaves the sequencer idle: against an idle state that is no change. -/
theorem Ends.of_idle {body : Body} {c : Byte} {k : Nat} {p : Progress} {s t : State} (hseq : t.seq = .idle)
    (h : Ends body c k p s { t with seq := .idle }) : Ends body c k p s t := by
  rwa [← hseq] at h

/-- The command runs StartPhase(dir) with its failure paths, then goes on with `after` (R164). -/
structure RunsStartPhase (body : Body) (dir : Bool) (after : State → State × Next) : Prop where
  start : ∀ s, body .i2cStart s = startPoint dir s
  addr : ∀ s, body .i2cAddr s = addrPoint dir after s
  fail : ∀ e s, body (.i2cFail e) s = i2cFailPoint e s

section
variable {body : Body} {c : Byte} {dir : Bool} {after : State → State × Next} {s s1 s2 s3 : State}
  {r1 r2 r3 : I2cReply}

/-- A failed start, and its stop. -/
theorem ends_startFailed (hb : RunsStartPhase body dir after) (hseq : s.seq = .idle)
    (h1 : s.nextReply = some (r1, s1)) (h2 : s1.nextReply = some (r2, s2)) (hok : r1.ok = false) :
    Ends body c 2 .i2cStart s { s2 with
      result := .eI2cStart, i2cCode := .startFailed, i2cOpen := false, i2cHeld := false
      trace := .i2cStop :: .i2cStart s.i2cOpen false :: s.trace } := by
  have hstart := leads_start_failed (c := c) hb.start h1 hok
  have hstop := hstart.ends (ends_fail (hb.fail _) (nextReply_congr h2 _ rfl rfl))
  obtain ⟨_, _, rfl⟩ := of_nextReply h1
  obtain ⟨_, _, rfl⟩ := of_nextReply h2
  exact Ends.of_idle hseq hstop

/-- `s` with the answers of the environment used up as far as in `u`. -/
def State.answered (s u : State) : State := { s with i2cScript := u.i2cScript, draws := u.draws }

/-- The block where its address byte is acknowledged. -/
def State.addressed (s : State) (dir : Bool) : State :=
  { s with
    i2cCode := .addrAcked, i2cOpen := true, i2cDir := dir, i2cHeld := true
    trace := .i2cSend (s.sla dir) true :: .i2cStart s.i2cOpen true :: s.trace }

/-- A start that succeeds, and an address byte that is acknowledged. -/
theorem leads_startPhase {p : Progress} (hb : RunsStartPhase body dir after)
    (hafter : ∀ u : State, u.len = s.len → after u = (u, .goto p)) (h1 : s.nextReply = some (r1, s1))
    (h2 : s1.nextReply = some (r2, s2)) (hok1 : r1.ok = true) (hok2 : r2.ok = true) :
    Leads body c 2 .i2cStart s p ((s.addressed dir).answered s2) := by
  have hstart := leads_start (c := c) hb.start h1 hok1
  obtain ⟨_, _, rfl⟩ := of_nextReply h1
  have haddr := hstart.trans (leads_addr hb.addr hafter (nextReply_congr h2 _ rfl rfl) hok2)
  exact haddr

/-- A start that succeeds, and an address byte that is acknowledged, where the command ends. -/
theorem ends_startPhase (hb : RunsStartPhase body dir finish) (hseq : s.seq = .idle)
    (h1 : s.nextReply = some (r1, s1)) (h2 : s1.nextReply = some (r2, s2)) (hok1 : r1.ok = true)
    (hok2 : r2.ok = true) :
    Ends body c 2 .i2cStart s { s2 with
      result := .ok, i2cCode := .addrAcked, i2cOpen := true, i2cDir := dir, i2cHeld := true
      trace := .i2cSend (s.sla dir) true :: .i2cStart s.i2cOpen true :: s.trace } := by
  have hstart := leads_start (c := c) hb.start h1 hok1
  obtain ⟨_, _, rfl⟩ := of_nextReply h1
  have haddr := hstart.ends (ends_addr hb.addr (nextReply_congr h2 _ rfl rfl) hok2)
  obtain ⟨_, _, rfl⟩ := of_nextReply h2
  exact Ends.of_idle hseq haddr

/-- A start that succeeds, an address byte that is not acknowledged, and the stop. -/
theorem ends_addrNack (hb : RunsStartPhase body dir after) (hseq : s.seq = .idle) (h1 : s.nextReply = some (r1, s1))
    (h2 : s1.nextReply = some (r2, s2)) (h3 : s2.nextReply = some (r3, s3)) (hok1 : r1.ok = true)
    (hok2 : r2.ok = false) :
    Ends body c 3 .i2cStart s { s3 with
      result := .eI2cNack, i2cCode := .noAck, i2cOpen := false, i2cDir := dir, i2cHeld := false
      trace := .i2cStop :: .i2cSend (s.sla dir) false :: .i2cStart s.i2cOpen true :: s.trace } := by
  have hstart := leads_start (c := c) hb.start h1 hok1
  have haddr := hstart.trans (leads_addr_nack hb.addr (nextReply_congr h2 _ rfl rfl) hok2)
  have hstop := haddr.ends (ends_fail (hb.fail _) (nextReply_congr h3 _ rfl rfl))
  obtain ⟨_, _, rfl⟩ := of_nextReply h1
  obtain ⟨_, _, rfl⟩ := of_nextReply h2
  obtain ⟨_, _, rfl⟩ := of_nextReply h3
  exact Ends.of_idle hseq hstop

/-- A data byte that is not acknowledged, and the stop. -/
theorem ends_sendNack {k : Nat} {b : Byte}
    (hb : body (.i2cSend k) (s.at c (.i2cSend k)) = sendPoint b after (s.at c (.i2cSend k)))
    (hfail : ∀ s, body (.i2cFail .eI2cNack) s = i2cFailPoint .eI2cNack s) (hseq : s.seq = .idle)
    (h1 : s.nextReply = some (r1, s1)) (h2 : s1.nextReply = some (r2, s2)) (hok : r1.ok = false) :
    Ends body c 2 (.i2cSend k) s { s2 with
      result := .eI2cNack, i2cCode := .noAck, i2cOpen := false, i2cHeld := false
      trace := .i2cStop :: .i2cSend b false :: s.trace } := by
  have hsend := leads_send_nack hb h1 hok
  have hstop := hsend.ends (ends_fail hfail (nextReply_congr h2 _ rfl rfl))
  obtain ⟨_, _, rfl⟩ := of_nextReply h1
  obtain ⟨_, _, rfl⟩ := of_nextReply h2
  exact Ends.of_idle hseq hstop

/-- The stop that ends a transaction and the command. -/
theorem ends_stop (hb : ∀ s, body .i2cStop s = i2cClosePoint s) (hseq : s.seq = .idle)
    (h : s.nextReply = some (r1, s1)) :
    Ends body c 1 .i2cStop s { s1 with
      result := .ok, i2cOpen := false, i2cHeld := false, trace := .i2cStop :: s.trace } := by
  have hstop := ends_close (c := c) hb h
  obtain ⟨_, _, rfl⟩ := of_nextReply h
  exact Ends.of_idle hseq hstop

end

/-! ### `i2c.startw` and `i2c.startr` (R165, R166) -/

theorem startCommands_runStartPhase {i : Instr} {dir : Bool}
    (hi : (i = .i2cStartw ∧ dir = false) ∨ (i = .i2cStartr ∧ dir = true)) :
    (∀ s, bodyOf i .first s = some (s, .goto .i2cStart)) ∧ RunsStartPhase (bodyOf i) dir finish := by
  obtain ⟨rfl, rfl⟩ | ⟨rfl, rfl⟩ := hi <;> exact ⟨fun _ => rfl, fun _ => rfl, fun _ => rfl, fun _ _ => rfl⟩

/-- Settles O33: the first point, then StartPhase in each of its three outcomes. -/
theorem i2cStartCommandsComplete : Obligations.I2cStartCommandsComplete := by
  refine ⟨rfl, rfl, fun i dir s s1 s2 r1 r2 hi hs h1 h2 => ?_⟩
  obtain ⟨hfirst, hb⟩ := startCommands_runStartPhase hi
  have hstart : Leads (bodyOf i) (encode i) 1 .first s .i2cStart s := leads_one rfl (hfirst _)
  exact ⟨fun hok => exec_of_ends hs (hstart.ends (ends_startFailed hb hs.1 h1 h2 hok)) (by decide),
    fun hok1 hok2 => exec_of_ends hs (hstart.ends (ends_startPhase hb hs.1 h1 h2 hok1 hok2)) (by decide),
    fun hok1 hok2 _ _ h3 => exec_of_ends hs (hstart.ends (ends_addrNack hb hs.1 h1 h2 h3 hok1 hok2)) (by decide)⟩

/-! ### `i2c.write` (R167) -/

theorem leads_i2cWrite {c : Byte} {s : State} (hopen : s.i2cOpen = true) (hdir : s.i2cDir = false) :
    Leads i2cWriteBody c 1 .first s (.i2cSend 0) s :=
  leads_one rfl (if_neg (by simp [State.at, hopen, hdir]))

/-- DATA acknowledged, where the command ends. -/
theorem ends_i2cWrite {c : Byte} {s s1 : State} {r : I2cReply} (hseq : s.seq = .idle)
    (h : s.nextReply = some (r, s1)) (hok : r.ok = true) :
    Ends i2cWriteBody c 1 (.i2cSend 0) s { s1 with
      result := .ok, i2cCode := .dataAcked, trace := .i2cSend s.data true :: s.trace } := by
  have hsend : i2cWriteBody (.i2cSend 0) (s.at c (.i2cSend 0)) =
      some (finish { (s1.at c (.i2cSend 0)).emit (.i2cSend s.data true) with i2cCode := .dataAcked }) := by
    rw [i2cWriteBody, sendPoint, i2cSendPhase_of _ (at_nextReply h _ _)]
    simp only [hok, Option.bind_eq_bind, Option.bind_some, Option.pure_def, if_true]
    rfl
  have hends := ends_one hsend
  obtain ⟨_, _, rfl⟩ := of_nextReply h
  exact Ends.of_idle hseq hends

/-- Settles O34: the check of OPEN and DIR, then the one byte, acknowledged or not. -/
theorem i2cWriteCompletes : Obligations.I2cWriteCompletes := by
  refine ⟨rfl, fun s hs => ⟨fun hclosed => ?_, fun hopen hdir r1 s1 h1 => ⟨fun hok => ?_, fun hok r2 s2 h2 => ?_⟩⟩⟩
  · exact exec_of_ends hs (ends_at hs.1 (if_pos (by simpa [State.at] using hclosed))) (by decide)
  · exact exec_of_ends hs ((leads_i2cWrite hopen hdir).ends (ends_i2cWrite hs.1 h1 hok)) (by decide)
  · exact exec_of_ends hs ((leads_i2cWrite hopen hdir).ends (ends_sendNack rfl (fun _ => rfl) hs.1 h1 h2 hok))
      (by decide)

/-! ### `i2c.read` (R168) -/

theorem leads_i2cRead {a : Bool} {c : Byte} {s : State} (hopen : s.i2cOpen = true) (hdir : s.i2cDir = true) :
    Leads (i2cReadBody a) c 1 .first s (.i2cRecv 0) s :=
  leads_one rfl (if_neg (by simp [State.at, hopen, hdir]))

/-- The byte received goes to DATA, and the transaction stays open. -/
theorem ends_i2cRead {a : Bool} {c : Byte} {s s1 : State} {r : I2cReply} (hseq : s.seq = .idle)
    (h : s.nextReply = some (r, s1)) :
    Ends (i2cReadBody a) c 1 (.i2cRecv 0) s { s1 with
      result := .ok, data := r.byte, i2cCode := recvCode a, trace := .i2cRecv r.byte a :: s.trace } := by
  have hrecv : i2cReadBody a (.i2cRecv 0) (s.at c (.i2cRecv 0)) =
      some (finish { (s1.at c (.i2cRecv 0)).emit (.i2cRecv r.byte a) with data := r.byte, i2cCode := recvCode a }) := by
    rw [i2cReadBody, i2cRecvPhase_of _ (at_nextReply h _ _)]
    rfl
  have hends := ends_one hrecv
  obtain ⟨_, _, rfl⟩ := of_nextReply h
  exact Ends.of_idle hseq hends

/-- Settles O35: the check of OPEN and DIR, then the one byte. -/
theorem i2cReadCompletes : Obligations.I2cReadCompletes := by
  refine ⟨rfl, rfl, fun a s hs => ⟨fun hclosed => ?_, fun hopen hdir r s1 h => ?_⟩⟩
  · exact exec_of_ends hs (ends_at hs.1 (if_pos (by simpa [State.at] using hclosed))) (by decide)
  · exact exec_of_ends hs ((leads_i2cRead hopen hdir).ends (ends_i2cRead hs.1 h)) (by decide)

/-! ### `i2c.stop` (R169) -/

/-- Settles O36: nothing on the bus with OPEN = 0, else the stop. -/
theorem i2cStopCompletes : Obligations.I2cStopCompletes := by
  refine ⟨rfl, fun s hs => ⟨fun hclosed => ?_, fun hopen r s1 h => ?_⟩⟩
  · exact exec_of_ends hs (ends_at hs.1 (if_neg (ne_true_of_eq_false hclosed))) (by decide)
  · have hfirst : Leads i2cStopBody (encode .i2cStop) 1 .first s .i2cStop s := leads_one rfl (if_pos hopen)
    exact exec_of_ends hs (hfirst.ends (ends_stop (fun _ => rfl) hs.1 h)) (by decide)

end Sys2Proof.Machine
end

section
/-! SUPPORT. `i2c.readn` and `i2c.writen` on an idle block: the loop over the bytes, for each answer of the
environment. -/

namespace Sys2Proof.Machine

/-! ### The answers to several phases (R160) -/

theorem nextReply_eq_answered {s s1 : State} {r : I2cReply} (h : s.nextReply = some (r, s1)) :
    ∃ u, s1 = s.answered u := by
  obtain ⟨script, draws, rfl⟩ := of_nextReply h
  exact ⟨{ s with i2cScript := script, draws := draws }, rfl⟩

theorem nextReply_answered {s s1 : State} {r : I2cReply} (h : s.nextReply = some (r, s1)) (t : State) :
    (t.answered s).nextReply = some (r, t.answered s1) :=
  nextReply_congr h (t.answered s) rfl rfl

theorem of_replies_succ {n : Nat} {s s' : State} {rs : List I2cReply} (h : s.replies (n + 1) = some (rs, s')) :
    ∃ r s1 rest, s.nextReply = some (r, s1) ∧ s1.replies n = some (rest, s') ∧ rs = r :: rest := by
  simp only [State.replies, Option.bind_eq_bind, Option.bind_eq_some_iff, Option.pure_def, Option.some.injEq,
    Prod.mk.injEq] at h
  obtain ⟨⟨r, s1⟩, h1, ⟨rest, _⟩, hrest, rfl, rfl⟩ := h
  exact ⟨r, s1, rest, h1, hrest, rfl⟩

theorem replies_length {n : Nat} {s s' : State} {rs : List I2cReply} (h : s.replies n = some (rs, s')) :
    rs.length = n := by
  induction n generalizing s rs with
  | zero => cases h; rfl
  | succ n ih =>
    obtain ⟨r, s1, rest, -, hrest, rfl⟩ := of_replies_succ h
    exact congrArg (· + 1) (ih hrest)

theorem replies_eq_answered {n : Nat} {s s' : State} {rs : List I2cReply} (h : s.replies n = some (rs, s')) :
    ∃ u, s' = s.answered u := by
  induction n generalizing s rs with
  | zero => cases h; exact ⟨s', rfl⟩
  | succ n ih =>
    obtain ⟨r, s1, rest, h1, hrest, rfl⟩ := of_replies_succ h
    obtain ⟨u, rfl⟩ := ih hrest
    obtain ⟨v, rfl⟩ := nextReply_eq_answered h1
    exact ⟨u, rfl⟩

/-- The next answers depend on the script and the draws only. -/
theorem replies_answered {n : Nat} {s s' : State} {rs : List I2cReply} (h : s.replies n = some (rs, s'))
    (t : State) : (t.answered s).replies n = some (rs, t.answered s') := by
  induction n generalizing s rs with
  | zero => cases h; rfl
  | succ n ih =>
    obtain ⟨r, s1, rest, h1, hrest, rfl⟩ := of_replies_succ h
    simp [State.replies, nextReply_answered h1 t, ih hrest]

/-! ### `i2c.writen` (R171) -/

/-- Where the loop of `i2c.writen` stands at index `k`: at the next byte, or at the stop after the last. -/
def State.writenPoint (s : State) (k : Nat) : Progress := if k < s.lenNat then .i2cSend k else .i2cStop

theorem writenNext_eq {s : State} (k : Nat) (u : State) (hu : u.len = s.len) :
    writenNext k u = (u, .goto (s.writenPoint k)) := by
  rw [writenNext, State.lenNat, hu]
  rfl

theorem writen_runsStartPhase : RunsStartPhase i2cWritenBody false (writenNext 0) :=
  ⟨fun _ => rfl, fun _ => rfl, fun _ _ => rfl⟩

/-- The block after an acknowledged data byte. -/
def State.sent (s : State) (b : Byte) : State :=
  { s with i2cCode := .dataAcked, trace := .i2cSend b true :: s.trace }

theorem leads_sendByte {c : Byte} {k : Nat} {s s1 : State} {r : I2cReply} (hk : k < s.lenNat)
    (h : s.nextReply = some (r, s1)) (hok : r.ok = true) :
    Leads i2cWritenBody c 1 (s.writenPoint k) s (s.writenPoint (k + 1)) ((s.sent (s.rawAt k)).answered s1) := by
  have hsend := leads_send (body := i2cWritenBody) (c := c) (after := writenNext (k + 1)) rfl
    (writenNext_eq (k + 1)) h hok
  rw [show s.writenPoint k = .i2cSend k from if_pos hk]
  obtain ⟨u, rfl⟩ := nextReply_eq_answered h
  exact hsend

/-- The block after data bytes that are each acknowledged. -/
def State.sentBytes (s : State) (bytes : List Byte) : State :=
  { s with
    i2cCode := if bytes = [] then s.i2cCode else .dataAcked
    trace := sendTrace bytes ++ s.trace }

theorem sent_sentBytes (s : State) (b : Byte) (bytes : List Byte) :
    (s.sent b).sentBytes bytes = s.sentBytes (b :: bytes) := by
  simp [State.sentBytes, State.sent, sendTrace]

/-- `n` bytes from index `k` on, each acknowledged. -/
theorem leads_sendBytes {c : Byte} {n k : Nat} {s s' : State} {rs : List I2cReply} (hk : k + n ≤ s.lenNat)
    (h : s.replies n = some (rs, s')) (hok : ∀ r ∈ rs, r.ok = true) :
    Leads i2cWritenBody c n (s.writenPoint k) s (s.writenPoint (k + n))
      ((s.sentBytes (s.rawFrom k n)).answered s') := by
  induction n generalizing k s s' rs with
  | zero => cases h; exact Leads.refl _ _ _ _
  | succ n ih =>
    obtain ⟨r, s1, rest, h1, hrest, rfl⟩ := of_replies_succ h
    have hsend := leads_sendByte (c := c) (k := k) (by omega) h1 (hok r (by simp))
    have hmore := ih (k := k + 1) (s := (s.sent (s.rawAt k)).answered s1)
      (show k + 1 + n ≤ s.lenNat by omega) (replies_answered hrest _) fun q hq => hok q (by simp [hq])
    have hspan : ((s.sent (s.rawAt k)).answered s1).rawFrom (k + 1) n = s.rawFrom (k + 1) n :=
      rawFrom_congr _ _ fun _ _ => rfl
    rw [hspan] at hmore
    rw [State.rawFrom, ← sent_sentBytes, ← Nat.add_assoc, Nat.add_right_comm]
    exact hsend.trans hmore

theorem leads_writen_first {c : Byte} {s : State} : Leads i2cWritenBody c 1 .first s .i2cStart s := leads_one rfl rfl

/-- The start phase, then `n` bytes, each acknowledged. -/
theorem leads_writen {c : Byte} {n : Nat} {s s1 s2 s3 : State} {r1 r2 : I2cReply} {rs : List I2cReply}
    (hn : n ≤ s.lenNat) (h1 : s.nextReply = some (r1, s1)) (h2 : s1.nextReply = some (r2, s2)) (hok1 : r1.ok = true)
    (hok2 : r2.ok = true) (h3 : s2.replies n = some (rs, s3)) (hok : ∀ r ∈ rs, r.ok = true) :
    Leads i2cWritenBody c (n + 3) .first s (s.writenPoint n)
      (((s.addressed false).sentBytes (s.rawSpan n)).answered s3) := by
  have hstart := leads_writen_first.trans
    (leads_startPhase (c := c) writen_runsStartPhase (writenNext_eq 0) h1 h2 hok1 hok2)
  have hbytes := leads_sendBytes (c := c) (k := 0) (s := (s.addressed false).answered s2)
    ((Nat.zero_add n).trans_le hn) (replies_answered h3 _) hok
  have hspan : ((s.addressed false).answered s2).rawFrom 0 n = s.rawSpan n := rawFrom_congr _ _ fun _ _ => rfl
  rw [hspan, Nat.zero_add] at hbytes
  exact hstart.trans hbytes

theorem rawSpan_eq_nil_iff (s : State) : s.rawSpan s.lenNat = [] ↔ s.len = 0 := by
  rw [← List.length_eq_zero_iff, rawSpan_length, State.lenNat, ← BitVec.toNat_inj]
  rfl

/-- Settles O38: the start phase, then the bytes, up to the stop after the last or after the first not acknowledged. -/
theorem i2cWritenCompletes : Obligations.I2cWritenCompletes := by
  refine ⟨rfl, fun s hs r1 r2 s1 s2 h1 h2 => ⟨fun hok => ?startFailed, fun hok1 hok2 r3 s3 h3 => ?addrNack,
    fun hok1 hok2 rs r4 s3 s4 h3 hok h4 => ?sent, fun hok1 hok2 k rs r4 r5 s3 s4 s5 hk h3 hok h4 hok4 h5 => ?nack⟩⟩
  case startFailed =>
    exact exec_of_ends hs (leads_writen_first.ends (ends_startFailed writen_runsStartPhase hs.1 h1 h2 hok)) (by decide)
  case addrNack =>
    exact exec_of_ends hs (leads_writen_first.ends (ends_addrNack writen_runsStartPhase hs.1 h1 h2 h3 hok1 hok2))
      (by decide)
  case sent =>
    have hlen : s.lenNat < 256 := s.len.isLt
    have hbytes := leads_writen (c := encode .i2cWriten) le_rfl h1 h2 hok1 hok2 h3 hok
    rw [show s.writenPoint s.lenNat = .i2cStop from if_neg (Nat.lt_irrefl _)] at hbytes
    have hrun := exec_of_ends (i := .i2cWriten) hs
      (hbytes.ends (ends_stop (fun _ => rfl) hs.1 (nextReply_answered h4 _)))
      (by unfold Config.burst; omega)
    obtain ⟨_, rfl⟩ := nextReply_eq_answered h1
    obtain ⟨_, rfl⟩ := nextReply_eq_answered h2
    obtain ⟨_, rfl⟩ := replies_eq_answered h3
    obtain ⟨_, rfl⟩ := nextReply_eq_answered h4
    simp only [← rawSpan_eq_nil_iff]
    exact hrun
  case nack =>
    have hlen : s.lenNat < 256 := s.len.isLt
    have hbytes := leads_writen (c := encode .i2cWriten) hk.le h1 h2 hok1 hok2 h3 hok
    rw [show s.writenPoint k = .i2cSend k from if_pos hk] at hbytes
    have hnack := hbytes.ends (ends_sendNack (b := s.rawAt k) (after := writenNext (k + 1)) rfl (fun _ => rfl) hs.1
      (nextReply_answered h4 _) (nextReply_answered h5 _) hok4)
    have hrun := exec_of_ends (i := .i2cWriten) hs hnack (by unfold Config.burst; omega)
    obtain ⟨_, rfl⟩ := nextReply_eq_answered h1
    obtain ⟨_, rfl⟩ := nextReply_eq_answered h2
    obtain ⟨_, rfl⟩ := replies_eq_answered h3
    obtain ⟨_, rfl⟩ := nextReply_eq_answered h4
    obtain ⟨_, rfl⟩ := nextReply_eq_answered h5
    exact hrun

/-! ### `i2c.readn` (R170) -/

theorem setRaw_mem_congr {s t : State} (hmem : t.mem = s.mem) (i : Nat) (b : Byte) :
    (t.setRaw i b).mem = (s.setRaw i b).mem := by
  unfold State.setRaw State.setBufferByte
  split
  · split
    · rw [hmem]
    · exact hmem
  · exact hmem

theorem storeRaw_mem_congr {s t : State} (hmem : t.mem = s.mem) (i : Nat) (bytes : List Byte) :
    (t.storeRaw i bytes).mem = (s.storeRaw i bytes).mem := by
  induction bytes generalizing s t i with
  | nil => exact hmem
  | cons b bytes ih => exact ih (setRaw_mem_congr hmem i b) (i + 1)

/-- A byte depends on the memory and the count of resets only. -/
theorem bufferByte_congr {s t : State} (hmem : t.mem = s.mem) (hepoch : t.epoch = s.epoch) (off : Nat) :
    t.bufferByte off = s.bufferByte off := by
  rw [State.bufferByte, hmem, hepoch, State.bufferByte]

theorem readn_runsStartPhase : RunsStartPhase i2cReadnBody true (fun u => (u, .goto (.i2cRecv 0))) :=
  ⟨fun _ => rfl, fun _ => rfl, fun _ _ => rfl⟩

/-- The block after it received data byte `k` of `i2c.readn`. -/
def State.received (s : State) (k : Nat) (b : Byte) (ack : Bool) : State :=
  { s with mem := (s.setRaw k b).mem, i2cCode := recvCode ack, trace := .i2cRecv b ack :: s.trace }

theorem leads_recvByte {c : Byte} {k : Nat} {s s1 : State} {r : I2cReply} (h : s.nextReply = some (r, s1)) :
    Leads i2cReadnBody c 1 (.i2cRecv k) s (if k + 1 < s.lenNat then .i2cRecv (k + 1) else .i2cStop)
      ((s.received k r.byte (s.readnAck k)).answered s1) := by
  refine leads_one rfl ?_
  have hnext := at_nextReply h c (.i2cRecv k)
  obtain ⟨u, rfl⟩ := nextReply_eq_answered h
  rw [i2cReadnBody, i2cRecvPhase_of _ hnext]
  simp only [Option.bind_eq_bind, Option.bind_some, Option.pure_def]
  have hmem := setRaw_mem_congr (s := s)
    (t := ((s.answered u).at c (.i2cRecv k)).emit (.i2cRecv r.byte ((s.at c (.i2cRecv k)).readnAck k))) rfl k r.byte
  rw [setRaw_spec, hmem]
  rfl

/-- The block after it received the last data bytes of `i2c.readn`, from index `k` on. -/
def State.receivedBytes (s : State) (k : Nat) (rs : List I2cReply) : State :=
  { s with
    mem := (s.storeRaw k (rs.map (·.byte))).mem, i2cCode := .noAck, trace := recvTrace rs ++ s.trace }

theorem received_receivedBytes (s : State) (k : Nat) (r q : I2cReply) (rs : List I2cReply) :
    (s.received k r.byte true).receivedBytes (k + 1) (q :: rs) = s.receivedBytes k (r :: q :: rs) := by
  have hmem := storeRaw_mem_congr (s := s.setRaw k r.byte) (t := s.received k r.byte true) rfl (k + 1)
    ((q :: rs).map (·.byte))
  rw [State.receivedBytes, hmem]
  simp [State.receivedBytes, State.received, recvTrace, State.storeRaw]

theorem answered_receivedBytes (s u v : State) (k : Nat) (rs : List I2cReply) :
    ((s.answered u).receivedBytes k rs).answered v = (s.receivedBytes k rs).answered v := by
  have hmem := storeRaw_mem_congr (s := s) (t := s.answered u) rfl k (rs.map (·.byte))
  rw [State.receivedBytes, hmem]
  rfl

/-- The last `n + 1` bytes, all but the last acknowledged. -/
theorem leads_recvBytes {c : Byte} {n k : Nat} {s s' : State} {rs : List I2cReply} (hk : k + (n + 1) = s.lenNat)
    (h : s.replies (n + 1) = some (rs, s')) :
    Leads i2cReadnBody c (n + 1) (.i2cRecv k) s .i2cStop ((s.receivedBytes k rs).answered s') := by
  induction n generalizing k s s' rs with
  | zero =>
    obtain ⟨r, s1, rest, h1, hrest, rfl⟩ := of_replies_succ h
    have hrecv := leads_recvByte (c := c) (k := k) h1
    rw [if_neg (by omega), show s.readnAck k = false from decide_eq_false (by omega)] at hrecv
    cases hrest
    exact hrecv
  | succ n ih =>
    obtain ⟨r, s1, rest, h1, hrest, rfl⟩ := of_replies_succ h
    have hrecv := leads_recvByte (c := c) (k := k) h1
    rw [if_pos (by omega), show s.readnAck k = true from decide_eq_true (by omega)] at hrecv
    have hmore := ih (k := k + 1) (s := (s.received k r.byte true).answered s1)
      (show k + 1 + (n + 1) = s.lenNat by omega) (replies_answered hrest _)
    obtain ⟨q, s2, rest, -, -, rfl⟩ := of_replies_succ hrest
    rw [answered_receivedBytes, received_receivedBytes] at hmore
    exact hrecv.trans hmore

/-- Where `n` bytes received were stored, RAW[0..n-1] holds them in order. -/
theorem rawSpan_of_mem_storeRaw {s t : State} {rs : List I2cReply}
    (hmem : t.mem = (s.storeRaw 0 (rs.map (·.byte))).mem) (hepoch : t.epoch = s.epoch)
    (hrs : rs.length ≤ Config.bufferSize) :
    t.rawSpan rs.length = rs.map (·.byte) := by
  have hsame : t.rawSpan rs.length = (s.storeRaw 0 (rs.map (·.byte))).rawFrom 0 rs.length :=
    rawFrom_congr _ _ fun _ _ => bufferByte_congr hmem (hepoch.trans (storeRaw_epoch s 0 _).symm) _
  have hread := rawFrom_storeRaw s 0 (rs.map (·.byte))
  rw [List.length_map] at hread
  rw [hsame, hread (by omega)]

/-- Where bytes received were stored, every other byte of the buffers is as before. -/
theorem bufferByte_of_mem_storeRaw_other {s t : State} {rs : List I2cReply}
    (hmem : t.mem = (s.storeRaw 0 (rs.map (·.byte))).mem) (hepoch : t.epoch = s.epoch) {off : Nat}
    (hoff : ¬(0x100 ≤ off ∧ off < 0x100 + rs.length)) :
    t.bufferByte off = s.bufferByte off := by
  have hsame : t.bufferByte off = (s.storeRaw 0 (rs.map (·.byte))).bufferByte off :=
    bufferByte_congr hmem (hepoch.trans (storeRaw_epoch s 0 _).symm) off
  rw [hsame]
  refine bufferByte_storeRaw_other s 0 _ fun k hk => ?_
  rw [List.length_map] at hk
  unfold rawBase
  omega

theorem leads_readn_first {c : Byte} {s : State} (hlen : s.len ≠ 0) :
    Leads i2cReadnBody c 1 .first s .i2cStart s :=
  leads_one rfl (if_neg hlen)

/-- The start phase, then LEN bytes. -/
theorem leads_readn {c : Byte} {s s1 s2 s3 : State} {r1 r2 : I2cReply} {rs : List I2cReply} (hlen : s.len ≠ 0)
    (h1 : s.nextReply = some (r1, s1)) (h2 : s1.nextReply = some (r2, s2)) (hok1 : r1.ok = true)
    (hok2 : r2.ok = true) (h3 : s2.replies s.lenNat = some (rs, s3)) :
    Leads i2cReadnBody c (s.lenNat + 3) .first s .i2cStop (((s.addressed true).receivedBytes 0 rs).answered s3) := by
  have hstart := (leads_readn_first hlen).trans
    (leads_startPhase (c := c) readn_runsStartPhase (fun _ _ => rfl) h1 h2 hok1 hok2)
  obtain ⟨n, hn⟩ : ∃ n, s.lenNat = n + 1 := Nat.exists_eq_succ_of_ne_zero fun h => hlen (BitVec.toNat_inj.1 h)
  rw [hn] at h3 ⊢
  have hbytes := leads_recvBytes (c := c) (k := 0) (s := (s.addressed true).answered s2)
    ((Nat.zero_add _).trans hn.symm) (replies_answered h3 _)
  rw [answered_receivedBytes] at hbytes
  exact hstart.trans hbytes

/-- Settles O37: the check of LEN, the start phase, then LEN bytes and the stop. -/
theorem i2cReadnCompletes : Obligations.I2cReadnCompletes := by
  refine ⟨rfl, fun s hs => ⟨fun hlen => ?empty, fun hlen r1 r2 s1 s2 h1 h2 => ⟨fun hok => ?startFailed,
    fun hok1 hok2 r3 s3 h3 => ?addrNack, fun hok1 hok2 rs r4 s3 s4 h3 h4 => ?received⟩⟩⟩
  case empty => exact exec_of_ends hs (ends_at hs.1 (if_pos hlen)) (by decide)
  case startFailed =>
    exact exec_of_ends hs ((leads_readn_first hlen).ends (ends_startFailed readn_runsStartPhase hs.1 h1 h2 hok))
      (by decide)
  case addrNack =>
    exact exec_of_ends hs ((leads_readn_first hlen).ends (ends_addrNack readn_runsStartPhase hs.1 h1 h2 h3 hok1 hok2))
      (by decide)
  case received =>
    have hlt : s.lenNat < 256 := s.len.isLt
    have hcount : rs.length = s.lenNat := replies_length h3
    have hrun := exec_of_ends (i := .i2cReadn) hs ((leads_readn hlen h1 h2 hok1 hok2 h3).ends
      (ends_stop (fun _ => rfl) hs.1 (nextReply_answered h4 _))) (by unfold Config.burst; omega)
    obtain ⟨_, rfl⟩ := nextReply_eq_answered h1
    obtain ⟨_, rfl⟩ := nextReply_eq_answered h2
    obtain ⟨_, rfl⟩ := replies_eq_answered h3
    obtain ⟨_, rfl⟩ := nextReply_eq_answered h4
    have hmem := storeRaw_mem_congr (s := s) (t := s.addressed true) rfl 0 (rs.map (·.byte))
    refine ⟨_, hrun, rfl, ?_, fun off hoff => ?_⟩
    · rw [← State.lenNat, ← hcount]
      exact rawSpan_of_mem_storeRaw hmem rfl (by unfold Config.bufferSize; omega)
    · rw [← State.lenNat, ← hcount] at hoff
      refine bufferByte_of_mem_storeRaw_other ?mem ?epoch hoff
      exacts [hmem, rfl]

end Sys2Proof.Machine
end

section
/-! SUPPORT. What the I2C commands leave alone, in every state, and where `i2c.readn` stores from an idle block. -/

namespace Sys2Proof.Machine

/-! ### The registers and lines (R165 to R171) -/

/-- The command is one of the I2C unit (R92). -/
def isI2cCommand (i : Instr) : Bool :=
  match i with
  | .i2cStartw | .i2cStartr | .i2cWrite | .i2cRead _ | .i2cStop | .i2cReadn | .i2cWriten => true
  | _ => false

/-- From `s` to `t` only DATA, I2C_STAT, the I2C lines, the buffers, the trace, RESULT, the sequencer, the host's queue
and the answers that the I2C environment used up may have changed. -/
def onlyI2cRun (s t : State) : Prop :=
  t = { s with
    data := t.data, i2cCode := t.i2cCode, i2cOpen := t.i2cOpen, i2cDir := t.i2cDir, i2cHeld := t.i2cHeld
    mem := t.mem, trace := t.trace
    result := t.result, seq := t.seq, host := t.host, i2cScript := t.i2cScript, draws := t.draws }

theorem onlyI2cRun.trans {s t u : State} (h : onlyI2cRun s t) (h' : onlyI2cRun t u) : onlyI2cRun s u := by
  unfold onlyI2cRun at *
  rw [h', h]

theorem onlyWrites_onlyI2cRun {i : Instr} (hi : isI2cCommand i = true) {s t : State} (h : onlyWrites i s t) :
    onlyI2cRun s t := by
  unfold onlyI2cRun
  cases i
  case i2cStartw | i2cStartr | i2cWrite | i2cRead | i2cStop | i2cReadn | i2cWriten =>
    rw [onlyWrites] at h
    rw [h]
  all_goals cases hi

theorem exec_onlyI2cRun {i : Instr} (hi : isI2cCommand i = true) {s t : State} (h : exec i s = .next t) :
    onlyI2cRun s t :=
  exec_rel onlyI2cRun i (hrefl := fun _ => rfl) (htrans := fun _ _ _ => .trans) (hseq := fun _ _ => rfl)
    (hdone := fun _ _ => rfl) (hhost := fun _ _ => rfl) (hwait := fun _ _ _ => rfl)
    (hwrites := fun _ _ => onlyWrites_onlyI2cRun hi) h

/-- Of the I2C commands only `i2c.read` writes DATA (R168). -/
theorem onlyWrites_i2c_data {i : Instr} (hi : isI2cCommand i = true) (hread : ∀ a, i ≠ .i2cRead a) {s t : State}
    (h : onlyWrites i s t) : t.data = s.data := by
  cases i
  case i2cRead a => exact absurd rfl (hread a)
  case i2cStartw | i2cStartr | i2cWrite | i2cStop | i2cReadn | i2cWriten =>
    rw [onlyWrites] at h
    rw [h]
  all_goals cases hi

theorem exec_i2c_data {i : Instr} (hi : isI2cCommand i = true) (hread : ∀ a, i ≠ .i2cRead a) {s t : State}
    (h : exec i s = .next t) : t.data = s.data :=
  exec_rel (fun s t => t.data = s.data) i (hrefl := fun _ => rfl) (htrans := fun _ _ _ h h' => h'.trans h)
    (hseq := fun _ _ => rfl) (hdone := fun _ _ => rfl) (hhost := fun _ _ => rfl) (hwait := fun _ _ _ => rfl)
    (hwrites := fun _ _ => onlyWrites_i2c_data hi hread) h

/-! ### The buffers (R170) -/

/-- Every I2C command but `i2c.readn` leaves the buffers alone. -/
theorem exec_i2c_sameBuffers {i : Instr} (hi : isI2cCommand i = true) (hreadn : i ≠ .i2cReadn) {s t : State}
    (h : exec i s = .next t) : sameBuffers s t := by
  refine exec_sameBytes (fun p u v nx hbody off _ => ?_) h
  have hwrites := bodyOf_writes i p u v nx hbody
  have hmem := onlyWrites_mem hwrites (by rintro rfl; cases hi) (by rintro rfl; cases hi) hreadn
  refine bufferByte_congr hmem ?_ off
  rw [onlyWrites_onlyI2cRun hi hwrites]

/-- A point of `i2c.readn` writes the byte of RAW at its index at most. -/
theorem i2cReadnBody_sameBytes {q : Nat → Prop} {p : Progress} {s t : State} {nx : Next}
    (hq : ∀ k, p = .i2cRecv k → k < Config.bufferSize → ¬q (rawBase + k))
    (h : i2cReadnBody p s = some (t, nx)) : sameBytes q s t := by
  unfold i2cReadnBody at h
  split at h
  · split at h <;> cases h <;> exact fun _ _ => rfl
  · obtain ⟨_, _, ⟨-, rfl⟩ | ⟨-, rfl⟩⟩ := of_startPoint h <;> exact fun _ _ => rfl
  · obtain ⟨_, _, h | ⟨-, rfl⟩⟩ := of_addrPoint h
    · cases h; exact fun _ _ => rfl
    · exact fun _ _ => rfl
  · rename_i k
    obtain ⟨b, s1, hrecv, rfl, -⟩ := of_i2cReadnBody_recv h
    obtain ⟨_, _, rfl⟩ := of_i2cRecvPhase hrecv
    intro off hoff
    by_cases hk : k < Config.bufferSize
    · refine (bufferByte_setRaw_other _ k b ?_).trans rfl
      rintro rfl
      exact hq k rfl hk hoff
    · rw [State.setRaw, if_neg hk]
      rfl
  · obtain ⟨_, _, -, rfl⟩ := of_i2cClosePoint h
    exact fun _ _ => rfl
  · obtain ⟨_, _, -, rfl⟩ := of_i2cFailPoint h
    exact fun _ _ => rfl
  · cases h

theorem exec_i2c_sameBytes_outside_raw {i : Instr} (hi : isI2cCommand i = true) {s t : State}
    (h : exec i s = .next t) : sameBytes (fun off => ¬(0x100 ≤ off ∧ off ≤ 0x1FF)) s t := by
  by_cases hreadn : i = .i2cReadn
  · subst hreadn
    refine exec_sameBytes (i := .i2cReadn) (fun _ _ _ _ => i2cReadnBody_sameBytes fun k _ hk => ?_) h
    unfold rawBase
    unfold Config.bufferSize at hk
    omega
  · exact fun off _ => exec_i2c_sameBuffers hi hreadn h off trivial

/-! ### Where `i2c.readn` stores from an idle block (R170) -/

/-- The index that `i2c.readn` holds at a point, or will hold after its address byte, is below LEN. -/
def Next.indexBelow (len : Nat) (nx : Next) : Prop :=
  match nx with
  | .goto .i2cStart | .goto .i2cAddr => 0 < len
  | .goto (.i2cRecv k) => k < len
  | _ => True

theorem i2cReadnBody_indexBelow {p : Progress} {s t : State} {nx : Next} (hp : (Next.goto p).indexBelow s.lenNat)
    (h : i2cReadnBody p s = some (t, nx)) : nx.indexBelow s.lenNat := by
  unfold i2cReadnBody at h
  split at h
  · split at h
    · cases h; trivial
    · rename_i hlen
      cases h
      exact Nat.pos_of_ne_zero fun h0 => hlen (BitVec.toNat_inj.1 h0)
  · obtain ⟨_, _, ⟨rfl, -⟩ | ⟨rfl, -⟩⟩ := of_startPoint h
    · exact hp
    · trivial
  · obtain ⟨_, _, h | ⟨rfl, -⟩⟩ := of_addrPoint h
    · cases h; exact hp
    · trivial
  · obtain ⟨_, _, -, -, rfl⟩ := of_i2cReadnBody_recv h
    split
    · assumption
    · trivial
  · obtain ⟨_, _, rfl, -⟩ := of_i2cClosePoint h
    trivial
  · obtain ⟨_, _, rfl, -⟩ := of_i2cFailPoint h
    trivial
  · cases h

/-- What a run of `i2c.readn` from the idle block `s` keeps: LEN, the index below it, and the bytes outside
RAW[0..LEN-1]. -/
structure ReadnReaches (s u : State) : Prop where
  len : u.len = s.len
  index : ∀ c p, u.seq = .run c p → (Next.goto p).indexBelow s.lenNat
  bytes : sameBytes (fun off => ¬(0x100 ≤ off ∧ off < 0x100 + s.len.toNat)) s u

theorem ReadnReaches.congr {s u v : State} (h : ReadnReaches s u) (hlen : v.len = u.len) (hseq : v.seq = u.seq)
    (hmem : v.mem = u.mem) (hepoch : v.epoch = u.epoch) : ReadnReaches s v where
  len := hlen.trans h.len
  index c p hp := h.index c p (hseq.symm.trans hp)
  bytes off hoff := (bufferByte_congr hmem hepoch off).trans (h.bytes off hoff)

/-- A point of `i2c.readn`, whatever the sequencer is set to after it. -/
theorem ReadnReaches.point {s u v : State} {c : Byte} {p : Progress} {nx : Next} (h : ReadnReaches s u)
    (hp : u.seq = .run c p) (hbody : i2cReadnBody p u = some (v, nx)) :
    v.len = s.len ∧ nx.indexBelow s.lenNat ∧
      sameBytes (fun off => ¬(0x100 ≤ off ∧ off < 0x100 + s.len.toNat)) s v := by
  have hlen : u.lenNat = s.lenNat := congrArg BitVec.toNat h.len
  have hindex := h.index c p hp
  have hvlen : v.len = u.len := by
    rw [onlyWrites_onlyI2cRun rfl (bodyOf_writes .i2cReadn p u v nx hbody)]
  have hbytes : sameBytes (fun off => ¬(0x100 ≤ off ∧ off < 0x100 + s.len.toNat)) u v := by
    refine i2cReadnBody_sameBytes (fun k hk _ => ?_) hbody
    subst hk
    have hk : k < s.len.toNat := hindex
    unfold rawBase
    omega
  refine ⟨hvlen.trans h.len, ?_, fun off hoff => (hbytes off hoff).trans (h.bytes off hoff)⟩
  rw [← hlen] at hindex ⊢
  exact i2cReadnBody_indexBelow hindex hbody

theorem exec_i2cReadn_sameBytes {s t : State} (hseq : s.seq = .idle) (h : exec .i2cReadn s = .next t) :
    sameBytes (fun off => ¬(0x100 ≤ off ∧ off < 0x100 + s.len.toNat)) s t := by
  have hstart : ReadnReaches s (s.begin (encode .i2cReadn)) := by
    rw [begin_idle _ hseq]
    refine ⟨rfl, ?_, fun _ _ => rfl⟩
    rintro c p ⟨⟩
    trivial
  rw [of_exec_next h]
  refine (runBody_inv (ReadnReaches s) i2cReadnBody ?_ ?_ ?_ ?_ _ _ hstart).bytes
  · exact fun u hu => hu.congr (passPoint_len u) (passPoint_seq u) (passPoint_mem u) (passPoint_epoch u)
  · exact fun u hu => hu.congr (waitPoint_len u) (waitPoint_seq u) (waitPoint_mem u) (waitPoint_epoch u)
  · intro c p u v p' hp hu hbody
    obtain ⟨hlen, hindex, hbytes⟩ := hu.point hp hbody
    refine ⟨hlen, ?_, hbytes⟩
    rintro c' p'' ⟨⟩
    exact hindex
  · intro c p u v r hp hu hbody
    obtain ⟨hlen, -, hbytes⟩ := hu.point hp hbody
    exact ⟨hlen, nofun, hbytes⟩

theorem exec_i2c_sameBytes_outside_raw_span {i : Instr} (hi : isI2cCommand i = true) {s t : State}
    (hseq : s.seq = .idle) (h : exec i s = .next t) :
    sameBytes (fun off => ¬(0x100 ≤ off ∧ off < 0x100 + s.len.toNat)) s t := by
  by_cases hreadn : i = .i2cReadn
  · subst hreadn
    exact exec_i2cReadn_sameBytes hseq h
  · exact fun off _ => exec_i2c_sameBuffers hi hreadn h off trivial

/-- Settles O39: the fields that the points of the I2C commands write, and the index at which `i2c.readn` stores. -/
theorem i2cFrame : Obligations.I2cFrame := by
  intro i s t hunit h
  have hi : isI2cCommand i = true := by
    obtain rfl | rfl | rfl | ⟨_, rfl⟩ | rfl | rfl | rfl := hunit <;> rfl
  have hrun := exec_onlyI2cRun hi h
  refine ⟨fun hread => exec_i2c_data hi hread h, ?len, ?flen, ?crc, ?i2cAddr, ?discovery, ?misuse, ?outside, ?drive,
    fun hreadn => exec_i2c_sameBuffers hi hreadn h, exec_i2c_sameBytes_outside_raw hi h,
    fun hseq => exec_i2c_sameBytes_outside_raw_span hi hseq h⟩ <;> rw [hrun]
  case discovery => exact ⟨rfl, rfl, rfl, rfl, rfl⟩
  case misuse => exact ⟨rfl, rfl⟩
  case outside => exact ⟨rfl, rfl, rfl, rfl⟩

end Sys2Proof.Machine
end

section
/-! SUPPORT. The 1-Wire line: every step keeps it released outside a slot or reset pulse, and on the way to its release
inside one. -/

namespace Sys2Proof.Machine

/-! ### What the line invariant asks at a point (R201) -/

/-- What the line invariant asks of `t` where a command goes on to another point, or completes. -/
def Next.lineOk (nx : Next) (t : State) : Prop :=
  match nx with
  | .goto (.slot todo _ _) => driveAfter t.owiDrive todo = false
  | _ => t.owiDrive = false

theorem lineOk_idle_iff {s : State} (hseq : s.seq = .idle) : s.lineOk ↔ s.owiDrive = false := by
  simp [State.lineOk, hseq]

theorem lineOk_run_iff {s : State} {c : Byte} {p : Progress} (hseq : s.seq = .run c p) :
    s.lineOk ↔ (Next.goto p).lineOk s := by
  cases p <;> simp only [State.lineOk, hseq] <;> rfl

/-- The invariant speaks of the sequencer and OWI_DRIVE only. -/
theorem lineOk_congr {s t : State} (hseq : t.seq = s.seq) (hdrive : t.owiDrive = s.owiDrive) (hs : s.lineOk) :
    t.lineOk := by
  unfold State.lineOk at *
  rwa [hseq, hdrive]

/-- Outside a slot the line is released. -/
theorem Next.noSlot.lineOk_iff {nx : Next} (h : nx.noSlot) (t : State) : nx.lineOk t ↔ t.owiDrive = false := by
  unfold Next.lineOk
  split
  · exact h.elim
  · rfl

/-! ### The points of the commands (R192 to R194) -/

/-- A command of another unit has no point inside a slot. -/
theorem bodyOf_slot_of_other {i : Instr} (hi : usesLine i = false) (todo : List LineOp) (got : Bool) (job : OwiJob)
    (s : State) : bodyOf i (.slot todo got job) s = none := by
  cases i
  case owiReset | owiWbit | owiRbit | owiWbyte | owiRbyte | owiSfirst | owiSnext => cases hi
  all_goals rfl

/-- `sreset` leaves the line as it is, or clears OWI_DRIVE (R113). -/
theorem sresetBody_owiDrive {p : Progress} {s t : State} {nx : Next} (h : sresetBody p s = some (t, nx))
    (hs : s.owiDrive = false) : t.owiDrive = false := by
  unfold sresetBody at h
  split at h
  · split at h <;> cases h
    · exact hs
    · exact softClear_owiDrive s
  · obtain ⟨s1, -, rfl, -⟩ := of_sresetBody_stop h
    exact softClear_owiDrive s1
  · cases h; exact hs
  · cases h

/-- A command of another unit does not drive the line (R201). -/
theorem bodyOf_owiDrive_of_other {i : Instr} {p : Progress} {s t : State} {nx : Next} (hi : usesLine i = false)
    (h : bodyOf i p s = some (t, nx)) (hs : s.owiDrive = false) : t.owiDrive = false := by
  have hwrites := bodyOf_writes i p s t nx h
  cases i
  case sreset => exact sresetBody_owiDrive h hs
  case owiReset | owiWbit | owiRbit | owiWbyte | owiRbyte | owiSfirst | owiSnext => cases hi
  all_goals
    simp only [onlyWrites] at hwrites
    rw [hwrites]
    exact hs

theorem bodyOf_lineOk_of_other {i : Instr} {p : Progress} {s t : State} {nx : Next} (hi : usesLine i = false)
    (hs : (Next.goto p).lineOk s) (h : bodyOf i p s = some (t, nx)) : nx.lineOk t := by
  have hreleased : s.owiDrive = false := by
    cases p
    case slot todo got job => exact nomatch (bodyOf_slot_of_other hi todo got job s).symm.trans h
    all_goals exact hs
  exact ((bodyOf_noSlot hi h).lineOk_iff t).2 (bodyOf_owiDrive_of_other hi h hreleased)

/-- What a 1-Wire command does where a slot starts or ends: it leaves the line as it is, and goes to a slot that ends
with the line released, or to its end. -/
def LinePoint (s t : State) (nx : Next) : Prop := t.owiDrive = s.owiDrive ∧ ∃ ok, slotOrEnd ok nx

theorem SearchPoint.linePoint {ok : Prop} {s t : State} {nx : Next} (h : SearchPoint ok s t nx) :
    LinePoint s t nx := by
  obtain ⟨ht, -, hnext⟩ := h
  rw [onlyDiscovery] at ht
  exact ⟨by rw [ht], ok, hnext⟩

theorem DataPoint.linePoint {s t : State} {nx : Next} (h : DataPoint s t nx) : LinePoint s t nx := by
  obtain ⟨ht, hnext⟩ := h
  exact ⟨by rw [ht], True, hnext⟩

theorem LinePoint.of_same {s t : State} {nx : Next} (h : t = s ∧ slotOrEnd True nx) : LinePoint s t nx := by
  obtain ⟨rfl, hnext⟩ := h
  exact ⟨rfl, True, hnext⟩

theorem enterSlot_linePoint {ops : List LineOp} {job : OwiJob} {s t : State} {nx : Next}
    (hops : ∀ d, driveAfter d ops = false) (h : enterSlot ops job s = (t, nx)) : LinePoint s t nx := by
  cases h
  exact ⟨rfl, job.legal, .inl ⟨ops, job, rfl, id, hops⟩⟩

/-- A slot is entered with its release still to come, and the command ends with the line released. -/
theorem LinePoint.lineOk {s t : State} {nx : Next} (h : LinePoint s t nx) (hs : s.owiDrive = false) :
    nx.lineOk t := by
  obtain ⟨hdrive, _, ⟨_, _, rfl, -, hops⟩ | ⟨_, rfl⟩⟩ := h
  · exact hops _
  · exact hdrive.trans hs

/-- A line action leaves the same line at the end of the slot as was to come before it. -/
theorem driveAfter_lineOp (s : State) (op : LineOp) (got : Bool) (todo : List LineOp) :
    driveAfter (s.lineOp op got).2.owiDrive todo = driveAfter s.owiDrive (op :: todo) := by
  obtain ⟨_, _, _, -, h⟩ := lineOp_spec s op got
  rw [driveAfter_cons s.owiDrive op todo, h]

theorem owiBody_lineOk {start : State → State × Next} {back : OwiJob → Bool → State → Option (State × Next)}
    {p : Progress} {s t : State} {nx : Next} (hs : (Next.goto p).lineOk s)
    (h : owiBody start back p s = some (t, nx)) (hstart : ∀ s t nx, start s = (t, nx) → LinePoint s t nx)
    (hback : ∀ job got s t nx, back job got s = some (t, nx) → LinePoint s t nx) : nx.lineOk t := by
  rcases of_owiBody h with ⟨rfl, hpoint⟩ | ⟨op, todo, got, job, rfl, rfl, rfl⟩ | ⟨got, job, rfl, hpoint⟩
  · exact (hstart _ _ _ hpoint).lineOk hs
  · exact (driveAfter_lineOp s op got todo).trans hs
  · exact (hback _ _ _ _ _ hpoint).lineOk hs

/-- Every point of every command keeps the line invariant. -/
theorem bodyOf_lineOk {i : Instr} {p : Progress} {s t : State} {nx : Next} (hs : (Next.goto p).lineOk s)
    (h : bodyOf i p s = some (t, nx)) : nx.lineOk t := by
  cases i
  case owiReset =>
    exact owiBody_lineOk hs h (fun _ _ _ => enterSlot_linePoint (driveAfter_resetPulse _))
      (fun _ _ _ _ _ h => .of_same (owiResetBack_point h))
  case owiWbit =>
    exact owiBody_lineOk hs h (fun _ _ _ => enterSlot_linePoint (driveAfter_writeSlot _ · _))
      (fun _ _ _ _ _ h => .of_same (owiWbitBack_point h))
  case owiWbyte =>
    exact owiBody_lineOk hs h (fun _ _ _ => enterSlot_linePoint (driveAfter_writeSlot _ · _))
      (fun _ _ _ _ _ h => .of_same (owiWbyteBack_point h))
  case owiRbit =>
    exact owiBody_lineOk hs h (fun _ _ _ => enterSlot_linePoint (driveAfter_readSlot _))
      (fun _ _ _ _ _ h => (owiRbitBack_point h).linePoint)
  case owiRbyte =>
    exact owiBody_lineOk hs h (fun _ _ _ => enterSlot_linePoint (driveAfter_readSlot _))
      (fun _ _ _ _ _ h => (owiRbyteBack_point h).linePoint)
  case owiSfirst =>
    exact owiBody_lineOk hs h (fun _ _ _ h => (owiSfirstStart_point h).linePoint)
      (fun _ _ _ _ _ h => (searchBack_point h).linePoint)
  case owiSnext =>
    exact owiBody_lineOk hs h (fun _ _ _ h => (searchStart_point h).linePoint)
      (fun _ _ _ _ _ h => (searchBack_point h).linePoint)
  all_goals exact bodyOf_lineOk_of_other rfl hs h

theorem illegalBody_lineOk {p : Progress} {s t : State} {nx : Next} (hs : (Next.goto p).lineOk s)
    (h : illegalBody p s = some (t, nx)) : nx.lineOk t := by
  unfold illegalBody at h
  split at h <;> cases h
  exact hs

/-! ### Runs, host accesses and steps -/

/-- A run whose points keep the line invariant keeps it. -/
theorem runBody_lineOk {body : Body}
    (hbody : ∀ p s t nx, (Next.goto p).lineOk s → body p s = some (t, nx) → nx.lineOk t) (n : Nat) (s : State)
    (hs : s.lineOk) : (runBody body n s).lineOk := by
  refine runBody_inv State.lineOk body ?_ ?_ ?_ ?_ n s hs
  · exact fun u => lineOk_congr (passPoint_seq u) (passPoint_owiDrive u)
  · exact fun u => lineOk_congr (waitPoint_seq u) (waitPoint_owiDrive u)
  · intro c p u t p' hseq hu h
    have hnext := hbody p u t _ ((lineOk_run_iff hseq).1 hu) h
    exact (lineOk_run_iff (s := t.at c p') rfl).2 (by cases p' <;> exact hnext)
  · intro c p u t r hseq hu h
    exact (lineOk_idle_iff (complete_seq t r)).2 (hbody p u t _ ((lineOk_run_iff hseq).1 hu) h)

/-- The first point of a command asks what the idle block asks. -/
theorem begin_lineOk {s : State} (w : Byte) (hs : s.lineOk) : (s.begin w).lineOk := by
  cases hseq : s.seq with
  | idle =>
    rw [begin_idle w hseq]
    exact (lineOk_run_iff (p := .first) rfl).2 ((lineOk_idle_iff hseq).1 hs)
  | run c p => rwa [begin_running w hseq]

/-- The host cannot write OWI_DRIVE (R61). -/
theorem hostWrite_lineOk {s : State} (off : Nat) (v : Byte) (hs : s.lineOk) : (s.hostWrite off v).lineOk := by
  have hpoke : (s.poke off v).lineOk := by
    unfold State.poke
    split
    case h_6 => exact lineOk_congr (setBufferByte_seq s _ v) (setBufferByte_owiDrive s _ v) hs
    all_goals exact hs
  unfold State.hostWrite
  split
  · exact hs
  · split
    · exact hs
    · split
      · exact hs
      · exact hpoke

theorem owiDrive_of_lineOk_of_not_busy {s : State} (hs : s.lineOk) (hbusy : s.busy = false) :
    s.owiDrive = false := by
  have hidle : s.seq = .idle := by
    rw [← Bool.not_eq_true, busy_iff] at hbusy
    exact not_not.1 hbusy
  exact (lineOk_idle_iff hidle).1 hs

/-- Settles O45: each point of a running command keeps the invariant in the form that its next point asks, the host
can change the line by a reset only, and with BUSY = 0 there is no slot. -/
theorem lineIsReleasedBetweenCommands : Obligations.LineIsReleasedBetweenCommands :=
  ⟨fun _ _ hs h => step_inv State.lineOk
    (hhost := fun _ _ hs => hs)
    (hread := fun _ _ hs => hs)
    (hwrite := fun _ off v => hostWrite_lineOk off v)
    (hovr := fun _ hs => hs)
    (hbegin := fun _ w => begin_lineOk w)
    (hreset := fun _ _ _ => reset_lineOk)
    (hrun := fun _ => runBody_lineOk (fun _ _ _ _ => bodyOf_lineOk) _)
    (hillegal := runBody_lineOk (fun _ _ _ _ => illegalBody_lineOk) _)
    hs h,
  fun _ => owiDrive_of_lineOk_of_not_busy⟩

end Sys2Proof.Machine
end

section
/-! SUPPORT. The runs of the 1-Wire bit and byte commands on an idle block, slot by slot, and what the commands leave
alone in every state. -/

namespace Sys2Proof.Machine

/-! ### Through one slot or reset pulse (R192 to R194) -/

/-- The block after a reset pulse. -/
def State.pulsed (s : State) : State :=
  { s with
    owiScript := s.sampleLine.2.owiScript, draws := s.sampleLine.2.draws
    owiDrive := false, trace := resetPulseTrace s.params s.sampleLine.1 ++ s.trace }

/-- The block after a write slot of bit `b`. -/
def State.wroteBit (s : State) (b : Bool) : State :=
  { s with owiDrive := false, trace := writeSlotTrace s.params b ++ s.trace }

/-- The block after a read slot. -/
def State.readBit (s : State) : State :=
  { s with
    owiScript := s.sampleLine.2.owiScript, draws := s.sampleLine.2.draws
    owiDrive := false, trace := readSlotTrace s.params s.sampleLine.1 ++ s.trace }

section
variable {start : State → State × Next} {back : OwiJob → Bool → State → Option (State × Next)} {c : Byte}
  {p : Progress} {job : OwiJob} {s : State}

/-- From a point that enters a slot, through its line actions, to its end. -/
theorem leads_enterSlot {ops : List LineOp}
    (hb : owiBody start back p (s.at c p) = some (enterSlot ops job (s.at c p))) :
    Leads (owiBody start back) c (ops.length + 1) p s (.slot [] (s.lineOps ops false).1 job)
      (s.lineOps ops false).2 :=
  (leads_one rfl hb).trans (leads_slot start back c ops false job s)

theorem leads_pulse (hb : owiBody start back p (s.at c p) = some (enterPulse job (s.at c p))) :
    Leads (owiBody start back) c 7 p s (.slot [] s.sampleLine.1 job) s.pulsed := by
  have h := leads_enterSlot (ops := resetPulse s.params) hb
  rwa [lineOps_resetPulse] at h

theorem leads_writeSlot {b : Bool} (hb : owiBody start back p (s.at c p) = some (enterWrite b job (s.at c p))) :
    Leads (owiBody start back) c 5 p s (.slot [] false job) (s.wroteBit b) := by
  have h := leads_enterSlot (ops := writeSlot s.params b) hb
  rwa [lineOps_writeSlot] at h

theorem leads_readSlot (hb : owiBody start back p (s.at c p) = some (enterRead job (s.at c p))) :
    Leads (owiBody start back) c 7 p s (.slot [] s.sampleLine.1 job) s.readBit := by
  have h := leads_enterSlot (ops := readSlot s.params) hb
  rwa [lineOps_readSlot] at h

end

/-- A sample changes no field but the script and the draws. -/
theorem of_sampleLine {s s1 : State} {b : Bool} (h : s.sampleLine = (b, s1)) :
    s1 = { s with owiScript := s1.owiScript, draws := s1.draws } := by
  have hself := sampleLine_congr (s := s) (t := s) rfl rfl
  rw [h] at hself
  exact congrArg Prod.snd hself

/-- A last point that writes DATA and completes with OK. -/
theorem ends_data {body : Body} {c : Byte} {p : Progress} {s : State} {v : Byte} (hseq : s.seq = .idle)
    (hb : body p (s.at c p) = some (finish { s.at c p with data := v })) :
    Ends body c 1 p s { s with result := .ok, data := v } := by
  have hdone := at_complete (s := { s with data := v }) c p .ok hseq
  rw [← hdone]
  exact ends_one hb

/-! ### `owi.reset` (R196) -/

theorem exec_owiReset {s : State} (hs : s.ready) :
    exec .owiReset s = .next { s.pulsed with result := if s.sampleLine.1 then .eOwiNoPres else .ok } := by
  have hpulse := leads_pulse (start := enterPulse .pulse) (back := owiResetBack) (c := encode .owiReset)
    (p := .first) (job := .pulse) (s := s) rfl
  exact exec_of_ends hs (hpulse.ends (ends_at hs.1 rfl)) (by decide)

/-- Settles O41: one reset pulse, whose sample decides the result only. -/
theorem owiResetCompletes : Obligations.OwiResetCompletes := by
  refine ⟨rfl, fun s s1 b hs hsample => ?_⟩
  rw [exec_owiReset hs, State.pulsed, hsample, of_sampleLine hsample]
  rfl

/-! ### `owi.wbit` and `owi.rbit` (R197, R198) -/

theorem exec_owiWbit {s : State} (hs : s.ready) :
    exec .owiWbit s = .next { s.wroteBit (s.data.getLsbD 0) with result := .ok } := by
  have hslot := leads_writeSlot (start := owiWbitStart) (back := owiWbitBack) (c := encode .owiWbit)
    (p := .first) (job := .wbit) (s := s) rfl
  exact exec_of_ends hs (hslot.ends (ends_at hs.1 rfl)) (by decide)

theorem exec_owiRbit {s : State} (hs : s.ready) :
    exec .owiRbit s = .next { s.readBit with result := .ok, data := zextBit s.sampleLine.1 } := by
  have hslot := leads_readSlot (start := enterRead .rbit) (back := owiRbitBack) (c := encode .owiRbit)
    (p := .first) (job := .rbit) (s := s) rfl
  exact exec_of_ends hs (hslot.ends (ends_data hs.1 rfl)) (by decide)

/-- Settles O42: one write slot of DATA[0], and one read slot whose sample goes to DATA. -/
theorem owiBitCommandsComplete : Obligations.OwiBitCommandsComplete := by
  refine ⟨rfl, rfl, fun s hs => ⟨fun hbit => ?one, fun hbit => ?zero, fun b s1 hsample => ?read⟩⟩
  case one =>
    rw [exec_owiWbit hs, hbit]
    rfl
  case zero =>
    rw [exec_owiWbit hs, hbit]
    rfl
  case read =>
    rw [exec_owiRbit hs, State.readBit, hsample, of_sampleLine hsample]
    rfl

/-! ### The eight write slots of a byte (R195, R199) -/

/-- The trace of the write slots of bits 0..n-1 of `v`, newest event first. -/
def writeBitsTrace (p : Params) (v : Byte) (n : Nat) : List BusEvent :=
  ((List.range n).reverse.map (fun i => writeSlotTrace p (v.getLsbD i))).flatten

theorem writeBitsTrace_eight (p : Params) (v : Byte) : writeBitsTrace p v 8 = writeByteTrace p v := rfl

theorem writeBitsTrace_succ (p : Params) (v : Byte) (n : Nat) :
    writeBitsTrace p v (n + 1) = writeSlotTrace p (v.getLsbD n) ++ writeBitsTrace p v n := by
  simp [writeBitsTrace, List.range_succ]

/-- The block after the write slots of bits 0..n-1 of `v`. -/
def State.wroteBits (s : State) (v : Byte) (n : Nat) : State :=
  { s with owiDrive := false, trace := writeBitsTrace s.params v n ++ s.trace }

theorem wroteBits_succ (s : State) (v : Byte) (n : Nat) :
    s.wroteBits v (n + 1) = (s.wroteBits v n).wroteBit (v.getLsbD n) := by
  simp only [State.wroteBits, State.wroteBit, writeBitsTrace_succ, List.append_assoc]

/-- A command that goes on from the slot of each bit of `v` to that of the next writes bits 0..n of `v`. -/
theorem leads_writeBits {start : State → State × Next} {back : OwiJob → Bool → State → Option (State × Next)}
    {c : Byte} {p : Progress} {job : Nat → OwiJob} {s : State} {v : Byte}
    (hb : owiBody start back p (s.at c p) = some (enterWrite (v.getLsbD 0) (job 0) (s.at c p)))
    (hback : ∀ (u : State) i got, i < 7 → u.params = s.params → u.data = s.data →
      back (job i) got u = some (enterWrite (v.getLsbD (i + 1)) (job (i + 1)) u))
    {n : Nat} (hn : n ≤ 7) :
    Leads (owiBody start back) c (5 * (n + 1)) p s (.slot [] false (job n)) (s.wroteBits v (n + 1)) := by
  induction n with
  | zero => exact leads_writeSlot hb
  | succ n ih =>
    have hnext := leads_writeSlot (start := start) (c := c) (s := s.wroteBits v (n + 1)) (p := .slot [] false (job n))
      (hback _ n false (by omega) rfl rfl)
    rw [Nat.mul_succ, Nat.add_comm, wroteBits_succ]
    exact (ih (by omega)).trans hnext

theorem owiWbyteBack_next {i : Nat} (hi : i < 7) (got : Bool) (s : State) :
    owiWbyteBack (.wbyte i) got s = some (enterWrite (s.data.getLsbD (i + 1)) (.wbyte (i + 1)) s) :=
  congrArg some (if_pos hi)

theorem exec_owiWbyte {s : State} (hs : s.ready) :
    exec .owiWbyte s = .next { s.wroteBits s.data 8 with result := .ok } := by
  have hbits := leads_writeBits (start := owiWbyteStart) (back := owiWbyteBack) (c := encode .owiWbyte) (p := .first)
    (job := .wbyte) (s := s) (v := s.data) rfl
    (fun u i got hi _ hdata => by rw [owiWbyteBack_next hi, hdata]) le_rfl
  exact exec_of_ends hs (hbits.ends (ends_at hs.1 rfl)) (by decide)

/-! ### The bits of a byte, one by one (R10) -/

theorem getLsbD_setBit (v : Byte) {i : Nat} (hi : i < 8) (b : Bool) (j : Nat) :
    (setBit v i b).getLsbD j = if j = i then b else v.getLsbD j := by
  change (if b then v ||| BitVec.twoPow 8 i else v &&& ~~~BitVec.twoPow 8 i).getLsbD j = _
  by_cases hj : j = i
  · subst hj
    cases b <;> simp [hi]
  · have hother : (BitVec.twoPow 8 i).getLsbD j = false := by simp [Ne.symm hj]
    cases b
    · simpa [hj, hother] using BitVec.lt_of_getLsbD (x := v) (i := j)
    · simp [hj, hother]

/-- `v` with its bits from `i` on set to `bits`, in order. -/
def setBits (v : Byte) (i : Nat) (bits : List Bool) : Byte :=
  match bits with
  | [] => v
  | b :: bits => setBits (setBit v i b) (i + 1) bits

theorem getLsbD_setBits_below (v : Byte) {i j : Nat} {bits : List Bool} (hlen : i + bits.length ≤ 8) (hj : j < i) :
    (setBits v i bits).getLsbD j = v.getLsbD j := by
  induction bits generalizing v i with
  | nil => rfl
  | cons b bits ih =>
    rw [List.length_cons] at hlen
    rw [setBits, ih _ (by omega) (by omega), getLsbD_setBit v (by omega), if_neg (by omega)]

theorem getLsbD_setBits (v : Byte) {i k : Nat} {bits : List Bool} (hlen : i + bits.length ≤ 8)
    (hk : k < bits.length) : (setBits v i bits).getLsbD (i + k) = bits[k] := by
  induction bits generalizing v i k with
  | nil => exact absurd hk (Nat.not_lt_zero k)
  | cons b bits ih =>
    rw [List.length_cons] at hlen hk
    rw [setBits]
    cases k with
    | zero =>
      change (setBits (setBit v i b) (i + 1) bits).getLsbD i = b
      rw [getLsbD_setBits_below _ (by omega) (by omega), getLsbD_setBit v (by omega), if_pos rfl]
    | succ k =>
      rw [← Nat.add_assoc, Nat.add_right_comm]
      exact ih _ (by omega) (by omega)

/-! ### The eight read slots of a byte (R195, R200) -/

/-- The next samples depend on the script and the draws only, and change nothing else. -/
theorem nextSamples_congr {s t : State} (hscript : t.owiScript = s.owiScript) (hdraws : t.draws = s.draws) (n : Nat) :
    t.nextSamples n = ((s.nextSamples n).1,
      { t with owiScript := (s.nextSamples n).2.owiScript, draws := (s.nextSamples n).2.draws }) := by
  induction n generalizing s t with
  | zero => simp [State.nextSamples, ← hscript, ← hdraws]
  | succ n ih =>
    have hrest := ih (s := s.sampleLine.2)
      (t := { t with owiScript := s.sampleLine.2.owiScript, draws := s.sampleLine.2.draws }) rfl rfl
    simp only [State.nextSamples, sampleLine_congr hscript hdraws, hrest]

theorem nextSamples_length (s : State) (n : Nat) : (s.nextSamples n).1.length = n := by
  induction n generalizing s with
  | zero => rfl
  | succ n ih => rw [State.nextSamples, List.length_cons, ih]

/-- The block after `n` read slots. -/
def State.readBits (s : State) : Nat → State
  | 0 => s
  | n + 1 => s.readBit.readBits n

/-- A read slot takes the first of the samples to come. -/
theorem readBit_nextSamples (s : State) (n : Nat) :
    s.readBit.nextSamples n = ((s.sampleLine.2.nextSamples n).1,
      { s.readBit with
        owiScript := (s.sampleLine.2.nextSamples n).2.owiScript, draws := (s.sampleLine.2.nextSamples n).2.draws }) :=
  nextSamples_congr (s := s.sampleLine.2) (t := s.readBit) rfl rfl n

theorem readBits_eq (s : State) (n : Nat) :
    s.readBits n = { (s.nextSamples n).2 with
      owiDrive := (s.readBits n).owiDrive
      trace := ((s.nextSamples n).1.reverse.map (readSlotTrace s.params)).flatten ++ s.trace } := by
  induction n generalizing s with
  | zero => rfl
  | succ n ih =>
    rw [State.readBits, ih, State.nextSamples, readBit_nextSamples, nextSamples_congr (s := s.sampleLine.2) rfl rfl]
    simp [State.readBit]

theorem readBits_owiDrive (s : State) (n : Nat) : (s.readBits (n + 1)).owiDrive = false := by
  induction n generalizing s with
  | zero => rfl
  | succ n ih => exact ih s.readBit

theorem owiRbyteBack_next {i : Nat} (hi : i < 7) (v : Byte) (got : Bool) (s : State) :
    owiRbyteBack (.rbyte i v) got s = some (enterRead (.rbyte (i + 1) (setBit v i got)) s) :=
  congrArg some (if_pos hi)

/-- `owi.rbyte` from the point that enters the slot of bit `i`, with `n` more slots to come after it, to its end. -/
theorem ends_readBits {start : State → State × Next} {c : Byte} {p : Progress} {n i : Nat} {v : Byte} {s : State}
    (hi : i + n = 7) (hseq : s.seq = .idle)
    (hb : owiBody start owiRbyteBack p (s.at c p) = some (enterRead (.rbyte i v) (s.at c p))) :
    Ends (owiBody start owiRbyteBack) c (7 * (n + 1) + 1) p s
      { s.readBits (n + 1) with result := .ok, data := setBits v i (s.nextSamples (n + 1)).1 } := by
  induction n generalizing i v s p with
  | zero =>
    obtain rfl : i = 7 := hi
    exact (leads_readSlot hb).ends (ends_data hseq rfl)
  | succ n ih =>
    have hnext (u : State) := owiRbyteBack_next (show i < 7 by omega) v s.sampleLine.1 u
    have hrest := ih (s := s.readBit) (p := .slot [] s.sampleLine.1 (.rbyte i v)) (show i + 1 + n = 7 by omega) hseq
      (hnext _)
    rw [readBit_nextSamples] at hrest
    rw [Nat.mul_succ, Nat.add_right_comm]
    exact (leads_readSlot hb).ends hrest

theorem exec_owiRbyte {s : State} (hs : s.ready) :
    exec .owiRbyte s = .next { s.readBits 8 with result := .ok, data := setBits 0x00 0 (s.nextSamples 8).1 } :=
  exec_of_ends hs (ends_readBits (start := enterRead (.rbyte 0 0x00)) (p := .first) (n := 7) rfl hs.1 rfl) (by decide)

/-- Settles O43: eight write slots of the bits of DATA, and eight read slots whose samples are set in a byte bit by
bit. -/
theorem owiByteCommandsComplete : Obligations.OwiByteCommandsComplete := by
  refine ⟨rfl, rfl, fun s hs => ⟨?write, fun bits s1 hsamples => ⟨_, exec_owiRbyte hs, ?read, fun i hi => ?bit⟩⟩⟩
  case write =>
    rw [exec_owiWbyte hs, State.wroteBits, writeBitsTrace_eight]
  case read =>
    rw [readBits_eq, readBits_owiDrive, hsamples]
  case bit =>
    have hlen : bits.length = 8 := by rw [← nextSamples_length s 8, hsamples]
    have hbit := getLsbD_setBits 0x00 (i := 0) (k := i) (bits := bits) (by omega) (by omega)
    rw [Nat.zero_add] at hbit
    rw [hsamples, List.getElem?_eq_getElem (by omega)]
    exact congrArg some hbit

/-! ### What the commands leave alone (R196 to R200) -/

/-- The command is a 1-Wire bit or byte command, or `owi.reset` (R92). -/
def isOwiBusCommand (i : Instr) : Bool :=
  match i with
  | .owiReset | .owiWbit | .owiRbit | .owiWbyte | .owiRbyte => true
  | _ => false

/-- From `s` to `t` only DATA, the 1-Wire line and the samples taken, the trace, RESULT, the sequencer, the host's queue
and the answers that the I2C environment used up may have changed. -/
def onlyOwiBusRun (s t : State) : Prop :=
  t = { s with
    data := t.data, owiDrive := t.owiDrive, trace := t.trace, owiScript := t.owiScript
    result := t.result, seq := t.seq, host := t.host, i2cScript := t.i2cScript, draws := t.draws }

theorem onlyOwiBusRun.trans {s t u : State} (h : onlyOwiBusRun s t) (h' : onlyOwiBusRun t u) : onlyOwiBusRun s u := by
  unfold onlyOwiBusRun at *
  rw [h', h]

theorem onlyWrites_onlyOwiBusRun {i : Instr} (hi : isOwiBusCommand i = true) {s t : State} (h : onlyWrites i s t) :
    onlyOwiBusRun s t := by
  unfold onlyOwiBusRun
  cases i
  case owiReset | owiWbit | owiRbit | owiWbyte | owiRbyte =>
    rw [onlyWrites] at h
    rw [h]
  all_goals cases hi

theorem exec_onlyOwiBusRun {i : Instr} (hi : isOwiBusCommand i = true) {s t : State} (h : exec i s = .next t) :
    onlyOwiBusRun s t :=
  exec_rel onlyOwiBusRun i (hrefl := fun _ => rfl) (htrans := fun _ _ _ => .trans) (hseq := fun _ _ => rfl)
    (hdone := fun _ _ => rfl) (hhost := fun _ _ => rfl) (hwait := fun _ _ _ => rfl)
    (hwrites := fun _ _ => onlyWrites_onlyOwiBusRun hi) h

/-- Of these commands only `owi.rbit` and `owi.rbyte` write DATA. -/
theorem onlyWrites_owi_data {i : Instr} (hi : isOwiBusCommand i = true) (hrbit : i ≠ .owiRbit)
    (hrbyte : i ≠ .owiRbyte) {s t : State} (h : onlyWrites i s t) : t.data = s.data := by
  cases i
  case owiRbit => exact absurd rfl hrbit
  case owiRbyte => exact absurd rfl hrbyte
  case owiReset | owiWbit | owiWbyte =>
    rw [onlyWrites] at h
    rw [h]
  all_goals cases hi

theorem exec_owi_data {i : Instr} (hi : isOwiBusCommand i = true) (hrbit : i ≠ .owiRbit) (hrbyte : i ≠ .owiRbyte)
    {s t : State} (h : exec i s = .next t) : t.data = s.data :=
  exec_rel (fun s t => t.data = s.data) i (hrefl := fun _ => rfl) (htrans := fun _ _ _ h h' => h'.trans h)
    (hseq := fun _ _ => rfl) (hdone := fun _ _ => rfl) (hhost := fun _ _ => rfl) (hwait := fun _ _ _ => rfl)
    (hwrites := fun _ _ => onlyWrites_owi_data hi hrbit hrbyte) h

/-- Settles O44: the fields that the points of the five commands write. -/
theorem owiFrame : Obligations.OwiFrame := by
  intro i s t hunit h
  have hi : isOwiBusCommand i = true := by
    obtain rfl | rfl | rfl | rfl | rfl := hunit <;> rfl
  refine ⟨fun hrbit hrbyte => exec_owi_data hi hrbit hrbyte h, ?_⟩
  rw [exec_onlyOwiBusRun hi h]
  exact ⟨rfl, rfl, rfl, rfl, ⟨rfl, rfl, rfl, rfl⟩, ⟨rfl, rfl, rfl, rfl, rfl⟩, ⟨rfl, rfl⟩, ⟨rfl, rfl, rfl, rfl⟩,
    fun _ _ => rfl⟩

end Sys2Proof.Machine
end

section
/-! SUPPORT. ROM addresses bit by bit, and the CRC-8: its zero test is the check of a valid ROM address. -/

namespace Sys2Proof.Machine

/-! ### The bytes and bits of a ROM address (R221) -/

theorem romByteOf_of_lt (rom : Vector Byte 8) {k : Nat} (hk : k < 8) : romByteOf rom k = rom[k] := by
  simp [romByteOf, hk]

theorem romByteOf_setIfInBounds (rom : Vector Byte 8) {i : Nat} (hi : i < 8) (v : Byte) (k : Nat) :
    romByteOf (rom.setIfInBounds i v) k = if k = i then v else romByteOf rom k := by
  unfold romByteOf
  rw [Vector.getElem?_setIfInBounds]
  by_cases hk : k = i
  · subst hk
    simp [hi]
  · simp [hk, Ne.symm hk]

theorem romBitOf_setRomBitOf (rom : Vector Byte 8) {n m : Nat} (hn : 1 ≤ n) (hn64 : n ≤ 64) (hm : 1 ≤ m) (d : Bool) :
    romBitOf (setRomBitOf rom n d) m = if m = n then d else romBitOf rom m := by
  unfold romBitOf setRomBitOf
  rw [romByteOf_setIfInBounds rom (by omega)]
  by_cases hbyte : (m - 1) / 8 = (n - 1) / 8
  · rw [if_pos hbyte, getLsbD_setBit _ (by omega), hbyte]
    have hiff : (m - 1) % 8 = (n - 1) % 8 ↔ m = n := by omega
    simp only [hiff]
  · rw [if_neg hbyte, if_neg (by rintro rfl; exact hbyte rfl)]

/-- Two ROM addresses with the same 64 bits are the same. -/
theorem rom_ext {a b : Vector Byte 8} (h : ∀ n, 1 ≤ n → n ≤ 64 → romBitOf a n = romBitOf b n) : a = b := by
  refine Vector.ext fun k hk => BitVec.eq_of_getLsbD_eq fun j hj => ?_
  have hbit := h (8 * k + j + 1) (by omega) (by omega)
  have hbyte : (8 * k + j + 1 - 1) / 8 = k := by omega
  have hpos : (8 * k + j + 1 - 1) % 8 = j := by omega
  unfold romBitOf at hbit
  rwa [hbyte, hpos, romByteOf_of_lt a hk, romByteOf_of_lt b hk] at hbit

theorem take_succ_rom (rom : Vector Byte 8) {k : Nat} (hk : k < 8) :
    rom.toList.take (k + 1) = rom.toList.take k ++ [romByteOf rom k] := by
  rw [romByteOf_of_lt rom hk, List.take_succ_eq_append_getElem (by simpa using hk)]
  simp

/-- A bit of byte `k` or of a later byte leaves the first `k` bytes alone. -/
theorem take_setRomBitOf (rom : Vector Byte 8) {n k : Nat} (hk : k ≤ (n - 1) / 8) (d : Bool) :
    (setRomBitOf rom n d).toList.take k = rom.toList.take k := by
  unfold setRomBitOf
  rw [Vector.toList_setIfInBounds, List.take_set_of_le hk]

/-! ### The CRC-8 (R222) -/

theorem crc8_append_singleton (bytes : List Byte) (b : Byte) : crc8 (bytes ++ [b]) = crc8Update (crc8 bytes) b := by
  simp [crc8]

/-- A shift loses no 1: the polynomial has its top bit set, which a shifted register has not. -/
theorem crc8Shift_eq_zero_iff (c : Byte) : crc8Shift c = 0x00 ↔ c = 0x00 := by
  refine ⟨fun h => ?_, fun h => by subst h; rfl⟩
  unfold crc8Shift at h
  split at h
  · have htop := congrArg (BitVec.getLsbD · 7) h
    simp [Config.crc8Poly] at htop
  · rename_i hlow
    have hlow : c.toNat % 2 = 0 := by simpa [BitVec.getLsbD, Nat.testBit] using hlow
    have hhigh : c.toNat / 2 = 0 := by simpa [Nat.shiftRight_eq_div_pow] using congrArg BitVec.toNat h
    exact BitVec.eq_of_toNat_eq (by simp; omega)

theorem repeat_crc8Shift_eq_zero_iff (n : Nat) (c : Byte) : Nat.repeat crc8Shift n c = 0x00 ↔ c = 0x00 := by
  induction n with
  | zero => rfl
  | succ n ih => rw [Nat.repeat, crc8Shift_eq_zero_iff, ih]

theorem crc8Update_eq_zero_iff (c b : Byte) : crc8Update c b = 0x00 ↔ b = c := by
  rw [crc8Update, repeat_crc8Shift_eq_zero_iff]
  exact BitVec.xor_eq_zero_iff.trans eq_comm

/-- Settles O57: the last byte update is 0 exactly when its byte cancels the register. -/
theorem crc8ZeroTestIsTheByteCheck : Obligations.Crc8ZeroTestIsTheByteCheck := by
  intro bytes b
  rw [crc8_append_singleton, crc8Update_eq_zero_iff]

/-- The zero test of a whole ROM address is the check of its last byte (R220). -/
theorem crc8_rom_eq_zero_iff (rom : Vector Byte 8) :
    crc8 rom.toList = 0x00 ↔ crc8 (rom.toList.take 7) = romByteOf rom 7 := by
  have hall : rom.toList = rom.toList.take 7 ++ [romByteOf rom 7] := by
    rw [← take_succ_rom rom (by decide), List.take_of_length_le (by simp)]
  rw [hall, crc8ZeroTestIsTheByteCheck, ← hall, eq_comm]

theorem romValid_iff (rom : Vector Byte 8) :
    romValid rom = true ↔ crc8 rom.toList = 0x00 ∧ romByteOf rom 0 ≠ 0x00 := by
  rw [crc8_rom_eq_zero_iff]
  simp [romValid]

end Sys2Proof.Machine
end

section
/-! SUPPORT. What the commands leave of the discovery state, what the searches leave alone, and a run that a host
action does not interrupt, whatever the host's queue holds. -/

namespace Sys2Proof.Machine

/-! ### What the other commands leave of the discovery state (R233) -/

/-- Settles O52: only `sreset` and the searches write the discovery registers. -/
theorem otherCommandsKeepTheDiscoveryState : Obligations.OtherCommandsKeepTheDiscoveryState := by
  intro i s t hfirst hnext hsreset h
  have htrans : ∀ a b c : State, sameDiscovery a b → sameDiscovery b c → sameDiscovery a c :=
    fun _ _ _ ⟨hld, hlfd, hldf, hrom, hcrc⟩ ⟨hld', hlfd', hldf', hrom', hcrc'⟩ =>
      ⟨hld'.trans hld, hlfd'.trans hlfd, hldf'.trans hldf, hrom'.trans hrom, hcrc'.trans hcrc⟩
  exact exec_rel sameDiscovery i (hrefl := fun _ => ⟨rfl, rfl, rfl, rfl, rfl⟩) (htrans := htrans)
    (hseq := fun _ _ => ⟨rfl, rfl, rfl, rfl, rfl⟩) (hdone := fun _ _ => ⟨rfl, rfl, rfl, rfl, rfl⟩)
    (hhost := fun _ _ => ⟨rfl, rfl, rfl, rfl, rfl⟩) (hwait := fun _ _ _ => ⟨rfl, rfl, rfl, rfl, rfl⟩)
    (hwrites := fun _ _ hw => onlyWrites_sameDiscovery hw hsreset hfirst hnext) h

/-! ### What the searches leave alone (R228, R229) -/

/-- From `s` to `t` only the discovery registers, the 1-Wire line and the samples taken, the trace, RESULT, the
sequencer, the host's queue and the answers that the I2C environment used up may have changed. -/
def onlySearchRun (s t : State) : Prop :=
  t = { s with
    srchLd := t.srchLd, srchLfd := t.srchLfd, ldf := t.ldf, rom := t.rom, owiCrc8 := t.owiCrc8
    owiDrive := t.owiDrive, trace := t.trace, owiScript := t.owiScript
    result := t.result, seq := t.seq, host := t.host, i2cScript := t.i2cScript, draws := t.draws }

theorem onlySearchRun.trans {s t u : State} (h : onlySearchRun s t) (h' : onlySearchRun t u) : onlySearchRun s u := by
  unfold onlySearchRun at *
  rw [h', h]

theorem onlyWrites_onlySearchRun {i : Instr} (hi : i = .owiSfirst ∨ i = .owiSnext) {s t : State}
    (h : onlyWrites i s t) : onlySearchRun s t := by
  unfold onlySearchRun
  obtain rfl | rfl := hi <;> rw [onlyWrites] at h <;> rw [h]

theorem exec_onlySearchRun {i : Instr} (hi : i = .owiSfirst ∨ i = .owiSnext) {s t : State}
    (h : exec i s = .next t) : onlySearchRun s t :=
  exec_rel onlySearchRun i (hrefl := fun _ => rfl) (htrans := fun _ _ _ => .trans) (hseq := fun _ _ => rfl)
    (hdone := fun _ _ => rfl) (hhost := fun _ _ => rfl) (hwait := fun _ _ _ => rfl)
    (hwrites := fun _ _ => onlyWrites_onlySearchRun hi) h

/-- Settles O50: the fields that the points of a search write. -/
theorem searchFrame : Obligations.SearchFrame := by
  intro i s t hi h
  rw [exec_onlySearchRun hi h]
  exact ⟨⟨rfl, rfl, rfl, rfl, rfl⟩, ⟨rfl, rfl, rfl, rfl⟩, ⟨rfl, rfl⟩, ⟨rfl, rfl, rfl, rfl⟩, fun _ _ => rfl⟩

/-! ### A run that no host action interrupts, whatever the queue holds (R70) -/

/-- `s` with the host actions `q` to come. -/
def State.withHost (s : State) (q : List HostEvent) : State := { s with host := q }

/-- A body does the same whatever the host's queue holds, and leaves the queue alone. -/
def HostBlind (body : Body) : Prop :=
  ∀ p s q, body p (s.withHost q) = (body p s).map (Prod.map (·.withHost q) id)

section
variable {body : Body} {n : Nat} {s s' : State} {c : Byte} {p p' : Progress} {r : Result}

theorem runBody_due (hdue : s.hostDue = true) : runBody body n s = s := by
  cases n with
  | zero => rfl
  | succ n => cases hseq : s.seq <;> simp [runBody, hseq, hdue]

theorem runBody_goto_of_not_due (hseq : s.seq = .run c p) (hdue : s.hostDue = false)
    (hb : body p s.passPoint = some (s', .goto p')) : runBody body (n + 1) s = runBody body n (s'.at c p') := by
  simp [runBody, hseq, hdue, hb, State.at]

theorem runBody_complete_of_not_due (hseq : s.seq = .run c p) (hdue : s.hostDue = false)
    (hb : body p s.passPoint = some (s', .complete r)) : runBody body (n + 1) s = s'.complete r := by
  simp [runBody, hseq, hdue, hb]

theorem runBody_wait_of_not_due (hseq : s.seq = .run c p) (hdue : s.hostDue = false)
    (hb : body p s.passPoint = none) : runBody body (n + 1) s = s.passPoint.waitPoint := by
  simp [runBody, hseq, hdue, hb]

end

/-- A run that comes to its end met no host action: it is the run of the block whose queue is empty. -/
theorem runBody_withHost_nil {body : Body} (hblind : HostBlind body) {n : Nat} {s : State}
    (hend : (runBody body n s).seq = .idle) :
    runBody body n (s.withHost []) = (runBody body n s).withHost [] := by
  induction n generalizing s with
  | zero => rfl
  | succ n ih =>
    cases hseq : s.seq with
    | idle =>
      rw [runBody_idle body _ hseq]
      exact runBody_idle body _ hseq
    | run c p =>
      have hseq' : (s.withHost []).seq = .run c p := hseq
      obtain ⟨q, hpass⟩ := passPoint_spec s
      have hpass : s.passPoint = s.withHost q := hpass
      cases hdue : s.hostDue with
      | true =>
        rw [runBody_due hdue, hseq] at hend
        cases hend
      | false =>
        cases hbody : body p s with
        | none =>
          rw [runBody_wait_of_not_due hseq hdue (by rw [hpass, hblind, hbody]; rfl), waitPoint_seq, passPoint_seq,
            hseq] at hend
          cases hend
        | some r =>
          obtain ⟨s', nx⟩ := r
          have hnil : body p (s.withHost []).passPoint = some (s'.withHost [], nx) := by
            change body p (s.withHost []) = _
            rw [hblind, hbody]
            rfl
          have hq : body p s.passPoint = some (s'.withHost q, nx) := by
            rw [hpass, hblind, hbody]
            rfl
          cases nx with
          | goto p' =>
            rw [runBody_goto_of_not_due hseq hdue hq] at hend ⊢
            rw [runBody_goto_of_not_due hseq' rfl hnil]
            exact ih hend
          | complete r =>
            rw [runBody_complete_of_not_due hseq hdue hq, runBody_complete_of_not_due hseq' rfl hnil]
            rfl

theorem lineOp_withHost (s : State) (q : List HostEvent) (op : LineOp) (got : Bool) :
    (s.withHost q).lineOp op got = Prod.map id (·.withHost q) (s.lineOp op got) := by
  cases op with
  | low => rfl
  | release => rfl
  | wait us => rfl
  | sample =>
    rw [lineOp_sample, lineOp_sample, sampleLine_congr (s := s) (t := s.withHost q) rfl rfl]
    rfl

/-- A 1-Wire command is blind to the host's queue if its start and its slot ends are. -/
theorem owiBody_hostBlind {start : State → State × Next} {back : OwiJob → Bool → State → Option (State × Next)}
    (hstart : ∀ s q, start (s.withHost q) = Prod.map (·.withHost q) id (start s))
    (hback : ∀ job got s q, back job got (s.withHost q) = (back job got s).map (Prod.map (·.withHost q) id)) :
    HostBlind (owiBody start back) := by
  intro p s q
  cases p with
  | first => exact congrArg some (hstart s q)
  | slot todo got job =>
    cases todo with
    | nil => exact hback job got s q
    | cons op todo =>
      rw [owiBody, lineOp_withHost]
      rfl
  | _ => rfl

theorem searchStart_withHost (s : State) (q : List HostEvent) :
    searchStart (s.withHost q) = Prod.map (·.withHost q) id (searchStart s) := by
  unfold searchStart
  rw [apply_ite (Prod.map _ _)]
  rfl

theorem noteFamily_withHost (s : State) (q : List HostEvent) (n : Nat) (taken : Bool) :
    (s.withHost q).noteFamily n taken = (s.noteFamily n taken).withHost q := by
  unfold State.noteFamily
  rw [apply_ite (State.withHost · q)]
  rfl

theorem searchChoose_withHost (n lastZero : Nat) (crc : Byte) (bit cmp : Bool) (s : State) (q : List HostEvent) :
    searchChoose n lastZero crc bit cmp (s.withHost q) =
      Prod.map (·.withHost q) id (searchChoose n lastZero crc bit cmp s) := by
  unfold searchChoose
  simp only [apply_ite (Prod.map _ _), noteFamily_withHost]
  rfl

theorem searchAdvance_withHost (n lastZero : Nat) (crc : Byte) (s : State) (q : List HostEvent) :
    searchAdvance n lastZero crc (s.withHost q) = Prod.map (·.withHost q) id (searchAdvance n lastZero crc s) := by
  unfold searchAdvance searchEnd
  rw [apply_ite (Prod.map _ _), apply_ite (Prod.map _ _), apply_ite (Prod.map _ _)]
  rfl

theorem searchBack_withHost (job : OwiJob) (got : Bool) (s : State) (q : List HostEvent) :
    searchBack job got (s.withHost q) = (searchBack job got s).map (Prod.map (·.withHost q) id) := by
  cases job with
  | searchReset => cases got <;> rfl
  | searchCmd i =>
    refine congrArg some ?_
    unfold searchCommand
    rw [apply_ite (Prod.map _ _)]
    rfl
  | searchCmp n lastZero crc bit => exact congrArg some (searchChoose_withHost n lastZero crc bit got s q)
  | searchDir n lastZero crc =>
    refine congrArg some ?_
    unfold searchWritten
    rw [apply_ite (Prod.map _ _), ← searchAdvance_withHost, ← searchAdvance_withHost]
    rfl
  | _ => rfl

theorem search_hostBlind {i : Instr} (hi : i = .owiSfirst ∨ i = .owiSnext) : HostBlind (bodyOf i) := by
  obtain rfl | rfl := hi
  · exact owiBody_hostBlind (fun s => searchStart_withHost s.resetSearch) searchBack_withHost
  · exact owiBody_hostBlind searchStart_withHost searchBack_withHost

/-- A search that an idle block runs to its end answers as with no host action to come. -/
theorem exec_search_withHost_nil {i : Instr} (hi : i = .owiSfirst ∨ i = .owiSnext) {s t : State} (hseq : s.seq = .idle)
    (h : exec i s = .next t) (hend : t.seq = .idle) : exec i (s.withHost []) = .next (t.withHost []) := by
  obtain rfl := of_exec_next h
  rw [begin_idle _ hseq] at hend ⊢
  rw [exec_eq, begin_idle (s := s.withHost []) _ hseq]
  exact congrArg _ (runBody_withHost_nil (search_hostBlind hi) hend)

end Sys2Proof.Machine
end

section
/-! SUPPORT. A search by the samples it will take: the ROM, the last zero, SRCH_LFD and the CRC-8 after each bit
number, and how they meet the words in which the statements speak of a search (R224, R226). -/

namespace Sys2Proof.Machine

/-! ### The samples to come (R190) -/

theorem nextSamples_succ_snd (s : State) (n : Nat) : (s.nextSamples (n + 1)).2 = (s.nextSamples n).2.sampleLine.2 := by
  induction n generalizing s with
  | zero => rfl
  | succ n ih => exact ih s.sampleLine.2

theorem sampleAt_eq (s : State) (n : Nat) : s.sampleAt n = (s.nextSamples n).2.sampleLine.1 := by
  induction n generalizing s with
  | zero => rfl
  | succ n ih => exact ih s.sampleLine.2

/-! ### The state of a search after a number of bits (R224) -/

/-- The direction that a search which starts now takes at bit number `n`. -/
def State.direction (s : State) (n : Nat) : Bool :=
  searchDirection s.rom s.srchLd.toNat n (s.sampleAt (2 * n - 1)) (s.sampleAt (2 * n))

/-- Direction 0 is taken at a discrepancy at bit number `n`. -/
def State.zeroAt (s : State) (n : Nat) : Bool :=
  zeroTaken (s.sampleAt (2 * n - 1)) (s.sampleAt (2 * n)) (s.direction n)

/-- ROM after `n` bit numbers. -/
def State.romAfter (s : State) : Nat → Vector Byte 8
  | 0 => s.rom
  | n + 1 => setRomBitOf (s.romAfter n) (n + 1) (s.direction (n + 1))

/-- `last_zero` after `n` bit numbers. -/
def State.zeroAfter (s : State) : Nat → Nat
  | 0 => 0
  | n + 1 => if s.zeroAt (n + 1) then n + 1 else s.zeroAfter n

/-- SRCH_LFD after `n` bit numbers: the `last_zero` within the first 8 of them, or, if none, what it was. -/
def State.familyAfter (s : State) (n : Nat) : Byte :=
  if s.zeroAfter (min n 8) = 0 then s.srchLfd else BitVec.ofNat 8 (s.zeroAfter (min n 8))

/-- The CRC-8 after `n` bit numbers: that of the whole bytes. -/
def State.crcAfter (s : State) (n : Nat) : Byte := crc8 ((s.romAfter n).toList.take (n / 8))

theorem romBitOf_romAfter (s : State) {n m : Nat} (hn : n ≤ 64) (hm : 1 ≤ m) :
    romBitOf (s.romAfter n) m = if m ≤ n then s.direction m else romBitOf s.rom m := by
  induction n with
  | zero => rw [if_neg (by omega), State.romAfter]
  | succ n ih =>
    rw [State.romAfter, romBitOf_setRomBitOf _ (by omega) hn hm, ih (by omega)]
    by_cases hmn : m = n + 1
    · subst hmn
      simp
    · have hiff : m ≤ n + 1 ↔ m ≤ n := by omega
      simp only [if_neg hmn, hiff]

theorem romBitOf_romAfter_below (s : State) {n m : Nat} (hn : n ≤ 64) (hm : 1 ≤ m) (hmn : m ≤ n) :
    romBitOf (s.romAfter n) m = s.direction m := by
  rw [romBitOf_romAfter s hn hm, if_pos hmn]

theorem romBitOf_romAfter_above (s : State) {n m : Nat} (hn : n ≤ 64) (hmn : n < m) :
    romBitOf (s.romAfter n) m = romBitOf s.rom m := by
  rw [romBitOf_romAfter s hn (by omega), if_neg (by omega)]

theorem zeroAfter_le (s : State) (n : Nat) : s.zeroAfter n ≤ n := by
  induction n with
  | zero => exact le_rfl
  | succ n ih =>
    rw [State.zeroAfter]
    split <;> omega

theorem familyAfter_succ (s : State) (n : Nat) :
    s.familyAfter (n + 1) =
      if s.zeroAt (n + 1) && decide (n + 1 ≤ 8) then BitVec.ofNat 8 (n + 1) else s.familyAfter n := by
  by_cases hn : n + 1 ≤ 8
  · have hmin : min (n + 1) 8 = n + 1 := min_eq_left hn
    have hmin' : min n 8 = n := min_eq_left (by omega)
    cases hzero : s.zeroAt (n + 1) <;> simp [State.familyAfter, hmin', State.zeroAfter, hzero, hn]
  · have hmin : min (n + 1) 8 = min n 8 := by omega
    simp [State.familyAfter, hmin, hn]

theorem crcAfter_succ (s : State) {n : Nat} (hn : n < 64) :
    s.crcAfter (n + 1) = if (n + 1) % 8 = 0 then
      crc8Update (s.crcAfter n) (romByteOf (s.romAfter (n + 1)) ((n + 1) / 8 - 1)) else s.crcAfter n := by
  have hkeep : (s.romAfter (n + 1)).toList.take (n / 8) = (s.romAfter n).toList.take (n / 8) :=
    take_setRomBitOf (s.romAfter n) (n := n + 1) le_rfl _
  split
  · have hbyte : (n + 1) / 8 = n / 8 + 1 := by omega
    rw [State.crcAfter, hbyte, take_succ_rom _ (by omega), crc8_append_singleton, hkeep]
    rfl
  · have hbyte : (n + 1) / 8 = n / 8 := by omega
    rw [State.crcAfter, hbyte, hkeep, State.crcAfter]

theorem crcAfter_all (s : State) : s.crcAfter 64 = crc8 (s.romAfter 64).toList := by
  rw [State.crcAfter, List.take_of_length_le (by simp)]

/-! ### In the words of the statements (R224, R226) -/

section
variable {s t : State} (hscript : t.owiScript = s.owiScript) (hdraws : t.draws = s.draws)
include hscript hdraws

theorem nobodyAnswers_congr (n : Nat) : t.nobodyAnswers n ↔ s.nobodyAnswers n := by
  simp only [State.nobodyAnswers, sampleAt_congr hscript hdraws]

theorem devicesDisagree_congr (n : Nat) : t.devicesDisagree n ↔ s.devicesDisagree n := by
  simp only [State.devicesDisagree, sampleAt_congr hscript hdraws]

theorem abortsAt_congr (n : Nat) : t.abortsAt n ↔ s.abortsAt n := by
  simp only [State.abortsAt, nobodyAnswers_congr hscript hdraws]

theorem chose_congr (hrom : t.rom = s.rom) (ld k : Nat) (rom : Vector Byte 8) :
    t.chose ld k rom ↔ s.chose ld k rom := by
  simp only [State.chose, sampleAt_congr hscript hdraws, devicesDisagree_congr hscript hdraws, hrom]

theorem lastZero_congr (rom : Vector Byte 8) (k z : Nat) : t.lastZero rom k z ↔ s.lastZero rom k z := by
  simp only [State.lastZero, devicesDisagree_congr hscript hdraws]

theorem searchBitsTrace_congr (hparams : t.params = s.params) (rom : Vector Byte 8) (n : Nat) :
    t.searchBitsTrace rom n = s.searchBitsTrace rom n := by
  induction n with
  | zero => rfl
  | succ n ih => simp only [State.searchBitsTrace, sampleAt_congr hscript hdraws, hparams, ih]

theorem searchStartTrace_congr (hparams : t.params = s.params) (htrace : t.trace = s.trace) :
    t.searchStartTrace = s.searchStartTrace := by
  simp only [State.searchStartTrace, sampleAt_congr hscript hdraws, hparams, htrace]

end

/-- The trace of bit numbers 1..n shows those bits of the ROM only. -/
theorem searchBitsTrace_rom_congr (s : State) {a b : Vector Byte 8} {n : Nat}
    (h : ∀ m, 1 ≤ m → m ≤ n → romBitOf a m = romBitOf b m) : s.searchBitsTrace a n = s.searchBitsTrace b n := by
  induction n with
  | zero => rfl
  | succ n ih =>
    rw [State.searchBitsTrace, State.searchBitsTrace, h (n + 1) (by omega) le_rfl,
      ih fun m hm hmn => h m hm (by omega)]

/-- No bit number aborts a search, or a first one does. -/
theorem abortsAt_or_answered (s : State) :
    (∃ n, s.abortsAt n) ∨ ∀ n, 1 ≤ n → n ≤ 64 → ¬s.nobodyAnswers n := by
  classical
  by_cases hex : ∃ n, 1 ≤ n ∧ n ≤ 64 ∧ s.nobodyAnswers n
  · obtain ⟨hn, hn64, hnobody⟩ := Nat.find_spec hex
    refine .inl ⟨Nat.find hex, hn, hn64, hnobody, fun m hm hlt hm' => ?_⟩
    exact Nat.find_min hex hlt ⟨hm, by omega, hm'⟩
  · exact .inr fun n hn hn64 hnobody => hex ⟨n, hn, hn64, hnobody⟩

theorem not_abortsAt_of_answered {s : State} (h : ∀ n, 1 ≤ n → n ≤ 64 → ¬s.nobodyAnswers n) : ¬∃ n, s.abortsAt n :=
  fun ⟨n, hn, hn64, hnobody, _⟩ => h n hn hn64 hnobody

/-- Where a search aborts is one bit number. -/
theorem abortsAt_unique {s : State} {n m : Nat} (hn : s.abortsAt n) (hm : s.abortsAt m) : n = m := by
  obtain ⟨hn1, -, hn2, hn3⟩ := hn
  obtain ⟨hm1, -, hm2, hm3⟩ := hm
  rcases Nat.lt_trichotomy n m with hlt | heq | hlt
  · exact absurd hn2 (hm3 n hn1 hlt)
  · exact heq
  · exact absurd hm2 (hn3 m hm1 hlt)

theorem direction_forced {s : State} {n : Nat} (h : s.sampleAt (2 * n - 1) ≠ s.sampleAt (2 * n)) :
    s.direction n = s.sampleAt (2 * n - 1) := by
  simp [State.direction, searchDirection, h]

theorem direction_disagree {s : State} {n : Nat} (h : s.devicesDisagree n) :
    s.direction n = if n < s.srchLd.toNat then romBitOf s.rom n else decide (n = s.srchLd.toNat) := by
  simp [State.direction, searchDirection, h.1, h.2]

/-- The directions chosen are those of `State.direction`. -/
theorem chose_of_direction {s : State} {k : Nat} {rom : Vector Byte 8}
    (h : ∀ n, 1 ≤ n → n ≤ k → romBitOf rom n = s.direction n) : s.chose s.srchLd.toNat k rom := by
  intro n hn hk
  rw [h n hn hk]
  refine ⟨direction_forced, fun hd hlt => ?_, fun hd heq => ?_, fun hd hgt => ?_⟩ <;> rw [direction_disagree hd]
  · rw [if_pos hlt]
  · simp [heq]
  · rw [if_neg (by omega), decide_eq_false (by omega)]

theorem zeroAt_iff {s : State} {n : Nat} (h : ¬s.nobodyAnswers n) :
    s.zeroAt n = true ↔ s.devicesDisagree n ∧ s.direction n = false := by
  unfold State.nobodyAnswers at h
  unfold State.zeroAt zeroTaken State.devicesDisagree
  cases hid : s.sampleAt (2 * n - 1) <;> cases hcmp : s.sampleAt (2 * n) <;> simp_all

/-- `last_zero` is the highest bit number with direction 0 at a discrepancy, when every bit number is answered. -/
theorem lastZero_zeroAfter {s : State} {k : Nat} {rom : Vector Byte 8}
    (hanswered : ∀ n, 1 ≤ n → n ≤ k → ¬s.nobodyAnswers n)
    (hrom : ∀ n, 1 ≤ n → n ≤ k → romBitOf rom n = s.direction n) : s.lastZero rom k (s.zeroAfter k) := by
  induction k with
  | zero => exact ⟨.inl rfl, fun n hn hk => absurd hk (by rw [State.zeroAfter] at hn; omega)⟩
  | succ k ih =>
    obtain ⟨hhere, habove⟩ := ih (fun n hn hk => hanswered n hn (by omega)) (fun n hn hk => hrom n hn (by omega))
    have hiff := zeroAt_iff (hanswered (k + 1) (by omega) le_rfl)
    rw [← hrom (k + 1) (by omega) le_rfl] at hiff
    rw [State.zeroAfter]
    split
    · rename_i hzero
      exact ⟨.inr ⟨by omega, le_rfl, hiff.1 hzero⟩, fun n hn hk => by omega⟩
    · rename_i hzero
      refine ⟨hhere.imp_right fun ⟨h1, h2, h3⟩ => ⟨h1, by omega, h3⟩, fun n hn hk h => ?_⟩
      rcases Nat.lt_or_eq_of_le hk with hlt | rfl
      · exact habove n hn (by omega) h
      · exact hzero (hiff.2 h)

end Sys2Proof.Machine
end

section
/-! SUPPORT. The run of a search on an idle block, slot by slot, for every choice of the samples. -/

namespace Sys2Proof.Machine

/-! ### The block along a search (R224) -/

/-- The block that a search starts from: for `owi.sfirst` with the search state reset (R228, R229). -/
def State.searchBase (s : State) (i : Instr) : State :=
  match i with
  | .owiSfirst => s.resetSearch
  | _ => s

/-- The block after `n` bit numbers of a search that starts from `s`. -/
def State.searched (s : State) (n : Nat) : State :=
  { s with
    rom := s.romAfter n, srchLfd := s.familyAfter n, owiCrc8 := s.crcAfter n, owiDrive := false
    owiScript := (s.nextSamples (2 * n + 1)).2.owiScript, draws := (s.nextSamples (2 * n + 1)).2.draws
    trace := s.searchBitsTrace (s.romAfter n) n ++ s.searchStartTrace }

/-- The block after `n` bit numbers and the two read slots of the next. -/
def State.searchedRead (s : State) (n : Nat) : State :=
  { s.searched n with
    owiScript := (s.nextSamples (2 * (n + 1) + 1)).2.owiScript, draws := (s.nextSamples (2 * (n + 1) + 1)).2.draws
    trace := readSlotTrace s.params (s.sampleAt (2 * n + 2)) ++
      (readSlotTrace s.params (s.sampleAt (2 * n + 1)) ++ (s.searched n).trace) }

/-- The block after `n` bit numbers, the two read slots of the next, and the choice of its direction. -/
def State.searchedChosen (s : State) (n : Nat) : State :=
  { s.searchedRead n with rom := s.romAfter (n + 1), srchLfd := s.familyAfter (n + 1) }

/-- The block after `n + 1` bit numbers, but for the CRC-8 of the byte that may end there. -/
def State.searchedBits (s : State) (n : Nat) : State := { s.searched (n + 1) with owiCrc8 := s.crcAfter n }

/-- Where a search is about to read bit number `n + 1`. -/
def State.bitPoint (s : State) (n : Nat) : Progress :=
  .slot (readSlot s.params) false (.searchId (n + 1) (s.zeroAfter n) (s.crcAfter n))

/-- Where a search has read both bits of number `n + 1`. -/
def State.cmpPoint (s : State) (n : Nat) : Progress :=
  .slot [] (s.sampleAt (2 * n + 2)) (.searchCmp (n + 1) (s.zeroAfter n) (s.crcAfter n) (s.sampleAt (2 * n + 1)))

/-- Where a search has written the direction of bit number `n + 1`. -/
def State.dirPoint (s : State) (n : Nat) : Progress :=
  .slot [] false (.searchDir (n + 1) (s.zeroAfter (n + 1)) (s.crcAfter n))

/-- `s` with where the next search is to go on: at `lastZero`, or nowhere (R226). -/
def State.reported (s : State) (lastZero : Nat) : State :=
  { s with srchLd := BitVec.ofNat 8 lastZero, ldf := decide (lastZero = 0) }

/-- What the end of a search whose block is `s` leaves (R224). -/
def State.ended (s : State) (lastZero : Nat) (crc : Byte) : State :=
  if crc ≠ 0x00 then { s.resetSearch with result := .eOwiCrc }
  else if romByteOf s.rom 0 = 0x00 then { s.resetSearch with result := .eOwiFamily }
  else { s.reported lastZero with result := .ok }

/-- What a search that starts from `s` leaves if it gets a presence and an answer at each bit number. -/
def State.searchedWhole (s : State) : State := (s.searched 64).ended (s.zeroAfter 64) (s.crcAfter 64)

section
variable (s : State) (n : Nat)

@[simp] theorem searched_rom : (s.searched n).rom = s.romAfter n := rfl
@[simp] theorem searched_owiCrc8 : (s.searched n).owiCrc8 = s.crcAfter n := rfl
@[simp] theorem searched_owiDrive : (s.searched n).owiDrive = false := rfl
@[simp] theorem searched_seq : (s.searched n).seq = s.seq := rfl
@[simp] theorem searched_host : (s.searched n).host = s.host := rfl
@[simp] theorem searched_trace :
    (s.searched n).trace = s.searchBitsTrace (s.romAfter n) n ++ s.searchStartTrace := rfl

end

theorem searched_sampleLine (s : State) (n : Nat) :
    (s.searched n).sampleLine = (s.sampleAt (2 * n + 1), { s.searched n with
      owiScript := (s.nextSamples (2 * n + 2)).2.owiScript, draws := (s.nextSamples (2 * n + 2)).2.draws }) := by
  rw [nextSamples_succ_snd, sampleAt_eq]
  exact sampleLine_congr (s := (s.nextSamples (2 * n + 1)).2) rfl rfl

theorem readBit_readBit_searched (s : State) (n : Nat) : (s.searched n).readBit.readBit = s.searchedRead n := by
  have hfirst : (s.searched n).readBit = { s.searched n with
      owiScript := (s.nextSamples (2 * n + 2)).2.owiScript, draws := (s.nextSamples (2 * n + 2)).2.draws
      trace := readSlotTrace s.params (s.sampleAt (2 * n + 1)) ++ (s.searched n).trace } := by
    rw [State.readBit, searched_sampleLine]
    rfl
  have hsecond := sampleLine_congr (s := (s.nextSamples (2 * n + 2)).2) (t := (s.searched n).readBit)
    (by rw [hfirst]) (by rw [hfirst])
  rw [State.readBit, hsecond, ← sampleAt_eq, ← nextSamples_succ_snd, hfirst]
  rfl

theorem readBit_searched_sample (s : State) (n : Nat) :
    (s.searched n).readBit.sampleLine.1 = s.sampleAt (2 * n + 2) := by
  rw [sampleAt_eq, sampleLine_congr (s := (s.nextSamples (2 * n + 2)).2) (t := (s.searched n).readBit)]
  · rw [State.readBit, searched_sampleLine]
  · rw [State.readBit, searched_sampleLine]

/-! ### Through one bit number (R224) -/

section
variable {start : State → State × Next} {back : OwiJob → Bool → State → Option (State × Next)} {c : Byte}
  {p : Progress} {job : OwiJob} {s s' : State}

/-- A point that writes registers, then enters a slot. -/
theorem leads_enterSlot_from {ops : List LineOp} (hhost : s'.host = s.host)
    (hb : owiBody start back p (s.at c p) = some (enterSlot ops job (s'.at c p))) :
    Leads (owiBody start back) c (ops.length + 1) p s (.slot [] (s'.lineOps ops false).1 job)
      (s'.lineOps ops false).2 :=
  (leads_one hhost hb).trans (leads_slot start back c ops false job s')

theorem leads_pulse_from (hhost : s'.host = s.host)
    (hb : owiBody start back p (s.at c p) = some (enterPulse job (s'.at c p))) :
    Leads (owiBody start back) c 7 p s (.slot [] s'.sampleLine.1 job) s'.pulsed := by
  have h := leads_enterSlot_from (ops := resetPulse s'.params) hhost hb
  rwa [lineOps_resetPulse] at h

theorem leads_writeSlot_from {b : Bool} (hhost : s'.host = s.host)
    (hb : owiBody start back p (s.at c p) = some (enterWrite b job (s'.at c p))) :
    Leads (owiBody start back) c 5 p s (.slot [] false job) (s'.wroteBit b) := by
  have h := leads_enterSlot_from (ops := writeSlot s'.params b) hhost hb
  rwa [lineOps_writeSlot] at h

end

section
variable {start : State → State × Next} {c : Byte} {s : State}

/-- The two read slots of bit number `n + 1`. -/
theorem leads_searchRead (n : Nat) :
    Leads (owiBody start searchBack) c 13 (s.bitPoint n) (s.searched n) (s.cmpPoint n)
      (s.searchedRead n) := by
  have hid := leads_slot start searchBack c (readSlot s.params) false
    (.searchId (n + 1) (s.zeroAfter n) (s.crcAfter n)) (s.searched n)
  have hid' : (s.searched n).lineOps (readSlot s.params) false = (s.sampleAt (2 * n + 1), (s.searched n).readBit) := by
    rw [lineOps_readSlot, State.readBit, searched_sampleLine]
    rfl
  rw [hid'] at hid
  have hcmp := leads_readSlot (start := start) (back := searchBack) (c := c) (s := (s.searched n).readBit)
    (p := .slot [] (s.sampleAt (2 * n + 1)) (.searchId (n + 1) (s.zeroAfter n) (s.crcAfter n)))
    (job := .searchCmp (n + 1) (s.zeroAfter n) (s.crcAfter n) (s.sampleAt (2 * n + 1))) rfl
  rw [readBit_searched_sample, readBit_readBit_searched] at hcmp
  exact hid.trans hcmp

theorem noteFamily_eq (s : State) (n : Nat) (taken : Bool) :
    s.noteFamily n taken =
      { s with srchLfd := if taken && decide (n ≤ 8) then BitVec.ofNat 8 n else s.srchLfd } := by
  unfold State.noteFamily
  split <;> rfl

/-- A bit number that some device answers: the direction `d` is noted, stored and written. -/
theorem searchChoose_answered {n lastZero : Nat} {crc : Byte} {id cmp d : Bool} {s : State}
    (hanswered : ¬(id && cmp) = true) (hdir : searchDirection s.rom s.srchLd.toNat n id cmp = d) :
    searchChoose n lastZero crc id cmp s =
      enterWrite d (.searchDir n (if zeroTaken id cmp d then n else lastZero) crc)
        ((s.noteFamily n (zeroTaken id cmp d)).setRomBit n d) := by
  subst hdir
  exact if_neg hanswered

/-- The direction of bit number `n + 1` is stored, and its zero noted, as `State.searched` has them. -/
theorem searchBack_cmpPoint {n : Nat} (hn : n < 64) (hanswered : ¬s.nobodyAnswers (n + 1)) :
    owiBody start searchBack (s.cmpPoint n) ((s.searchedRead n).at c (s.cmpPoint n)) =
      some (enterWrite (s.direction (n + 1)) (.searchDir (n + 1) (s.zeroAfter (n + 1)) (s.crcAfter n))
        ((s.searchedChosen n).at c (s.cmpPoint n))) := by
  have hdir : searchDirection (s.romAfter n) s.srchLd.toNat (n + 1) (s.sampleAt (2 * n + 1))
      (s.sampleAt (2 * n + 2)) = s.direction (n + 1) := by
    unfold State.direction searchDirection
    rw [romBitOf_romAfter_above s (by omega) (Nat.lt_succ_self n)]
    rfl
  refine congrArg some ?_
  rw [searchChoose_answered (by rw [Bool.and_eq_true]; exact hanswered) hdir, noteFamily_eq, State.searchedChosen,
    familyAfter_succ]
  rfl

theorem wroteBit_searchedChosen {n : Nat} (hn : n < 64) :
    (s.searchedChosen n).wroteBit (s.direction (n + 1)) = s.searchedBits n := by
  have hbit := romBitOf_romAfter_below s (n := n + 1) (m := n + 1) (by omega) (by omega) le_rfl
  have hbits : s.searchBitsTrace (s.romAfter (n + 1)) n = s.searchBitsTrace (s.romAfter n) n := by
    refine searchBitsTrace_rom_congr s fun m hm hmn => ?_
    rw [romBitOf_romAfter_below s (by omega) hm (by omega), romBitOf_romAfter_below s (by omega) hm hmn]
  have htrace : (s.searched (n + 1)).trace = writeSlotTrace s.params (s.direction (n + 1)) ++
      (s.searchedRead n).trace := by
    change s.searchBitsTrace (s.romAfter (n + 1)) (n + 1) ++ s.searchStartTrace = _
    rw [State.searchBitsTrace, hbit, hbits]
    simp only [State.searchedRead, State.searched, List.append_assoc]
  calc _ = { s.searchedBits n with
        trace := writeSlotTrace s.params (s.direction (n + 1)) ++ (s.searchedRead n).trace } := rfl
    _ = s.searchedBits n := by
        rw [← htrace]
        rfl

/-- After a whole byte its CRC-8 is noted, as `State.searched` has it. -/
theorem searchBack_dirPoint {n : Nat} (hn : n < 64) :
    owiBody start searchBack (s.dirPoint n) ((s.searchedBits n).at c (s.dirPoint n)) =
      some (searchAdvance (n + 1) (s.zeroAfter (n + 1)) (s.crcAfter (n + 1))
        ((s.searched (n + 1)).at c (s.dirPoint n))) := by
  have hcrc : (s.searched (n + 1)).at c (s.dirPoint n) =
      { (s.searchedBits n).at c (s.dirPoint n) with owiCrc8 := s.crcAfter (n + 1) } := rfl
  rw [hcrc, crcAfter_succ s hn]
  refine congrArg some ?_
  unfold searchWritten
  split <;> rfl

/-- One bit number that some device answers, up to the end of its write slot. -/
theorem leads_searchBit {n : Nat} (hn : n < 64) (hanswered : ¬s.nobodyAnswers (n + 1)) :
    Leads (owiBody start searchBack) c 18 (s.bitPoint n) (s.searched n) (s.dirPoint n) (s.searchedBits n) := by
  have hwrite := leads_writeSlot_from (s := s.searchedRead n) (s' := s.searchedChosen n) rfl
    (searchBack_cmpPoint (start := start) (c := c) hn hanswered)
  rw [wroteBit_searchedChosen hn] at hwrite
  exact (leads_searchRead n).trans hwrite

/-- The first `n` bit numbers, if some device answers at each. -/
theorem leads_searchBits {n : Nat} (hn : n < 64) (hanswered : ∀ m, 1 ≤ m → m ≤ n → ¬s.nobodyAnswers m) :
    Leads (owiBody start searchBack) c (19 * n) (s.bitPoint 0) (s.searched 0) (s.bitPoint n) (s.searched n) := by
  induction n with
  | zero => exact Leads.refl _ _ _ _
  | succ n ih =>
    have hbits := ih (by omega) fun m hm hmn => hanswered m hm (by omega)
    have hbit := leads_searchBit (start := start) (c := c) (show n < 64 by omega) (hanswered (n + 1) (by omega) le_rfl)
    have hnext : Leads (owiBody start searchBack) c 1 (s.dirPoint n) (s.searchedBits n) (s.bitPoint (n + 1))
        (s.searched (n + 1)) := by
      refine leads_one rfl ?_
      rw [searchBack_dirPoint (by omega), searchAdvance, if_pos (by exact hn)]
      rfl
    have hrun := hbits.trans (hbit.trans hnext)
    rwa [show 1 + 18 + 19 * n = 19 * (n + 1) by omega] at hrun

/-! ### The start and the ends of a search (R224, R227) -/

/-- The reset pulse with a presence, and SEARCH_CMD. -/
theorem leads_searchStart {p : Progress} {u : State} (hhost : s.host = u.host) (hpresence : s.sampleAt 0 = false)
    (hb : owiBody start searchBack p (u.at c p) = some (enterPulse .searchReset (s.at c p))) :
    Leads (owiBody start searchBack) c 48 p u (s.bitPoint 0) (s.searched 0) := by
  have hpulse := leads_pulse_from hhost hb
  have hsample : s.sampleLine.1 = false := hpresence
  rw [hsample] at hpulse
  have hcommand := leads_writeBits (start := start) (back := searchBack) (c := c) (p := .slot [] false .searchReset)
    (job := .searchCmd) (s := s.pulsed) (v := s.params.searchCmd) rfl
    (fun v i got hi hparams _ => by
      change some (searchCommand i v) = _
      rw [searchCommand, if_pos hi, hparams]
      rfl) le_rfl
  have hnext : Leads (owiBody start searchBack) c 1 (.slot [] false (.searchCmd 7))
      (s.pulsed.wroteBits s.params.searchCmd 8) (s.bitPoint 0) (s.searched 0) := leads_one rfl rfl
  exact hpulse.trans (hcommand.trans hnext)

/-- A failed search resets the search state, then raises its result (R227). -/
theorem ends_searchFail {body : Body} {p : Progress} {e : Result} {u : State} (hseq : s.seq = .idle)
    (hb : body p (u.at c p) = some (searchFail e (s.at c p))) :
    Ends body c 1 p u { s.resetSearch with result := e } := by
  rw [← at_complete (s := s.resetSearch) c p e hseq]
  exact ends_one hb

theorem ends_searchNobody {n : Nat} (hseq : s.seq = .idle) (hnobody : s.nobodyAnswers (n + 1)) :
    Ends (owiBody start searchBack) c 1 (s.cmpPoint n) (s.searchedRead n)
      { (s.searchedRead n).resetSearch with result := .eOwiNoDev } := by
  refine ends_searchFail (s := s.searchedRead n) hseq (congrArg some (if_pos ?_))
  rw [Bool.and_eq_true]
  exact hnobody

/-- The end of a search whose block is `s`: the CRC-8, then the family code, then the report (R224). -/
theorem ends_searchEnd {body : Body} {p : Progress} {lastZero : Nat} {crc : Byte} {u : State} (hseq : s.seq = .idle)
    (hb : body p (u.at c p) = some (searchEnd lastZero crc (s.at c p))) :
    Ends body c 1 p u (s.ended lastZero crc) := by
  unfold searchEnd at hb
  unfold State.ended
  split
  · rename_i hcrc
    rw [if_pos hcrc] at hb
    exact ends_searchFail hseq hb
  · rename_i hcrc
    rw [if_neg hcrc] at hb
    split
    · rename_i hfamily
      exact ends_searchFail (s := s) hseq (hb.trans (congrArg some (if_pos hfamily)))
    · rename_i hfamily
      rw [← at_complete (s := s.reported lastZero) c p .ok hseq]
      exact ends_one (hb.trans (congrArg some (if_neg hfamily)))

theorem ends_searchWhole (hseq : s.seq = .idle) :
    Ends (owiBody start searchBack) c 1 (s.dirPoint 63) (s.searchedBits 63) s.searchedWhole := by
  have hb := searchBack_dirPoint (start := start) (c := c) (s := s) (show 63 < 64 by omega)
  rw [searchAdvance, if_neg (by decide)] at hb
  exact ends_searchEnd hseq hb

end

/-! ### The searches on an idle block (R228, R229) -/

/-- The command starts a search that goes to the bus: `owi.sfirst`, or `owi.snext` with LDF = 0. -/
def startsSearch (i : Instr) (s : State) : Prop := i = .owiSfirst ∨ i = .owiSnext ∧ s.ldf = false

theorem exec_snext_last {s : State} (hs : s.ready) (hldf : s.ldf = true) :
    exec .owiSnext s = .next { s.resetSearch with result := .rOwiLast } :=
  exec_of_ends hs (ends_searchFail (s := s) hs.1 (congrArg some (if_pos hldf))) (by decide)

/-- Every other call of a search command goes to the bus. -/
theorem startsSearch_of_not_last {i : Instr} {s : State} (hcommand : i = .owiSfirst ∨ i = .owiSnext)
    (hlast : ¬(i = .owiSnext ∧ s.ldf = true)) : startsSearch i s :=
  hcommand.imp_right fun hnext => ⟨hnext, Bool.eq_false_iff.2 fun hldf => hlast ⟨hnext, hldf⟩⟩

section
variable {i : Instr} {s : State} (hi : startsSearch i s) (hs : s.ready)

include hi

/-- A search that goes to the bus begins with the reset pulse, on its base. -/
theorem search_first (c : Byte) : ∃ start, bodyOf i = owiBody start searchBack ∧
    owiBody start searchBack .first (s.at c .first) =
      some (enterPulse .searchReset ((s.searchBase i).at c .first)) := by
  obtain rfl | ⟨rfl, hldf⟩ := hi
  · exact ⟨owiSfirstStart, rfl, rfl⟩
  · exact ⟨searchStart, rfl, congrArg some (if_neg (ne_true_of_eq_false hldf))⟩

theorem searchBase_host : (s.searchBase i).host = s.host := by
  obtain rfl | ⟨rfl, -⟩ := hi <;> rfl

theorem searchBase_seq : (s.searchBase i).seq = s.seq := by
  obtain rfl | ⟨rfl, -⟩ := hi <;> rfl

include hs

theorem exec_search_absent (habsent : (s.searchBase i).sampleAt 0 = true) :
    exec i s = .next { (s.searchBase i).pulsed.resetSearch with result := .eOwiNoPres } := by
  obtain ⟨start, hbody, hfirst⟩ := search_first hi (encode i)
  have hpulse := leads_pulse_from (searchBase_host hi) hfirst
  have hsample : (s.searchBase i).sampleLine.1 = true := habsent
  rw [hsample] at hpulse
  have hend := ends_searchFail (s := (s.searchBase i).pulsed) (body := owiBody start searchBack) (c := encode i)
    (p := .slot [] true .searchReset) (u := (s.searchBase i).pulsed) (e := .eOwiNoPres)
    ((searchBase_seq hi).trans hs.1) rfl
  rw [← hbody] at hpulse hend
  exact exec_of_ends hs (hpulse.ends hend) (by decide)

theorem exec_search_nobody (hpresence : (s.searchBase i).sampleAt 0 = false) {n : Nat}
    (habort : (s.searchBase i).abortsAt (n + 1)) :
    exec i s = .next { ((s.searchBase i).searchedRead n).resetSearch with result := .eOwiNoDev } := by
  obtain ⟨start, hbody, hfirst⟩ := search_first hi (encode i)
  obtain ⟨-, hn, hnobody, hbefore⟩ := habort
  have hstart := leads_searchStart (searchBase_host hi) hpresence hfirst
  have hbits := leads_searchBits (start := start) (c := encode i) (show n < 64 by omega)
    fun m hm hmn => hbefore m hm (by omega)
  have hread := leads_searchRead (start := start) (c := encode i) (s := s.searchBase i) n
  have hend := ends_searchNobody (start := start) (c := encode i) ((searchBase_seq hi).trans hs.1) hnobody
  rw [← hbody] at hstart hbits hread hend
  exact exec_of_ends hs (hstart.ends (hbits.ends (hread.ends hend))) (by simp only [Config.burst]; omega)

theorem exec_search_whole (hpresence : (s.searchBase i).sampleAt 0 = false)
    (hanswered : ∀ n, 1 ≤ n → n ≤ 64 → ¬(s.searchBase i).nobodyAnswers n) :
    exec i s = .next (s.searchBase i).searchedWhole := by
  obtain ⟨start, hbody, hfirst⟩ := search_first hi (encode i)
  have hstart := leads_searchStart (searchBase_host hi) hpresence hfirst
  have hbits := leads_searchBits (start := start) (c := encode i) (show 63 < 64 by omega)
    fun m hm hmn => hanswered m hm (by omega)
  have hlast := leads_searchBit (start := start) (c := encode i) (show 63 < 64 by omega)
    (hanswered 64 (by omega) le_rfl)
  have hend := ends_searchWhole (start := start) (c := encode i) ((searchBase_seq hi).trans hs.1)
  rw [← hbody] at hstart hbits hlast hend
  exact exec_of_ends hs (hstart.ends (hbits.ends (hlast.ends hend))) (by decide)

end

end Sys2Proof.Machine
end

section
/-! SUPPORT. What a search on an idle block answers, in each case of its samples, and what a failed search leaves
behind. -/

namespace Sys2Proof.Machine

/-- Settles O48: the test of LDF ends the search at its first point. -/
theorem snextAfterLastDevice : Obligations.SnextAfterLastDevice := fun _ hs hldf => exec_snext_last hs hldf

/-! ### The end of a search (R224, R226, R227) -/

section
variable (s : State) (lastZero : Nat) (crc : Byte)

theorem ended_cases :
    (crc ≠ 0x00 ∧ s.ended lastZero crc = { s.resetSearch with result := .eOwiCrc }) ∨
    (crc = 0x00 ∧ romByteOf s.rom 0 = 0x00 ∧ s.ended lastZero crc = { s.resetSearch with result := .eOwiFamily }) ∨
    (crc = 0x00 ∧ romByteOf s.rom 0 ≠ 0x00 ∧ s.ended lastZero crc = { s.reported lastZero with result := .ok }) := by
  unfold State.ended
  by_cases hcrc : crc = 0x00
  · by_cases hfamily : romByteOf s.rom 0 = 0x00
    · exact .inr (.inl ⟨hcrc, hfamily, by rw [if_neg (not_not_intro hcrc), if_pos hfamily]⟩)
    · exact .inr (.inr ⟨hcrc, hfamily, by rw [if_neg (not_not_intro hcrc), if_neg hfamily]⟩)
  · exact .inl ⟨hcrc, if_pos hcrc⟩

theorem ended_eq : s.ended lastZero crc = { s with
    result := (s.ended lastZero crc).result, srchLd := (s.ended lastZero crc).srchLd
    srchLfd := (s.ended lastZero crc).srchLfd, ldf := (s.ended lastZero crc).ldf } := by
  rcases ended_cases s lastZero crc with ⟨-, h⟩ | ⟨-, -, h⟩ | ⟨-, -, h⟩ <;> rw [h] <;> rfl

@[simp] theorem ended_rom : (s.ended lastZero crc).rom = s.rom := by rw [ended_eq]
@[simp] theorem ended_owiCrc8 : (s.ended lastZero crc).owiCrc8 = s.owiCrc8 := by rw [ended_eq]
@[simp] theorem ended_owiDrive : (s.ended lastZero crc).owiDrive = s.owiDrive := by rw [ended_eq]
@[simp] theorem ended_trace : (s.ended lastZero crc).trace = s.trace := by rw [ended_eq]
@[simp] theorem ended_seq : (s.ended lastZero crc).seq = s.seq := by rw [ended_eq]
@[simp] theorem ended_host : (s.ended lastZero crc).host = s.host := by rw [ended_eq]

theorem ended_result :
    (s.ended lastZero crc).result =
      if crc ≠ 0x00 then .eOwiCrc else if romByteOf s.rom 0 = 0x00 then .eOwiFamily else .ok := by
  rcases ended_cases s lastZero crc with ⟨hcrc, h⟩ | ⟨hcrc, hfamily, h⟩ | ⟨hcrc, hfamily, h⟩
  · rw [h, if_pos hcrc]
  · rw [h, if_neg (not_not_intro hcrc), if_pos hfamily]
  · rw [h, if_neg (not_not_intro hcrc), if_neg hfamily]

variable {s lastZero crc}

theorem ended_of_ok (h : (s.ended lastZero crc).result = .ok) :
    crc = 0x00 ∧ romByteOf s.rom 0 ≠ 0x00 ∧ (s.ended lastZero crc).srchLd = BitVec.ofNat 8 lastZero ∧
    (s.ended lastZero crc).ldf = decide (lastZero = 0) ∧ (s.ended lastZero crc).srchLfd = s.srchLfd := by
  rcases ended_cases s lastZero crc with ⟨-, h'⟩ | ⟨-, -, h'⟩ | ⟨hcrc, hfamily, h'⟩
  · rw [h'] at h
    cases h
  · rw [h'] at h
    cases h
  · rw [h']
    exact ⟨hcrc, hfamily, rfl, rfl, rfl⟩

theorem ended_of_failed (h : (s.ended lastZero crc).result ≠ .ok) :
    (s.ended lastZero crc).srchLd = 0 ∧ (s.ended lastZero crc).srchLfd = 0 ∧ (s.ended lastZero crc).ldf = false := by
  rcases ended_cases s lastZero crc with ⟨-, h'⟩ | ⟨-, -, h'⟩ | ⟨-, -, h'⟩
  · rw [h']
    exact ⟨rfl, rfl, rfl⟩
  · rw [h']
    exact ⟨rfl, rfl, rfl⟩
  · rw [h'] at h
    exact absurd rfl h

end

/-! ### The base of a search (R228, R229) -/

section
variable (s : State) (i : Instr)

@[simp] theorem searchBase_owiScript : (s.searchBase i).owiScript = s.owiScript := by cases i <;> rfl
@[simp] theorem searchBase_draws : (s.searchBase i).draws = s.draws := by cases i <;> rfl
@[simp] theorem searchBase_params : (s.searchBase i).params = s.params := by cases i <;> rfl
@[simp] theorem searchBase_trace : (s.searchBase i).trace = s.trace := by cases i <;> rfl
@[simp] theorem searchBase_rom : (s.searchBase i).rom = s.rom := by cases i <;> rfl
@[simp] theorem searchBase_owiCrc8 : (s.searchBase i).owiCrc8 = s.owiCrc8 := by cases i <;> rfl

theorem searchBase_srchLd : (s.searchBase i).srchLd.toNat = if i = .owiSfirst then 0 else s.srchLd.toNat := by
  cases i <;> rfl

theorem searchBase_srchLfd : (s.searchBase i).srchLfd = if i = .owiSfirst then 0 else s.srchLfd := by
  cases i <;> rfl

theorem searchBase_sampleAt (k : Nat) : (s.searchBase i).sampleAt k = s.sampleAt k :=
  sampleAt_congr (by simp) (by simp) k

theorem searchBase_abortsAt (n : Nat) : (s.searchBase i).abortsAt n ↔ s.abortsAt n :=
  abortsAt_congr (by simp) (by simp) n

theorem searchBase_chose (ld k : Nat) (rom : Vector Byte 8) : (s.searchBase i).chose ld k rom ↔ s.chose ld k rom :=
  chose_congr (by simp) (by simp) (by simp) ld k rom

theorem searchBase_lastZero (rom : Vector Byte 8) (k z : Nat) :
    (s.searchBase i).lastZero rom k z ↔ s.lastZero rom k z := lastZero_congr (by simp) (by simp) rom k z

theorem searchBase_searchBitsTrace (rom : Vector Byte 8) (n : Nat) :
    (s.searchBase i).searchBitsTrace rom n = s.searchBitsTrace rom n :=
  searchBitsTrace_congr (by simp) (by simp) (by simp) rom n

theorem searchBase_searchStartTrace : (s.searchBase i).searchStartTrace = s.searchStartTrace :=
  searchStartTrace_congr (by simp) (by simp) (by simp) (by simp)

end

/-! ### The three ways of a search on the bus -/

/-- What a search that goes to the bus answers: with no presence, with an abort, or after all 64 bit numbers. -/
theorem exec_search_cases {i : Instr} {s : State} (hi : startsSearch i s) (hs : s.ready) :
    ((s.searchBase i).sampleAt 0 = true ∧
      exec i s = .next { (s.searchBase i).pulsed.resetSearch with result := .eOwiNoPres }) ∨
    ((s.searchBase i).sampleAt 0 = false ∧ ∃ n, (s.searchBase i).abortsAt (n + 1) ∧
      exec i s = .next { ((s.searchBase i).searchedRead n).resetSearch with result := .eOwiNoDev }) ∨
    ((s.searchBase i).sampleAt 0 = false ∧ (∀ n, 1 ≤ n → n ≤ 64 → ¬(s.searchBase i).nobodyAnswers n) ∧
      exec i s = .next (s.searchBase i).searchedWhole) := by
  cases hpresence : (s.searchBase i).sampleAt 0 with
  | true => exact .inl ⟨rfl, exec_search_absent hi hs hpresence⟩
  | false =>
    rcases abortsAt_or_answered (s.searchBase i) with ⟨n, habort⟩ | hanswered
    · obtain ⟨n, rfl⟩ := Nat.exists_eq_add_of_le' habort.1
      exact .inr (.inl ⟨rfl, n, habort, exec_search_nobody hi hs hpresence habort⟩)
    · exact .inr (.inr ⟨rfl, hanswered, exec_search_whole hi hs hpresence hanswered⟩)

section
variable {b : State}

theorem chose_romAfter (b : State) {n : Nat} (hn : n ≤ 64) : b.chose b.srchLd.toNat n (b.romAfter n) :=
  chose_of_direction fun _ hm hmn => romBitOf_romAfter_below b hn hm hmn

theorem lastZero_romAfter (hanswered : ∀ n, 1 ≤ n → n ≤ 64 → ¬b.nobodyAnswers n) {k : Nat} (hk : k ≤ 64) :
    b.lastZero (b.romAfter 64) k (b.zeroAfter k) :=
  lastZero_zeroAfter (fun n hn hnk => hanswered n hn (by omega))
    fun n hn hnk => romBitOf_romAfter_below b le_rfl hn (by omega)

theorem searchedWhole_result : b.searchedWhole.result =
    if crc8 (b.romAfter 64).toList ≠ 0x00 then .eOwiCrc
    else if romByteOf (b.romAfter 64) 0 = 0x00 then .eOwiFamily else .ok := by
  rw [State.searchedWhole, ended_result, crcAfter_all, searched_rom]

theorem searchedWhole_rom : b.searchedWhole.rom = b.romAfter 64 := by
  rw [State.searchedWhole, ended_rom, searched_rom]

theorem searchedWhole_owiCrc8 : b.searchedWhole.owiCrc8 = crc8 (b.romAfter 64).toList := by
  rw [State.searchedWhole, ended_owiCrc8, searched_owiCrc8, crcAfter_all]

theorem searchedWhole_trace :
    b.searchedWhole.trace = b.searchBitsTrace (b.romAfter 64) 64 ++ b.searchStartTrace := by
  rw [State.searchedWhole, ended_trace, searched_trace]

theorem searchedWhole_owiDrive : b.searchedWhole.owiDrive = false := by
  rw [State.searchedWhole, ended_owiDrive, searched_owiDrive]

theorem searchedWhole_seq : b.searchedWhole.seq = b.seq := by
  rw [State.searchedWhole, ended_seq, searched_seq]

theorem searchedWhole_host : b.searchedWhole.host = b.host := by
  rw [State.searchedWhole, ended_host, searched_host]

/-- A valid ROM address was found: where the next search goes on (R226). -/
theorem searchedWhole_of_ok (h : b.searchedWhole.result = .ok) :
    romValid (b.romAfter 64) = true ∧ b.searchedWhole.srchLd.toNat = b.zeroAfter 64 ∧
    b.searchedWhole.ldf = decide (b.zeroAfter 64 = 0) ∧ b.searchedWhole.srchLfd = b.familyAfter 64 := by
  obtain ⟨hcrc, hfamily, hld, hldf, hlfd⟩ := ended_of_ok h
  rw [crcAfter_all] at hcrc
  have hle := zeroAfter_le b 64
  refine ⟨(romValid_iff _).2 ⟨hcrc, hfamily⟩, ?_, hldf, hlfd⟩
  rw [State.searchedWhole, hld, BitVec.toNat_ofNat]
  exact Nat.mod_eq_of_lt (by omega)

end

/-! ### Completion (R224, R226, R228, R229) -/

theorem pulsed_trace_absent {b : State} (h : b.sampleAt 0 = true) :
    b.pulsed.trace = resetPulseTrace b.params true ++ b.trace := by
  rw [← h]
  rfl

theorem searchedRead_trace_nobody {b : State} {n : Nat} (h : b.nobodyAnswers (n + 1)) :
    (b.searchedRead n).trace = readSlotTrace b.params true ++ (readSlotTrace b.params true ++
      (b.searchBitsTrace (b.romAfter n) n ++ b.searchStartTrace)) := by
  obtain ⟨hid, hcmp⟩ := h
  change b.sampleAt (2 * n + 1) = true at hid
  change b.sampleAt (2 * n + 2) = true at hcmp
  rw [State.searchedRead, hid, hcmp, searched_trace]

/-- Settles O47: each case of the samples, with the bus events, the directions and the registers it leaves. -/
theorem searchesComplete : Obligations.SearchesComplete := by
  intro i s hcommand hs
  by_cases hlast : i = .owiSnext ∧ s.ldf = true
  · obtain ⟨rfl, hldf⟩ := hlast
    exact ⟨_, exec_snext_last hs hldf, hs.1, fun _ _ => ⟨rfl, rfl⟩, fun h => by simp [hldf] at h⟩
  have hi := startsSearch_of_not_last hcommand hlast
  have hseq := (searchBase_seq hi).trans hs.1
  have hsampleAt := searchBase_sampleAt s i 0
  rcases exec_search_cases hi hs with ⟨hsample, hexec⟩ | ⟨hsample, n, habort, hexec⟩ | ⟨hsample, hanswered, hexec⟩ <;>
    rw [hsampleAt] at hsample
  · have hpresent : s.sampleAt 0 ≠ false := by simp [hsample]
    refine ⟨_, hexec, hseq, fun hnext hldf => absurd ⟨hnext, hldf⟩ hlast, fun _ => ⟨rfl, fun _ => ⟨rfl, ?trace⟩,
      fun h => absurd h hpresent, fun h => absurd h hpresent, fun h => by cases h⟩⟩
    case trace => simpa using pulsed_trace_absent (hsampleAt.trans hsample)
  · have habsent : s.sampleAt 0 ≠ true := by simp [hsample]
    have habort' := (searchBase_abortsAt s i (n + 1)).1 habort
    refine ⟨_, hexec, hseq, fun hnext hldf => absurd ⟨hnext, hldf⟩ hlast, fun _ => ⟨rfl, fun h => absurd h habsent,
      fun _ m hm => ⟨rfl, ?trace⟩, fun _ h => absurd ⟨_, habort'⟩ h, fun h => by cases h⟩⟩
    case trace =>
      obtain rfl := abortsAt_unique hm habort'
      obtain ⟨-, -, hnobody, -⟩ := habort
      have htrace := searchedRead_trace_nobody hnobody
      rwa [searchBase_params, searchBase_searchBitsTrace, searchBase_searchStartTrace] at htrace
  · have habsent : s.sampleAt 0 ≠ true := by simp [hsample]
    have hanswered' : ¬∃ n, s.abortsAt n := by
      simpa only [searchBase_abortsAt] using not_abortsAt_of_answered hanswered
    refine ⟨_, hexec, searchedWhole_seq.trans hseq, fun hnext hldf => absurd ⟨hnext, hldf⟩ hlast,
      fun _ => ⟨searchedWhole_owiDrive, fun h => absurd h habsent, fun _ m hm => absurd ⟨m, hm⟩ hanswered',
        fun _ _ => ⟨?chose, ?crc, ?trace, ?result⟩, fun hok => ?ok⟩⟩
    case chose =>
      rw [searchedWhole_rom, ← searchBase_srchLd, ← searchBase_chose]
      exact chose_romAfter _ le_rfl
    case crc => rw [searchedWhole_owiCrc8, searchedWhole_rom]
    case trace =>
      rw [searchedWhole_trace, searchedWhole_rom, searchBase_searchBitsTrace, searchBase_searchStartTrace]
    case result => rw [searchedWhole_result, searchedWhole_owiCrc8, State.romByte, searchedWhole_rom]
    case ok =>
      obtain ⟨hvalid, hld, hldf, hlfd⟩ := searchedWhole_of_ok hok
      obtain ⟨hcrc, -⟩ := (romValid_iff _).1 hvalid
      rw [searchedWhole_rom, searchedWhole_owiCrc8, hld, hldf, hlfd, ← searchBase_lastZero]
      refine ⟨hvalid, hcrc, ?_, lastZero_romAfter hanswered le_rfl, (s.searchBase i).zeroAfter 8, ?_, ?_⟩
      · rw [decide_eq_true_iff, ← hld]
        exact ⟨fun h => BitVec.eq_of_toNat_eq h, fun h => congrArg BitVec.toNat h⟩
      · rw [← searchBase_lastZero]
        exact lastZero_romAfter hanswered (by decide)
      · rw [← searchBase_srchLfd]
        rfl

/-! ### Failure (R223, R227) -/

/-- What a search of `s` that failed leaves in `t`: the initial search state, and, by its result, the directions chosen
so far and the CRC-8 of their whole bytes. -/
def failedSearch (i : Instr) (s t : State) : Prop :=
  t.srchLd = 0 ∧ t.srchLfd = 0 ∧ t.ldf = false ∧
  (t.result = .eOwiNoPres → t.rom = s.rom ∧ t.owiCrc8 = s.owiCrc8) ∧
  (t.result = .eOwiNoDev → ∃ n, s.abortsAt n ∧
    s.chose (if i = .owiSfirst then 0 else s.srchLd.toNat) (n - 1) t.rom ∧
    (∀ m, n ≤ m → m ≤ 64 → romBitOf t.rom m = romBitOf s.rom m) ∧
    t.owiCrc8 = crc8 (t.rom.toList.take ((n - 1) / 8))) ∧
  (t.result = .eOwiCrc ∨ t.result = .eOwiFamily →
    s.chose (if i = .owiSfirst then 0 else s.srchLd.toNat) 64 t.rom ∧ t.owiCrc8 = crc8 t.rom.toList)

theorem failedSearch_of_withHost {i : Instr} {s t : State} {q : List HostEvent}
    (h : failedSearch i (s.withHost q) (t.withHost q)) : failedSearch i s t := by
  have habort (n : Nat) := abortsAt_congr (s := s) (t := s.withHost q) rfl rfl n
  have hchose (ld k : Nat) (rom : Vector Byte 8) := chose_congr (s := s) (t := s.withHost q) rfl rfl rfl ld k rom
  simp only [failedSearch, habort, hchose] at h
  exact h

theorem failedSearch_of_exec {i : Instr} {s t : State} (hcommand : i = .owiSfirst ∨ i = .owiSnext) (hs : s.ready)
    (h : exec i s = .next t) (hfailed : t.result ≠ .ok) : failedSearch i s t := by
  by_cases hlast : i = .owiSnext ∧ s.ldf = true
  · obtain ⟨rfl, hldf⟩ := hlast
    rw [exec_snext_last hs hldf] at h
    cases h
    exact ⟨rfl, rfl, rfl, (nomatch ·), (nomatch ·), by rintro (h | h) <;> cases h⟩
  have hi := startsSearch_of_not_last hcommand hlast
  unfold failedSearch
  rw [← searchBase_srchLd]
  rcases exec_search_cases hi hs with ⟨-, hexec⟩ | ⟨-, n, habort, hexec⟩ | ⟨-, -, hexec⟩ <;>
    rw [hexec] at h <;> obtain rfl := Host.Outcome.next.inj h
  · exact ⟨rfl, rfl, rfl, fun _ => ⟨searchBase_rom s i, searchBase_owiCrc8 s i⟩, (nomatch ·),
      by rintro (h | h) <;> cases h⟩
  · have ⟨_, hn, _⟩ := habort
    refine ⟨rfl, rfl, rfl, (nomatch ·),
      fun _ => ⟨n + 1, (searchBase_abortsAt s i _).1 habort, ?chose, fun m hm _ => ?above, rfl⟩,
      by rintro (h | h) <;> cases h⟩
    case chose =>
      rw [← searchBase_chose]
      exact chose_romAfter _ (by omega)
    case above =>
      rw [← searchBase_rom s i]
      exact romBitOf_romAfter_above _ (by omega) hm
  · obtain ⟨hld, hlfd, hldf⟩ := ended_of_failed hfailed
    refine ⟨hld, hlfd, hldf, fun h => ?_, fun h => ?_, fun _ => ⟨?chose, ?crc⟩⟩
    case chose =>
      rw [searchedWhole_rom, ← searchBase_chose]
      exact chose_romAfter _ le_rfl
    case crc => rw [searchedWhole_owiCrc8, searchedWhole_rom]
    all_goals
      rw [searchedWhole_result] at h
      split at h
      · cases h
      · split at h <;> cases h

/-- Settles O49: a search that completed met no host action, so it is one of an idle block with no host action to
come. -/
theorem failedSearchResetsTheSession : Obligations.FailedSearchResetsTheSession := by
  intro i s t hcommand hseq h hend hfailed
  exact failedSearch_of_withHost (q := [])
    (failedSearch_of_exec hcommand ⟨hseq, rfl⟩ (exec_search_withHost_nil hcommand hseq h hend) hfailed)

end Sys2Proof.Machine
end

section
/-! SUPPORT. A search on a bus of devices (R230): the samples it takes, the devices still active after each bit number,
and the device whose ROM address it finds. -/

namespace Sys2Proof.Machine

/-! ### What a read slot samples (R230) -/

theorem wiredAnd_iff (active : List (Vector Byte 8)) (n : Nat) (v : Bool) :
    wiredAnd active n v = true ↔ ∀ rom ∈ active, romBitOf rom n = v := by
  simp [wiredAnd]

theorem wiredAnd_eq_false_iff (active : List (Vector Byte 8)) (n : Nat) (v : Bool) :
    wiredAnd active n v = false ↔ ∃ rom ∈ active, romBitOf rom n = !v := by
  rw [← Bool.not_eq_true, wiredAnd_iff]
  simp [Bool.eq_not]

theorem mem_stillActive (active : List (Vector Byte 8)) (n : Nat) (d : Bool) (rom : Vector Byte 8) :
    rom ∈ stillActive active n d ↔ rom ∈ active ∧ romBitOf rom n = d := by
  simp [stillActive]

/-- Some active device has the direction as its bit, so it stays active. -/
theorem exists_active_direction {active : List (Vector Byte 8)} (hactive : active ≠ []) (rom : Vector Byte 8)
    (ld n : Nat) :
    ∃ d ∈ active, romBitOf d n = searchDirection rom ld n (wiredAnd active n true) (wiredAnd active n false) := by
  obtain ⟨a, ha⟩ := List.exists_mem_of_ne_nil active hactive
  cases hid : wiredAnd active n true with
  | true =>
    have hones := (wiredAnd_iff active n true).1 hid
    cases hcmp : wiredAnd active n false with
    | true => exact absurd ((hones a ha).symm.trans ((wiredAnd_iff active n false).1 hcmp a ha)) (by decide)
    | false => exact ⟨a, ha, hones a ha⟩
  | false =>
    cases hcmp : wiredAnd active n false with
    | true => exact ⟨a, ha, (wiredAnd_iff active n false).1 hcmp a ha⟩
    | false =>
      obtain ⟨zero, hzero, hbit⟩ := (wiredAnd_eq_false_iff active n true).1 hid
      obtain ⟨one, hone, hbit'⟩ := (wiredAnd_eq_false_iff active n false).1 hcmp
      cases hdir : searchDirection rom ld n false false with
      | true => exact ⟨one, hone, hbit'⟩
      | false => exact ⟨zero, hzero, hbit⟩

/-! ### The samples of a search on a bus of devices (R224, R230) -/

/-- The samples that a search which starts from `b` will take are those of the devices `devs`. -/
def facesDevices (devs : List (Vector Byte 8)) (b : State) : Prop :=
  b.owiScript = searchScript devs b.rom b.srchLd.toNat

/-- The devices still active after `n` bit numbers of a search that starts from `b`. -/
def State.activeAfter (b : State) (devs : List (Vector Byte 8)) : Nat → List (Vector Byte 8)
  | 0 => devs
  | n + 1 => stillActive (b.activeAfter devs n) (n + 1) (b.direction (n + 1))

theorem mem_activeAfter (b : State) (devs : List (Vector Byte 8)) (n : Nat) (rom : Vector Byte 8) :
    rom ∈ b.activeAfter devs n ↔ rom ∈ devs ∧ ∀ m, 1 ≤ m → m ≤ n → romBitOf rom m = b.direction m := by
  induction n with
  | zero => exact ⟨fun h => ⟨h, fun m hm hm0 => by omega⟩, fun h => h.1⟩
  | succ n ih =>
    rw [State.activeAfter, mem_stillActive, ih]
    constructor
    · rintro ⟨⟨hmem, hbits⟩, hbit⟩
      refine ⟨hmem, fun m hm hmn => ?_⟩
      rcases Nat.lt_or_eq_of_le hmn with hlt | rfl
      · exact hbits m hm (by omega)
      · exact hbit
    · rintro ⟨hmem, hbits⟩
      exact ⟨⟨hmem, fun m hm hmn => hbits m hm (by omega)⟩, hbits (n + 1) (by omega) le_rfl⟩

theorem sampleLine_cons {s : State} {x : Bool} {rest : List Bool} (h : s.owiScript = x :: rest) :
    s.sampleLine = (x, { s with owiScript := rest }) := by
  simp [State.sampleLine, h]

/-- The next two samples, when the script gives them. -/
theorem samples_of_script {s : State} {k : Nat} {x y : Bool} {rest : List Bool}
    (h : (s.nextSamples k).2.owiScript = x :: y :: rest) :
    s.sampleAt k = x ∧ s.sampleAt (k + 1) = y ∧ (s.nextSamples (k + 2)).2.owiScript = rest := by
  have hsecond : (s.nextSamples (k + 1)).2.owiScript = y :: rest := by
    rw [nextSamples_succ_snd, sampleLine_cons h]
  refine ⟨?_, ?_, ?_⟩
  · rw [sampleAt_eq, sampleLine_cons h]
  · rw [sampleAt_eq, sampleLine_cons hsecond]
  · rw [nextSamples_succ_snd, sampleLine_cons hsecond]

section
variable {devs : List (Vector Byte 8)} {b : State} (hface : facesDevices devs b)
include hface

theorem facesDevices_presence : b.sampleAt 0 = devs.isEmpty := by
  rw [sampleAt_eq, State.nextSamples, sampleLine_cons hface]

/-- The script after `n` bit numbers. -/
theorem facesDevices_script {n : Nat} (hn : n ≤ 64) :
    (b.nextSamples (2 * n + 1)).2.owiScript =
      searchSamples b.rom b.srchLd.toNat (64 - n) (n + 1) (b.activeAfter devs n) := by
  induction n with
  | zero =>
    rw [nextSamples_succ_snd, State.nextSamples, sampleLine_cons hface]
    rfl
  | succ n ih =>
    have hscript := ih (by omega)
    rw [show 64 - n = 64 - (n + 1) + 1 by omega, searchSamples] at hscript
    obtain ⟨hid, hcmp, hrest⟩ := samples_of_script hscript
    rw [← hid, ← hcmp] at hrest
    exact hrest

/-- The two samples of bit number `n + 1`. -/
theorem facesDevices_samples {n : Nat} (hn : n < 64) :
    b.sampleAt (2 * n + 1) = wiredAnd (b.activeAfter devs n) (n + 1) true ∧
    b.sampleAt (2 * n + 2) = wiredAnd (b.activeAfter devs n) (n + 1) false := by
  have hscript := facesDevices_script hface (le_of_lt hn)
  rw [show 64 - n = 64 - (n + 1) + 1 by omega, searchSamples] at hscript
  obtain ⟨hid, hcmp, -⟩ := samples_of_script hscript
  exact ⟨hid, hcmp⟩

theorem facesDevices_direction {n : Nat} (hn : n < 64) :
    b.direction (n + 1) = searchDirection b.rom b.srchLd.toNat (n + 1) (wiredAnd (b.activeAfter devs n) (n + 1) true)
      (wiredAnd (b.activeAfter devs n) (n + 1) false) := by
  obtain ⟨hid, hcmp⟩ := facesDevices_samples hface hn
  rw [← hid, ← hcmp]
  rfl

/-- The devices disagree at a bit number when active ones have both values there. -/
theorem facesDevices_disagree_iff {n : Nat} (hn : n < 64) :
    b.devicesDisagree (n + 1) ↔ (∃ rom ∈ b.activeAfter devs n, romBitOf rom (n + 1) = false) ∧
      ∃ rom ∈ b.activeAfter devs n, romBitOf rom (n + 1) = true := by
  obtain ⟨hid, hcmp⟩ := facesDevices_samples hface hn
  change b.sampleAt (2 * n + 1) = false ∧ b.sampleAt (2 * n + 2) = false ↔ _
  rw [hid, hcmp, wiredAnd_eq_false_iff, wiredAnd_eq_false_iff]
  rfl

/-- Where the devices do not disagree, each active one has the direction as its bit. -/
theorem facesDevices_forced {n : Nat} (hn : n < 64) (h : ¬b.devicesDisagree (n + 1)) {rom : Vector Byte 8}
    (hrom : rom ∈ b.activeAfter devs n) : romBitOf rom (n + 1) = b.direction (n + 1) := by
  obtain ⟨d, hd, hdir⟩ := exists_active_direction (List.ne_nil_of_mem hrom) b.rom b.srchLd.toNat (n + 1)
  rw [← facesDevices_direction hface hn] at hdir
  by_contra hne
  rw [← hdir] at hne
  refine h ((facesDevices_disagree_iff hface hn).2 ?_)
  cases hbit : romBitOf rom (n + 1) with
  | true => exact ⟨⟨d, hd, Bool.eq_false_iff.2 fun h => hne (hbit.trans h.symm)⟩, rom, hrom, hbit⟩
  | false => exact ⟨⟨rom, hrom, hbit⟩, d, hd, Bool.eq_true_of_not_eq_false fun h => hne (hbit.trans h.symm)⟩

section
variable (hdevs : devs ≠ [])
include hdevs

theorem activeAfter_ne_nil {n : Nat} (hn : n ≤ 64) : b.activeAfter devs n ≠ [] := by
  induction n with
  | zero => exact hdevs
  | succ n ih =>
    obtain ⟨d, hd, hdir⟩ := exists_active_direction (ih (by omega)) b.rom b.srchLd.toNat (n + 1)
    rw [← facesDevices_direction hface (by omega)] at hdir
    exact List.ne_nil_of_mem ((mem_stillActive _ _ _ d).2 ⟨hd, hdir⟩)

/-- A device answers at each bit number. -/
theorem facesDevices_answered {n : Nat} (hn : 1 ≤ n) (hn64 : n ≤ 64) : ¬b.nobodyAnswers n := by
  obtain ⟨n, rfl⟩ := Nat.exists_eq_add_of_le' hn
  rintro ⟨hid, hcmp⟩
  obtain ⟨hid', hcmp'⟩ := facesDevices_samples hface hn64
  obtain ⟨d, hd⟩ := List.exists_mem_of_ne_nil _ (activeAfter_ne_nil hface hdevs (show n ≤ 64 by omega))
  have hone := (wiredAnd_iff _ _ _).1 (hid'.symm.trans hid) d hd
  have hzero := (wiredAnd_iff _ _ _).1 (hcmp'.symm.trans hcmp) d hd
  rw [hone] at hzero
  cases hzero

/-- The search finds the ROM address of a device. -/
theorem romAfter_mem_devices : b.romAfter 64 ∈ devs := by
  obtain ⟨d, hd⟩ := List.exists_mem_of_ne_nil _ (activeAfter_ne_nil hface hdevs le_rfl)
  obtain ⟨hmem, hbits⟩ := (mem_activeAfter b devs 64 d).1 hd
  rwa [rom_ext (a := b.romAfter 64) (b := d) fun n hn hn64 =>
    (romBitOf_romAfter_below b le_rfl hn hn64).trans (hbits n hn hn64).symm]

/-- Valid devices pass the two checks at the end of the search. -/
theorem searchedWhole_ok (hvalid : ∀ rom ∈ devs, romValid rom = true) : b.searchedWhole.result = .ok := by
  obtain ⟨hcrc, hfamily⟩ := (romValid_iff _).1 (hvalid _ (romAfter_mem_devices hface hdevs))
  rw [searchedWhole_result, if_neg (not_not_intro hcrc), if_neg hfamily]

end

end

/-! ### Search calls on an idle block (R228, R229, R230) -/

/-- The block that a search call on a bus of `devs` starts from. -/
def State.callBase (s : State) (devs : List (Vector Byte 8)) (first : Bool) : State :=
  if first then ({ s with owiScript := searchScript devs s.rom 0 } : State).resetSearch
  else { s with owiScript := searchScript devs s.rom s.srchLd.toNat }

section
variable {devs : List (Vector Byte 8)} {first : Bool} {s : State}

theorem callBase_facesDevices : facesDevices devs (s.callBase devs first) := by cases first <;> rfl
theorem callBase_rom : (s.callBase devs first).rom = s.rom := by cases first <;> rfl
theorem callBase_seq : (s.callBase devs first).seq = s.seq := by cases first <;> rfl
theorem callBase_host : (s.callBase devs first).host = s.host := by cases first <;> rfl
theorem callBase_first : (s.callBase devs true).srchLd.toNat = 0 := rfl
theorem callBase_next : (s.callBase devs false).srchLd = s.srchLd := rfl

variable (hs : s.ready)
include hs

theorem searchCall_last (hldf : s.ldf = true) : ∃ t, searchCall devs false s = .next t ∧ t.result = .rOwiLast :=
  ⟨_, exec_snext_last (s := { s with owiScript := searchScript devs s.rom s.srchLd.toNat }) hs hldf, rfl⟩

variable (hfirst : first = true ∨ s.ldf = false)
include hfirst

/-- A search call that goes to the bus is a search from the base of the call. -/
theorem searchCall_eq : ∃ i u, searchCall devs first s = exec i u ∧ startsSearch i u ∧ u.ready ∧
    u.searchBase i = s.callBase devs first := by
  cases first with
  | true => exact ⟨.owiSfirst, _, rfl, .inl rfl, hs, rfl⟩
  | false =>
    have hldf : s.ldf = false := by simpa using hfirst
    exact ⟨.owiSnext, { s with owiScript := searchScript devs s.rom s.srchLd.toNat }, rfl, .inr ⟨rfl, hldf⟩, hs, rfl⟩

theorem searchCall_whole (hdevs : devs ≠ []) :
    searchCall devs first s = .next (s.callBase devs first).searchedWhole := by
  obtain ⟨i, u, hcall, hi, hu, hbase⟩ := searchCall_eq (devs := devs) hs hfirst
  have hface : facesDevices devs (u.searchBase i) := hbase ▸ callBase_facesDevices
  have hpresence : (u.searchBase i).sampleAt 0 = false := by
    rw [facesDevices_presence hface]
    simpa using hdevs
  rw [hcall, ← hbase]
  exact exec_search_whole hi hu hpresence fun n => facesDevices_answered hface hdevs

end

/-- Settles O55: the presence sample of an empty bus is 1. -/
theorem emptyBusHasNoPresence : Obligations.EmptyBusHasNoPresence := by
  intro first s hs hfirst
  obtain ⟨i, u, hcall, hi, hu, hbase⟩ := searchCall_eq (devs := []) hs hfirst
  have habsent : (u.searchBase i).sampleAt 0 = true := by
    rw [hbase, facesDevices_presence callBase_facesDevices]
    rfl
  refine ⟨_, hcall.trans (exec_search_absent hi hu habsent), (searchBase_seq hi).trans hu.1, rfl, ?_⟩
  change (u.searchBase i).rom = s.rom
  rw [hbase, callBase_rom]

/-- Settles O53: the search finds the ROM address of a device, which is valid. -/
theorem searchFindsAConnectedDevice : Obligations.SearchFindsAConnectedDevice := by
  intro devs first s hdevs hvalid hs hfirst
  have hface := callBase_facesDevices (devs := devs) (first := first) (s := s)
  refine ⟨_, searchCall_whole hs hfirst hdevs, searchedWhole_seq.trans (callBase_seq.trans hs.1),
    searchedWhole_ok hface hdevs hvalid, ?_⟩
  rw [searchedWhole_rom]
  exact romAfter_mem_devices hface hdevs

/-- Settles O56: the search finds the one device, and the zero test of its CRC-8 fails. -/
theorem invalidDeviceFailsTheSearch : Obligations.InvalidDeviceFailsTheSearch := by
  intro rom first s hinvalid hs hfirst
  have hdevs : [rom] ≠ [] := List.cons_ne_nil _ _
  have hmem := romAfter_mem_devices (callBase_facesDevices (s := s) (first := first)) hdevs
  rw [List.mem_singleton] at hmem
  have hresult : (s.callBase [rom] first).searchedWhole.result = .eOwiCrc := by
    rw [searchedWhole_result, hmem, if_pos (mt (crc8_rom_eq_zero_iff rom).1 hinvalid)]
  have hreset := ended_of_failed (hresult.trans_ne (by decide))
  exact ⟨_, searchCall_whole hs hfirst hdevs, searchedWhole_seq.trans (callBase_seq.trans hs.1), hresult,
    searchedWhole_rom.trans hmem, hreset⟩

end Sys2Proof.Machine
end

section
/-! SUPPORT. A session on a bus of devices (R231): each search finds the first device after the one before, in the
order of the bit strings, up to the last. -/

namespace Sys2Proof.Machine

/-! ### The order of ROM addresses (R231) -/

/-- The bits before bit number `n` are the same. -/
def sameBelow (a b : Vector Byte 8) (n : Nat) : Prop := ∀ m, 1 ≤ m → m < n → romBitOf a m = romBitOf b m

theorem sameBelow.symm {a b : Vector Byte 8} {n : Nat} (h : sameBelow a b n) : sameBelow b a n :=
  fun m hm hmn => (h m hm hmn).symm

theorem sameBelow.trans {a b c : Vector Byte 8} {n : Nat} (h : sameBelow a b n) (h' : sameBelow b c n) :
    sameBelow a c n := fun m hm hmn => (h m hm hmn).trans (h' m hm hmn)

theorem sameBelow.mono {a b : Vector Byte 8} {n k : Nat} (h : sameBelow a b n) (hk : k ≤ n) : sameBelow a b k :=
  fun m hm hmk => h m hm (by omega)

theorem romBefore_ne {a b : Vector Byte 8} (h : romBefore a b) : a ≠ b := by
  rintro rfl
  obtain ⟨n, -, -, -, hzero, hone⟩ := h
  rw [hzero] at hone
  cases hone

theorem romBefore_trans {a b c : Vector Byte 8} (h : romBefore a b) (h' : romBefore b c) : romBefore a c := by
  obtain ⟨n, hn, hn64, hsame, hzero, hone⟩ := h
  obtain ⟨m, hm, hm64, hsame', hzero', hone'⟩ := h'
  have hsame : sameBelow a b n := hsame
  have hsame' : sameBelow b c m := hsame'
  rcases Nat.lt_trichotomy n m with hlt | rfl | hlt
  · exact ⟨n, hn, hn64, hsame.trans (hsame'.mono (le_of_lt hlt)), hzero, (hsame' n hn hlt).symm.trans hone⟩
  · rw [hone] at hzero'
    cases hzero'
  · exact ⟨m, hm, hm64, (hsame.mono (le_of_lt hlt)).trans hsame', (hsame m hm hlt).trans hzero', hone'⟩

/-- Two ROM addresses that are not the same have a first bit number at which they differ. -/
theorem exists_first_difference {a b : Vector Byte 8} (h : a ≠ b) :
    ∃ n, 1 ≤ n ∧ n ≤ 64 ∧ sameBelow a b n ∧ romBitOf a n ≠ romBitOf b n := by
  have hex : ∃ n, 1 ≤ n ∧ n ≤ 64 ∧ romBitOf a n ≠ romBitOf b n := by
    by_contra hnone
    exact h (rom_ext fun n hn hn64 => by_contra fun hne => hnone ⟨n, hn, hn64, hne⟩)
  obtain ⟨hn, hn64, hne⟩ := Nat.find_spec hex
  exact ⟨Nat.find hex, hn, hn64, fun m hm hlt => by_contra fun hm' => Nat.find_min hex hlt ⟨hm, by omega, hm'⟩, hne⟩

/-! ### Where a device leaves a ROM address upwards -/

/-- At bit number `n`, where `rom` has 0, some device that agrees with `rom` before has 1. -/
def branchesAt (devs : List (Vector Byte 8)) (rom : Vector Byte 8) (n : Nat) : Prop :=
  1 ≤ n ∧ n ≤ 64 ∧ romBitOf rom n = false ∧ ∃ d ∈ devs, sameBelow rom d n ∧ romBitOf d n = true

/-- `z` is the last bit number at which a device leaves `rom` upwards, or 0 if none does. -/
def lastBranch (devs : List (Vector Byte 8)) (rom : Vector Byte 8) (z : Nat) : Prop :=
  (z = 0 ∨ branchesAt devs rom z) ∧ ∀ n, z < n → ¬branchesAt devs rom n

/-- A device after `rom` leaves it upwards, at or before the last bit number where one does. -/
theorem lastBranch.of_romBefore {devs : List (Vector Byte 8)} {rom d : Vector Byte 8} {z : Nat}
    (hlast : lastBranch devs rom z) (hd : d ∈ devs) (h : romBefore rom d) :
    ∃ n, 1 ≤ n ∧ n ≤ z ∧ n ≤ 64 ∧ sameBelow rom d n ∧ romBitOf rom n = false ∧ romBitOf d n = true := by
  obtain ⟨n, hn, hn64, hsame, hzero, hone⟩ := h
  refine ⟨n, hn, ?_, hn64, hsame, hzero, hone⟩
  by_contra hz
  exact hlast.2 n (by omega) ⟨hn, hn64, hzero, d, hd, hsame, hone⟩

/-! ### What one search finds (R224, R231) -/

section
variable {devs : List (Vector Byte 8)} {b : State} (hface : facesDevices devs b)

theorem mem_activeAfter_iff_sameBelow {n : Nat} (hn : n < 64) (rom : Vector Byte 8) :
    rom ∈ b.activeAfter devs n ↔ rom ∈ devs ∧ sameBelow rom (b.romAfter 64) (n + 1) := by
  rw [mem_activeAfter]
  refine and_congr_right fun _ => forall_congr' fun m => ⟨fun h hm hmn => ?_, fun h hm hmn => ?_⟩
  · rw [h hm (by omega), romBitOf_romAfter_below b le_rfl hm (by omega)]
  · rw [h hm (by omega), romBitOf_romAfter_below b le_rfl hm (by omega)]

include hface

/-- The devices disagree where two of them that agree with the ROM address found so far have both values. -/
theorem facesDevices_disagree_of {n : Nat} (hn : 1 ≤ n) (hn64 : n ≤ 64) {d e : Vector Byte 8} (hd : d ∈ devs)
    (he : e ∈ devs) (hd' : sameBelow d (b.romAfter 64) n) (he' : sameBelow e (b.romAfter 64) n)
    (hne : romBitOf d n ≠ romBitOf e n) : b.devicesDisagree n := by
  obtain ⟨n, rfl⟩ := Nat.exists_eq_add_of_le' hn
  by_contra hagree
  have hforced := fun rom hrom => facesDevices_forced hface hn64 hagree (rom := rom) hrom
  exact hne ((hforced d ((mem_activeAfter_iff_sameBelow hn64 d).2 ⟨hd, hd'⟩)).trans
    (hforced e ((mem_activeAfter_iff_sameBelow hn64 e).2 ⟨he, he'⟩)).symm)

/-- A search from a device's ROM address replays its bits before SRCH_LD. -/
theorem sameBelow_romAfter (hmem : b.rom ∈ devs) {n : Nat} (hn : n ≤ b.srchLd.toNat) (hn64 : n ≤ 64) :
    sameBelow b.rom (b.romAfter 64) n := by
  induction n with
  | zero => exact fun m _ hm => absurd hm (Nat.not_lt_zero m)
  | succ n ih =>
    have hbelow := ih (by omega) (by omega)
    intro m hm hmn
    rcases Nat.lt_or_eq_of_le (Nat.le_of_lt_succ hmn) with hlt | rfl
    · exact hbelow m hm hlt
    rw [romBitOf_romAfter_below b le_rfl hm (by omega)]
    by_cases hdisagree : b.devicesDisagree m
    · rw [direction_disagree hdisagree, if_pos (by omega)]
    · obtain ⟨k, rfl⟩ := Nat.exists_eq_add_of_le' hm
      exact facesDevices_forced hface (by omega) hdisagree
        ((mem_activeAfter_iff_sameBelow (by omega) b.rom).2 ⟨hmem, hbelow⟩)

variable (hdevs : devs ≠ [])
include hdevs

theorem branchesAt_romAfter_iff (n : Nat) :
    branchesAt devs (b.romAfter 64) n ↔
      1 ≤ n ∧ n ≤ 64 ∧ b.devicesDisagree n ∧ romBitOf (b.romAfter 64) n = false := by
  have hmem := romAfter_mem_devices hface hdevs
  constructor
  · rintro ⟨hn, hn64, hzero, d, hd, hsame, hone⟩
    refine ⟨hn, hn64, facesDevices_disagree_of hface hn hn64 hmem hd (fun _ _ _ => rfl) hsame.symm ?_, hzero⟩
    rw [hzero, hone]
    decide
  · rintro ⟨hn, hn64, hdisagree, hzero⟩
    obtain ⟨n, rfl⟩ := Nat.exists_eq_add_of_le' hn
    obtain ⟨-, d, hd, hone⟩ := (facesDevices_disagree_iff hface hn64).1 hdisagree
    obtain ⟨hd, hsame⟩ := (mem_activeAfter_iff_sameBelow hn64 d).1 hd
    exact ⟨hn, hn64, hzero, d, hd, hsame.symm, hone⟩

/-- `last_zero` is the last bit number at which a device leaves the ROM address found upwards. -/
theorem lastBranch_zeroAfter : lastBranch devs (b.romAfter 64) (b.zeroAfter 64) := by
  obtain ⟨hhere, habove⟩ := lastZero_romAfter (fun n => facesDevices_answered hface hdevs (n := n)) (k := 64) le_rfl
  refine ⟨hhere.imp_right (branchesAt_romAfter_iff hface hdevs _).2, fun n hn hbranch => ?_⟩
  obtain ⟨-, hn64, hzero⟩ := (branchesAt_romAfter_iff hface hdevs n).1 hbranch
  exact habove n hn hn64 hzero

/-- A device that agrees with the ROM address found up to SRCH_LD is that device or after it: beyond SRCH_LD the search
takes 0 at a discrepancy. -/
theorem romBefore_of_sameBelow {d : Vector Byte 8} (hd : d ∈ devs)
    (hsame : sameBelow d (b.romAfter 64) (b.srchLd.toNat + 1)) : d = b.romAfter 64 ∨ romBefore (b.romAfter 64) d := by
  refine or_iff_not_imp_left.2 fun hne => ?_
  obtain ⟨n, hn, hn64, hbelow, hdiff⟩ := exists_first_difference hne
  have hld : b.srchLd.toNat < n := by
    by_contra hle
    exact hdiff (hsame n hn (by omega))
  have hdisagree := facesDevices_disagree_of hface hn hn64 hd (romAfter_mem_devices hface hdevs) hbelow
    (fun _ _ _ => rfl) hdiff
  have hzero : romBitOf (b.romAfter 64) n = false := by
    rw [romBitOf_romAfter_below b le_rfl hn hn64, direction_disagree hdisagree, if_neg (by omega),
      decide_eq_false (by omega)]
  rw [hzero] at hdiff
  exact ⟨n, hn, hn64, hbelow.symm, hzero, Bool.eq_true_of_not_eq_false hdiff⟩

/-- A search from a device's ROM address and the last bit number at which a device leaves it upwards finds the first
device after it. -/
theorem romAfter_is_next (hmem : b.rom ∈ devs) (hlast : lastBranch devs b.rom b.srchLd.toNat)
    (hld : b.srchLd.toNat ≠ 0) :
    romBefore b.rom (b.romAfter 64) ∧
    ∀ d ∈ devs, romBefore b.rom d → d = b.romAfter 64 ∨ romBefore (b.romAfter 64) d := by
  obtain ⟨hz, hz64, hzero, e, he, hsame, hone⟩ := hlast.1.resolve_left hld
  have hreplay := sameBelow_romAfter hface hmem le_rfl hz64
  have hdisagree := facesDevices_disagree_of hface hz hz64 hmem he hreplay (hsame.symm.trans hreplay)
    (by rw [hzero, hone]; decide)
  have htaken : romBitOf (b.romAfter 64) b.srchLd.toNat = true := by
    rw [romBitOf_romAfter_below b le_rfl hz hz64, direction_disagree hdisagree, if_neg (by omega), decide_eq_true rfl]
  refine ⟨⟨_, hz, hz64, hreplay, hzero, htaken⟩, fun d hd hafter => ?_⟩
  obtain ⟨n, hn, hnz, hn64, hbelow, hnzero, hnone⟩ := hlast.of_romBefore hd hafter
  rcases Nat.lt_or_eq_of_le hnz with hlt | rfl
  · exact .inr ⟨n, hn, hn64, (hreplay.symm.mono (le_of_lt hlt)).trans hbelow, (hreplay n hn hlt).symm.trans hnzero,
      hnone⟩
  · refine romBefore_of_sameBelow hface hdevs hd fun m hm hmz => ?_
    rcases Nat.lt_or_eq_of_le (Nat.le_of_lt_succ hmz) with hlt | rfl
    · exact (hbelow.symm.trans hreplay) m hm hlt
    · rw [hnone, htaken]

end

/-! ### A session (R231) -/

/-- The block between two calls of a session on a bus of `devs`: ROM holds the device found last, and SRCH_LD and LDF
say where the next search is to leave it. -/
structure InSession (devs : List (Vector Byte 8)) (s : State) : Prop where
  ready : s.ready
  mem : s.rom ∈ devs
  last : lastBranch devs s.rom s.srchLd.toNat
  ldf : s.ldf = decide (s.srchLd.toNat = 0)

theorem sessionFrom_succ {devs : List (Vector Byte 8)} {first : Bool} {s t : State}
    (h : searchCall devs first s = .next t) (n : Nat) :
    sessionFrom devs first (n + 1) s = (t.result, t.rom) :: sessionFrom devs false n t := by
  rw [sessionFrom, h]

section
variable {devs : List (Vector Byte 8)} (hdevs : devs ≠ []) (hvalid : ∀ rom ∈ devs, romValid rom = true)
include hdevs hvalid

/-- A search call that goes to the bus answers OK and is in session after it. -/
theorem searchCall_inSession {first : Bool} {s : State} (hs : s.ready) (hfirst : first = true ∨ s.ldf = false) :
    ∃ t, searchCall devs first s = .next t ∧ t.result = .ok ∧ t.rom = (s.callBase devs first).romAfter 64 ∧
      InSession devs t := by
  have hface := callBase_facesDevices (devs := devs) (first := first) (s := s)
  have hok := searchedWhole_ok hface hdevs hvalid
  obtain ⟨-, hld, hldf, -⟩ := searchedWhole_of_ok hok
  refine ⟨_, searchCall_whole hs hfirst hdevs, hok, searchedWhole_rom, ⟨?_, ?_⟩, ?_, ?_, ?_⟩
  · exact searchedWhole_seq.trans (callBase_seq.trans hs.1)
  · exact (undisturbed_congr (searchedWhole_host.trans callBase_host)).trans hs.2
  · rw [searchedWhole_rom]
    exact romAfter_mem_devices hface hdevs
  · rw [searchedWhole_rom, hld]
    exact lastBranch_zeroAfter hface hdevs
  · rw [hld, hldf]

/-- The first call of a session finds the first device of all. -/
theorem searchCall_first {s : State} (hs : s.ready) :
    ∃ t, searchCall devs true s = .next t ∧ t.result = .ok ∧ InSession devs t ∧
      ∀ d ∈ devs, d = t.rom ∨ romBefore t.rom d := by
  obtain ⟨t, hcall, hok, hrom, ht⟩ := searchCall_inSession hdevs hvalid hs (.inl rfl)
  refine ⟨t, hcall, hok, ht, fun d hd => ?_⟩
  rw [hrom]
  exact romBefore_of_sameBelow callBase_facesDevices hdevs hd fun m hm hm1 => by rw [callBase_first] at hm1; omega

/-- A later call finds the first device after the one before. -/
theorem searchCall_next {s : State} (hs : InSession devs s) (hldf : s.ldf = false) :
    ∃ t, searchCall devs false s = .next t ∧ t.result = .ok ∧ InSession devs t ∧ romBefore s.rom t.rom ∧
      ∀ d ∈ devs, romBefore s.rom d → d = t.rom ∨ romBefore t.rom d := by
  obtain ⟨t, hcall, hok, hrom, ht⟩ := searchCall_inSession hdevs hvalid hs.ready (.inr hldf)
  have hbase : (s.callBase devs false).rom = s.rom := callBase_rom
  have hface := callBase_facesDevices (devs := devs) (first := false) (s := s)
  have hld : s.srchLd.toNat ≠ 0 := by simpa [hldf] using hs.ldf
  obtain ⟨hbefore, hleast⟩ := romAfter_is_next hface hdevs (by rw [hbase]; exact hs.mem)
    (by rw [hbase, callBase_next]; exact hs.last) (by rwa [callBase_next])
  rw [hbase, ← hrom] at hbefore hleast
  exact ⟨t, hcall, hok, ht, hbefore, hleast⟩

/-- From a block in session, whose devices after ROM are all in `rest`: the calls to come find just these, in order,
and then answer R_OWI_LAST. -/
theorem session_rest {s : State} (hs : InSession devs s) {rest : List (Vector Byte 8)}
    (hrest : ∀ d ∈ devs, romBefore s.rom d → d ∈ rest) :
    ∃ (found : List (Vector Byte 8)) (last : Vector Byte 8),
      (∀ d, d ∈ found ↔ d ∈ devs ∧ romBefore s.rom d) ∧ found.Pairwise romBefore ∧
      sessionFrom devs false (found.length + 1) s = found.map (fun rom => (.ok, rom)) ++ [(.rOwiLast, last)] := by
  induction hlen : rest.length using Nat.strong_induction_on generalizing s rest with
  | _ n ih =>
    cases hldf : s.ldf with
    | true =>
      obtain ⟨t, hcall, hresult⟩ := searchCall_last hs.ready hldf
      refine ⟨[], t.rom, fun d => ⟨fun h => (List.not_mem_nil h).elim, fun ⟨hd, hafter⟩ => ?_⟩, .nil, ?_⟩
      · have hld : s.srchLd.toNat = 0 := by simpa [hldf] using hs.ldf
        obtain ⟨m, hm, hmz, -⟩ := hs.last.of_romBefore hd hafter
        omega
      · rw [List.length_nil, sessionFrom_succ hcall, hresult]
        rfl
    | false =>
      obtain ⟨t, hcall, hok, ht, hbefore, hleast⟩ := searchCall_next hdevs hvalid hs hldf
      have hmem : t.rom ∈ rest := hrest _ ht.mem hbefore
      obtain ⟨found, last, hfound, hsorted, hsession⟩ := ih (rest.erase t.rom).length
        (hlen ▸ (List.length_erase_of_mem hmem).trans_lt (Nat.sub_lt (List.length_pos_of_mem hmem) Nat.one_pos)) ht
        (fun d hd hafter => (List.mem_erase_of_ne (romBefore_ne hafter).symm).2
          (hrest d hd (romBefore_trans hbefore hafter))) rfl
      refine ⟨t.rom :: found, last, fun d => ?_, hsorted.cons fun d hd => ((hfound d).1 hd).2, ?_⟩
      · rw [List.mem_cons, hfound]
        constructor
        · rintro (rfl | ⟨hd, hafter⟩)
          · exact ⟨ht.mem, hbefore⟩
          · exact ⟨hd, romBefore_trans hbefore hafter⟩
        · rintro ⟨hd, hafter⟩
          exact (hleast d hd hafter).imp_right fun h => ⟨hd, h⟩
      · rw [List.length_cons, sessionFrom_succ hcall, hok, hsession]
        rfl

end

/-- Settles O54: the first call finds the first device of all, and each later call the first after it. -/
theorem sessionFindsEveryDeviceOnce : Obligations.SessionFindsEveryDeviceOnce := by
  intro devs s hdevs hdistinct hvalid hs
  obtain ⟨t, hcall, hok, ht, hleast⟩ := searchCall_first hdevs hvalid hs
  obtain ⟨found, last, hfound, hsorted, hsession⟩ := session_rest hdevs hvalid ht (rest := devs) fun d hd _ => hd
  have hordered : (t.rom :: found).Pairwise romBefore := hsorted.cons fun d hd => ((hfound d).1 hd).2
  have hnodup : (t.rom :: found).Nodup :=  hordered.imp romBefore_ne
  have hperm : (t.rom :: found).Perm devs := (List.perm_ext_iff_of_nodup hnodup hdistinct).2 fun d => by
    rw [List.mem_cons, hfound]
    constructor
    · rintro (rfl | ⟨hd, -⟩)
      · exact ht.mem
      · exact hd
    · exact fun hd => (hleast d hd).imp_right fun h => ⟨hd, h⟩
  refine ⟨t.rom :: found, last, hperm, hordered, ?_⟩
  rw [← hperm.length_eq, List.length_cons, sessionFrom_succ hcall, hok, hsession]
  rfl

end Sys2Proof.Machine
end

section
/-! SUPPORT. Every command, the illegal one included, answers a next state. -/

namespace Sys2Proof.Machine

/-- The illegal command runs its pseudocode under the command cycle too, as `exec_eq` says of every other (R114). -/
theorem execIllegal_eq (w : Byte) (s : State) :
    execIllegal w s = .next (runBody illegalBody Config.burst (s.begin w)) := rfl

/-- Settles O60: a command, legal or not, answers the state in which the run of its pseudocode leaves the block. -/
theorem noCommandStops : Obligations.NoCommandStops :=
  ⟨fun i s => ⟨_, exec_eq i s⟩, fun w s => ⟨_, execIllegal_eq w s⟩⟩

end Sys2Proof.Machine
end

section
/-! SUPPORT. Hardware reset, asserted in any state and then released. -/

namespace Sys2Proof.Machine

/-! ### Hardware reset (R281, R41) -/

theorem hostAction_assertReset (s : State) :
    hostAction .assertReset s = .next { s.hardwareReset with resetLine := true } := rfl

theorem hostAction_releaseReset {s : State} (h : s.resetLine = true) :
    hostAction .releaseReset s = .next { s.hardwareReset with resetLine := false } :=
  congrArg Host.Outcome.next (if_pos h)

/-- Outside the buffers, whose bytes depend on the count of resets, the register map reads as after reset. -/
theorem peek_hardwareReset (s : State) (b : Bool) {off : Nat} (h : inBuffer off = false) :
    State.peek { s.hardwareReset with resetLine := b } off = State.reset.peek off := by
  unfold State.peek
  split
  case h_23 => simp [h]
  all_goals rfl

/-- Settles O5: the assertion and the release each put the block through `State.hardwareReset`. -/
theorem hardwareResetFromAnyState : Obligations.HardwareResetFromAnyState := by
  intro s
  refine ⟨_, _, hostAction_assertReset s, hostAction_releaseReset rfl, rfl, rfl, rfl, rfl,
    fun _ => peek_hardwareReset s true, fun _ => rfl, rfl, rfl, rfl, rfl, rfl, rfl, rfl, rfl,
    fun _ => peek_hardwareReset _ false, fun _ => rfl, rfl⟩

end Sys2Proof.Machine
end

section
/-! SUPPORT. The microseconds of the traces of the 1-Wire commands (R295). -/

namespace Sys2Proof.Machine

/-! ### The waits of a trace (R191) -/

theorem waited_append (newer older : List BusEvent) : waited (newer ++ older) = waited newer + waited older := by
  induction newer with
  | nil => exact (Nat.zero_add _).symm
  | cons e newer ih => cases e <;> simp [waited, ih, Nat.add_assoc]

/-- Traces of one duration, one after the other. -/
theorem waited_flatten {traces : List (List BusEvent)} {us : Nat} (h : ∀ trace ∈ traces, waited trace = us) :
    waited traces.flatten = traces.length * us := by
  induction traces with
  | nil => exact (Nat.zero_mul us).symm
  | cons trace traces ih =>
    obtain ⟨htrace, htraces⟩ := List.forall_mem_cons.1 h
    rw [List.flatten_cons, waited_append, htrace, ih htraces, List.length_cons, Nat.succ_mul, Nat.add_comm]

/-- A command lasts as long as the trace that it adds. -/
theorem exec_waited {i : Instr} {s t : State} {added : List BusEvent} {us : Nat} (h : exec i s = .next t)
    (htrace : t.trace = added ++ s.trace) (hus : waited added = us) :
    ∃ t : State, exec i s = .next t ∧ waited t.trace = waited s.trace + us :=
  ⟨t, h, by rw [htrace, waited_append, hus, Nat.add_comm]⟩

/-! ### Slots and pulses whose waits add up (R192 to R195) -/

/-- Every wait inside a slot or a reset pulse ends within it, so no subtraction of times is cut off at 0. -/
structure WaitsFit (p : Params) : Prop where
  pulse : p.tRstl + p.tPds ≤ p.tRstEnd
  low (b : Bool) : lowTime p b ≤ p.tSlot
  sample : p.tRl ≤ p.tMsr
  slot : p.tMsr ≤ p.tSlot

/-- R9 bounds every time by its slot or pulse but T_W1L. -/
theorem waitsFit_of_legal {p : Params} (hlegal : p.legal = true) (hw1l : p.tW1l ≤ p.tSlot) : WaitsFit p := by
  obtain ⟨-, -, -, -, hpulse, hw0l, hrl, hmsr⟩ := (params_legal_iff p).1 hlegal
  refine ⟨hpulse.le, fun b => ?_, hrl.le, hmsr.le⟩
  cases b
  · exact hw0l.le
  · exact hw1l

section
variable {p : Params} (hp : WaitsFit p)
include hp

theorem waited_resetPulseTrace (b : Bool) : waited (resetPulseTrace p b) = p.tRstEnd := by
  have hpulse := hp.pulse
  simp only [resetPulseTrace, waited]
  omega

theorem waited_writeSlotTrace (b : Bool) : waited (writeSlotTrace p b) = p.tSlot := by
  have hlow := hp.low b
  simp only [writeSlotTrace, waited]
  omega

theorem waited_readSlotTrace (b : Bool) : waited (readSlotTrace p b) = p.tSlot := by
  have hsample := hp.sample
  have hslot := hp.slot
  simp only [readSlotTrace, waited]
  omega

theorem waited_writeByteTrace (v : Byte) : waited (writeByteTrace p v) = 8 * p.tSlot :=
  waited_flatten (List.forall_mem_map.2 fun _ _ => waited_writeSlotTrace hp _)

theorem waited_readSlots (bits : List Bool) :
    waited (bits.map (readSlotTrace p)).flatten = bits.length * p.tSlot := by
  rw [waited_flatten (List.forall_mem_map.2 fun b _ => waited_readSlotTrace hp b), List.length_map]

end

/-! ### The parts of a search (R224) -/

section
variable {s : State} (hp : WaitsFit s.params)
include hp

theorem waited_searchStartTrace :
    waited s.searchStartTrace = waited s.trace + s.params.tRstEnd + 8 * s.params.tSlot := by
  rw [State.searchStartTrace, waited_append, waited_append, waited_writeByteTrace hp, waited_resetPulseTrace hp]
  omega

theorem waited_searchBitsTrace (rom : Vector Byte 8) (n : Nat) :
    waited (s.searchBitsTrace rom n) = n * (3 * s.params.tSlot) := by
  induction n with
  | zero => exact (Nat.zero_mul _).symm
  | succ n ih =>
    simp only [State.searchBitsTrace, waited_append, waited_writeSlotTrace hp, waited_readSlotTrace hp, ih]
    rw [Nat.add_one_mul n]
    omega

end

/-! ### The commands (R295) -/

section
variable {s : State} (hs : s.ready) (hp : WaitsFit s.params)
include hs hp

theorem owiRbyte_waited :
    ∃ t : State, exec .owiRbyte s = .next t ∧ waited t.trace = waited s.trace + 8 * s.params.tSlot := by
  refine exec_waited (exec_owiRbyte hs) (congrArg State.trace (readBits_eq s 8)) ?_
  rw [waited_readSlots hp, List.length_reverse, nextSamples_length]

/-- The duration of a search by its result: R_OWI_LAST, and the three ways of a search on the bus. -/
theorem search_waited {i : Instr} (hcommand : i = .owiSfirst ∨ i = .owiSnext) :
    ∃ t : State, exec i s = .next t ∧ t.seq = .idle ∧
      ((t.result = .ok ∨ t.result = .eOwiCrc ∨ t.result = .eOwiFamily) ∧
        waited t.trace = waited s.trace + (s.params.tRstEnd + 8 * s.params.tSlot + 192 * s.params.tSlot) ∨
      t.result = .eOwiNoPres ∧ waited t.trace = waited s.trace + s.params.tRstEnd ∨
      t.result = .eOwiNoDev ∧ (∃ n, s.abortsAt n ∧ waited t.trace = waited s.trace +
        (s.params.tRstEnd + 8 * s.params.tSlot + (n - 1) * (3 * s.params.tSlot) + 2 * s.params.tSlot)) ∨
      t.result = .rOwiLast ∧ waited t.trace = waited s.trace) := by
  obtain ⟨t, hexec, hidle, hlast, hbus⟩ := searchesComplete i s hcommand hs
  refine ⟨t, hexec, hidle, ?_⟩
  by_cases hstop : i = .owiSnext ∧ s.ldf = true
  · obtain ⟨hresult, htrace⟩ := hlast hstop.1 hstop.2
    exact .inr (.inr (.inr ⟨hresult, congrArg waited htrace⟩))
  obtain ⟨-, habsent, hnobody, hwhole, -⟩ := hbus ((startsSearch_of_not_last hcommand hstop).imp_right And.right)
  cases hpresence : s.sampleAt 0 with
  | true =>
    obtain ⟨hresult, htrace⟩ := habsent hpresence
    refine .inr (.inl ⟨hresult, ?_⟩)
    rw [htrace, waited_append, waited_resetPulseTrace hp, Nat.add_comm]
  | false =>
    by_cases habort : ∃ n, s.abortsAt n
    · obtain ⟨n, hn⟩ := habort
      obtain ⟨hresult, htrace⟩ := hnobody hpresence n hn
      refine .inr (.inr (.inl ⟨hresult, n, hn, ?_⟩))
      simp only [htrace, waited_append, waited_readSlotTrace hp, waited_searchBitsTrace hp,
        waited_searchStartTrace hp]
      omega
    · obtain ⟨-, -, htrace, hresult⟩ := hwhole hpresence habort
      refine .inl ⟨?_, ?_⟩
      · rw [hresult]
        split_ifs <;> simp
      · rw [htrace, waited_append, waited_searchBitsTrace hp, waited_searchStartTrace hp]
        omega

end

/-- Settles O46: each command's trace is slots and pulses whose waits add up, and the defaults are legal parameters. -/
theorem owiCommandDurations : Obligations.OwiCommandDurations := by
  unfold Obligations.OwiCommandDurations
  intro durations
  have hlegal (s : State) (hs : s.ready) (hp : WaitsFit s.params) : durations s s.params.tRstEnd s.params.tSlot :=
    ⟨exec_waited (exec_owiReset hs) rfl (waited_resetPulseTrace hp _),
      exec_waited (exec_owiWbit hs) rfl (waited_writeSlotTrace hp _),
      exec_waited (exec_owiRbit hs) rfl (waited_readSlotTrace hp _),
      exec_waited (exec_owiWbyte hs) rfl (waited_writeByteTrace hp _),
      owiRbyte_waited hs hp, fun _ hcommand => search_waited hs hp hcommand⟩
  refine ⟨fun s hs h hw1l => hlegal s hs (waitsFit_of_legal h hw1l), fun s hs hdefault => ?_⟩
  have hdurations := hlegal s hs (hdefault ▸ waitsFit_of_legal (by decide) (by decide))
  rwa [hdefault] at hdurations

end Sys2Proof.Machine
end
